-- ==== Sys2Proof/Word.lean ====
section
/-! DEFINITION. The word and byte types of the block: every element, register and address is a
64-bit pattern (R7, R11), memory and the stream are made of bytes (R12). -/

namespace Sys2Proof

/-- A 64-bit pattern (`u64` of R11): an element, a register, an address. -/
abbrev Word := BitVec 64

/-- One byte of memory or of the stream. -/
abbrev Byte := BitVec 8

end Sys2Proof
end

