-- ==== Sys2Proof/Config.lean ====
section
/-! DEFINITION. What this hardware fixes (the parameters of R7 and R9) and the free values the spec
leaves open (R19). The four OPEN platform parameters of R10 are fields of State (`Platform`), so
that every statement holds for every value of them. -/

namespace Sys2Proof

/-- How many of the engine steps of R200, R237, R269 and R276 one step of the model performs. The
spec leaves it open: "How many steps a command takes is not part of any result" (R32, U8).
`command`: all of them; `block`: a decoder's whole block at once, an encoder's steps one by one;
`element`: every step of those rules by itself. -/
inductive Grain where
  | command
  | block
  | element
  deriving DecidableEq, Repr, Inhabited

namespace Config

/-- The spec's own label for this hardware (R2). -/
def identity : String := "MOC-WF1-S-V8"

/-- LANES, the lanes of the vector engine (R9, R24). -/
abbrev lanes : Nat := 8

/-- MAX_BLOCK, the most elements in one block (R9, R96). -/
def maxBlock : Nat := 4294967295

/-- SHORT_MAX, the largest count held in the selector (R9, R95). -/
def shortMax : Nat := 15

/-- FOOTER_BYTES (R9, R100). -/
def footerBytes : Nat := 7

/-- FORMAT_MARKER, wire format version 1 (R9, R101). -/
def formatMarker : Byte := 0x4D#8

/-- RECOGNIZED_MARKERS (R9, R101). -/
def recognizedMarkers : List Byte := [0x4D#8]

/-- MAXSIZE_LIMIT, the largest COUNT that MAXSIZE accepts (R9, R211). -/
def maxsizeLimit : Nat := 2049638230412172400

/-- The number of addresses, `2 ^ ADDR_W` (R9, R60). -/
def addressSpace : Nat := 18446744073709551616

/-- The size of the register block in bytes (R20). -/
def registerBlockBytes : Nat := 0x100

/-- The hard-wired value of ID (R25): marker in bits 7:0, LANES in 15:8, FOOTER_BYTES in 23:16. -/
def idWord : Word := 0x000000000007084D#64

/-- FREE VALUE (R199, R235, R326, R360): the byte at an address of an error region, at the draw
numbered by the first argument. -/
opaque freeByte : Nat → Nat → Byte

/-- FREE VALUE (R80): what the host's cache answers for a byte of a region it has not invalidated
while COHERENT = false. -/
opaque staleByte : Nat → Nat → Byte

/-- FREE VALUE (R326, U4): whether a command one of whose bytes is refused ends with BusError. -/
opaque busErrorChosen : Nat → Bool

/-- FREE VALUE (R381): whether the host or the engine moves next while both can. -/
opaque hostMovesFirst : Nat → Bool

/-- FREE VALUE (R32, U8): how many engine steps the model merges for the command that starts. -/
opaque grain : Nat → Grain

end Config

end Sys2Proof
end

