-- ==== Sys2Proof/Syntax.lean ====
section
/-! DEFINITION. The instructions: one constructor per row of spec/opcode_table.json. The five
commands of R111 keep their ignored bits (ENG of MAXSIZE, KIND of all five) as operands; the stream
forms of R90 keep how their count is spelled, since the decoder accepts a long count of 1 to 15
(R99). -/

namespace Sys2Proof

/-- KIND, bit 5 of the command word (R110): recorded, with no effect (R113). -/
inductive ElemKind where
  | i64
  | f64
  deriving DecidableEq, Repr

/-- ENG, bit 4 of the command word (R110, R112). -/
inductive EngineSel where
  | scalar
  | vector
  deriving DecidableEq, Repr

/-- K, bits 7:6 of a selector (R93), less the reserved code 0b11. -/
inductive BlockKind where
  | deltaI
  | deltaE
  | repeatRun
  deriving DecidableEq, Repr

/-- W, a 2-bit width-class code (R93). -/
abbrev WidthCode := Fin 4

/-- The count of a block and its spelling (R95, R99): `long` when the 4-byte count field is used. -/
structure BlockCount where
  n : Nat
  long : Bool
  deriving DecidableEq, Repr

/-- The nine rows of spec/opcode_table.json. -/
inductive Instr where
  /-- MAXSIZE (R212). -/
  | maxsize (eng : EngineSel) (kind : ElemKind)
  /-- COMPRESS.S (R180). -/
  | compressS (kind : ElemKind)
  /-- COMPRESS.V (R260). -/
  | compressV (kind : ElemKind)
  /-- DECOMPRESS.S (R221). -/
  | decompressS (kind : ElemKind)
  /-- DECOMPRESS.V (R270). -/
  | decompressV (kind : ElemKind)
  /-- REPEAT (R150): the count and the value V. -/
  | repeatBlock (cnt : BlockCount) (v : Word)
  /-- DELTA.E (R155): the count, the width code, the reference R and the fields z_1 .. z_(n-1). -/
  | deltaE (cnt : BlockCount) (w : WidthCode) (ref : Word) (zs : List Word)
  /-- DELTA.I (R160): the count, the width code and the fields z_1 .. z_n. -/
  | deltaI (cnt : BlockCount) (w : WidthCode) (zs : List Word)
  /-- FOOTER (R165). -/
  | footer
  deriving DecidableEq, Repr

end Sys2Proof
end

