-- ==== Sys2Proof/WellFormed.lean ====
section
/-! DEFINITION. Which terms of `Instr` an encoding stands for: the limits that R95, R96 and R138 put
on the operands of the stream forms. -/

namespace Sys2Proof

/-- R95, R96: a count is 1 to MAX_BLOCK, and the short spelling holds at most SHORT_MAX. -/
def BlockCount.wf (c : BlockCount) : Bool :=
  decide (1 ≤ c.n) && decide (c.n ≤ Config.maxBlock) && (c.long || decide (c.n ≤ Config.shortMax))

/-- R138: a field of class `w` fits in `2 ^ w` bytes. -/
def fieldFits (w : WidthCode) (z : Word) : Bool :=
  decide (z.toNat < 256 ^ (2 ^ w.val))

/-- R94: the operands of a stream form agree with each other; a command has no ill-formed term. -/
def Instr.wf : Instr → Bool
  | .maxsize _ _ => true
  | .compressS _ => true
  | .compressV _ => true
  | .decompressS _ => true
  | .decompressV _ => true
  | .repeatBlock c _ => c.wf
  | .deltaE c w _ zs => c.wf && decide (zs.length + 1 = c.n) && zs.all (fieldFits w)
  | .deltaI c w zs => c.wf && decide (zs.length = c.n) && zs.all (fieldFits w)
  | .footer => true

/-- The three block forms of R90: the forms a block region is made of. -/
def Instr.isBlock : Instr → Bool
  | .maxsize _ _ => false
  | .compressS _ => false
  | .compressV _ => false
  | .decompressS _ => false
  | .decompressV _ => false
  | .repeatBlock _ _ => true
  | .deltaE _ _ _ _ => true
  | .deltaI _ _ _ => true
  | .footer => false

/-- The five commands of R111. -/
def Instr.isCommand : Instr → Bool
  | .maxsize _ _ => true
  | .compressS _ => true
  | .compressV _ => true
  | .decompressS _ => true
  | .decompressV _ => true
  | .repeatBlock _ _ => false
  | .deltaE _ _ _ _ => false
  | .deltaI _ _ _ => false
  | .footer => false

end Sys2Proof
end

