-- ==== Sys2Proof/Decode.lean ====
section
/-! DEFINITION. The two decoders of 30_encoding.md, total on any bytes and rejecting by name: the
command word (R110 to R115) and the stream (R90 to R106); after them the encoder of both, and the
byte-order helpers of R12 that they share with the machine. -/

namespace Sys2Proof

/-! ## Byte order (R12, R61) -/

/-- `LE_n(v)` of R12: byte k is bits 8k+7 to 8k. -/
def leBytes : Nat → Nat → List Byte
  | 0, _ => []
  | n + 1, v => BitVec.ofNat 8 v :: leBytes n (v / 256)

/-- `rdLE` of R12. -/
def rdLE : List Byte → Nat
  | [] => 0
  | b :: bs => b.toNat + 256 * rdLE bs

/-- A little-endian field as a u64, zero-extended (R98, R139). -/
def rdWord (bs : List Byte) : Word := BitVec.ofNat 64 (rdLE bs)

/-- `bytesOf(W) = 2 ^ W` (R135). -/
def bytesOf (w : WidthCode) : Nat := 2 ^ w.val

/-! ## Why a decoder refuses -/

/-- Why bytes are no instruction. A rejection met inside a block carries the block's kind, since a
DELTA.I with no reference is reported before a short or zero count (R229). -/
inductive Reject where
  /-- No byte stands where a selector is wanted. -/
  | noSelector
  /-- K = 0b11, or REPEAT with W ≠ 0 (R104 (a), (b)). -/
  | reservedSelector
  /-- A long count field that does not fit (R227). -/
  | truncatedCount (k : BlockKind)
  /-- A long count field of 0 (R104 (c)). -/
  | zeroCount (k : BlockKind)
  /-- A block that does not fit (R230). -/
  | truncatedPayload (k : BlockKind)
  /-- Fewer than FOOTER_BYTES bytes where a footer is wanted (R222). -/
  | truncatedFooter
  /-- A marker that is not in RECOGNIZED_MARKERS (R223). -/
  | unknownMarker (m : Byte)
  /-- A command word of R114. -/
  | reservedCommand
  deriving DecidableEq, Repr

/-! ## The stream (R92 to R99) -/

/-- The fields K, W and C of a selector (R92, R93); the reserved selectors of R104 give none. -/
def decodeSelector (s : Byte) : Option (BlockKind × WidthCode × Nat) :=
  let w : WidthCode := Fin.ofNat 4 (s.toNat / 16)
  let c := s.toNat % 16
  match s.toNat / 64 with
  | 0 => some (.deltaI, w, c)
  | 1 => some (.deltaE, w, c)
  | 2 => if w = 0 then some (.repeatRun, w, c) else none
  | _ => none

/-- The count of a block from its count code and the bytes after the selector (R95), with the bytes
after the header. -/
def decodeCount (k : BlockKind) (c : Nat) (bs : List Byte) :
    Except Reject (BlockCount × List Byte) :=
  if c = 15 then
    if bs.length < 4 then .error (.truncatedCount k)
    else if rdLE (bs.take 4) = 0 then .error (.zeroCount k)
    else .ok (⟨rdLE (bs.take 4), true⟩, bs.drop 4)
  else .ok (⟨c + 1, false⟩, bs)

/-- `payLen` of R97. -/
def payLen (k : BlockKind) (w : WidthCode) (n : Nat) : Nat :=
  match k with
  | .repeatRun => 8
  | .deltaE => 8 + (n - 1) * bytesOf w
  | .deltaI => n * bytesOf w

/-- `hdrLen` of R97 for a count as it is spelled. -/
def hdrLen (c : BlockCount) : Nat := if c.long then 5 else 1

/-- `m` fields of class `w`, one after another (R139). -/
def decodeFields (w : WidthCode) : Nat → List Byte → List Word
  | 0, _ => []
  | m + 1, bs => rdWord (bs.take (bytesOf w)) :: decodeFields w m (bs.drop (bytesOf w))

/-- The operands of a block from its payload (R94, R98). -/
def decodePayload (k : BlockKind) (w : WidthCode) (cnt : BlockCount) (body : List Byte) : Instr :=
  match k with
  | .repeatRun => .repeatBlock cnt (rdWord (body.take 8))
  | .deltaE => .deltaE cnt w (rdWord (body.take 8)) (decodeFields w (cnt.n - 1) (body.drop 8))
  | .deltaI => .deltaI cnt w (decodeFields w cnt.n body)

/-- One block at the head of the bytes left in the block region, with the bytes after it. The
checks stand in the order of R229, less those that need the decoder's state. -/
def decodeBlock : List Byte → Except Reject (Instr × List Byte)
  | [] => .error .noSelector
  | s :: rest =>
    match decodeSelector s with
    | none => .error .reservedSelector
    | some (k, w, c) =>
      match decodeCount k c rest with
      | .error r => .error r
      | .ok (cnt, body) =>
        if body.length < payLen k w cnt.n then .error (.truncatedPayload k)
        else .ok (decodePayload k w cnt body, body.drop (payLen k w cnt.n))

/-- The footer (R100, R165): only the marker is checked, the six padding bytes are not (R102). -/
def decodeFooter (bs : List Byte) : Except Reject Instr :=
  match bs with
  | [] => .error .truncatedFooter
  | m :: rest =>
    if rest.length < Config.footerBytes - 1 then .error .truncatedFooter
    else if Config.recognizedMarkers.contains m then .ok .footer
    else .error (.unknownMarker m)

/-! ## The command word (R110 to R115) -/

/-- KIND, bit 5 (R110). -/
def decodeKind (v : Word) : ElemKind := if v.getLsbD 5 then .f64 else .i64

/-- ENG, bit 4 (R110). -/
def decodeEngine (v : Word) : EngineSel := if v.getLsbD 4 then .vector else .scalar

/-- The command a word stands for (R111); the words of R114 are refused by name. -/
def decodeCommand (v : Word) : Except Reject Instr :=
  if v.toNat / 64 ≠ 0 then .error .reservedCommand
  else
    match v.toNat % 16, decodeEngine v with
    | 1, e => .ok (.maxsize e (decodeKind v))
    | 2, .scalar => .ok (.compressS (decodeKind v))
    | 2, .vector => .ok (.compressV (decodeKind v))
    | 3, .scalar => .ok (.decompressS (decodeKind v))
    | 3, .vector => .ok (.decompressV (decodeKind v))
    | _, _ => .error .reservedCommand

/-- A command word as the eight bytes of the register write (R61). -/
def decodeCommandBytes (bs : List Byte) : Except Reject Instr :=
  if bs.length = 8 then decodeCommand (rdWord bs) else .error .reservedCommand

/-! ## The encoder -/

/-- K of R93 as a number. -/
def kindCode : BlockKind → Nat
  | .deltaI => 0
  | .deltaE => 1
  | .repeatRun => 2

/-- The selector byte `K<<6 | W<<4 | C` (R92, R151). -/
def selectorByte (k : BlockKind) (w : WidthCode) (c : Nat) : Byte :=
  BitVec.ofNat 8 (kindCode k * 64 + w.val * 16 + c)

/-- A block's header in the spelling of its count (R95, R151). -/
def encodeHeader (k : BlockKind) (w : WidthCode) (cnt : BlockCount) : List Byte :=
  if cnt.long then selectorByte k w 15 :: leBytes 4 cnt.n
  else [selectorByte k w (cnt.n - 1)]

/-- The packed fields of a delta block (R138). -/
def encodeFields (w : WidthCode) (zs : List Word) : List Byte :=
  zs.flatMap fun z => leBytes (bytesOf w) z.toNat

/-- Bits 5 and 4 of a command word (R110). -/
def encodeSelectors (e : EngineSel) (k : ElemKind) : Nat :=
  (match k with | .i64 => 0 | .f64 => 32) + (match e with | .scalar => 0 | .vector => 16)

/-- The bytes of an instruction: a command's word as eight little-endian bytes (R111), a block as
R94 lays it out, the footer as R100 does. -/
def encode : Instr → List Byte
  | .maxsize e k => leBytes 8 (encodeSelectors e k + 1)
  | .compressS k => leBytes 8 (encodeSelectors .scalar k + 2)
  | .compressV k => leBytes 8 (encodeSelectors .vector k + 2)
  | .decompressS k => leBytes 8 (encodeSelectors .scalar k + 3)
  | .decompressV k => leBytes 8 (encodeSelectors .vector k + 3)
  | .repeatBlock cnt v => encodeHeader .repeatRun 0 cnt ++ leBytes 8 v.toNat
  | .deltaE cnt w ref zs => encodeHeader .deltaE w cnt ++ leBytes 8 ref.toNat ++ encodeFields w zs
  | .deltaI cnt w zs => encodeHeader .deltaI w cnt ++ encodeFields w zs
  | .footer => Config.formatMarker :: List.replicate (Config.footerBytes - 1) 0#8

/-- The length of an instruction in bytes (R97, R100, R115). -/
def Instr.byteLen : Instr → Nat
  | .maxsize _ _ => 8
  | .compressS _ => 8
  | .compressV _ => 8
  | .decompressS _ => 8
  | .decompressV _ => 8
  | .repeatBlock cnt _ => hdrLen cnt + payLen .repeatRun 0 cnt.n
  | .deltaE cnt w _ _ => hdrLen cnt + payLen .deltaE w cnt.n
  | .deltaI cnt w _ => hdrLen cnt + payLen .deltaI w cnt.n
  | .footer => Config.footerBytes

/-! ## The opcode table's words -/

/-- The operand bytes the table gives no bits: zeros up to the longest block a short count can
spell with them, 1 + 8 + 15 · 8 bytes. -/
def tableTail : List Byte := List.replicate 128 0#8

/-- The bytes of a table word that is a stream form. -/
def tableBytes (nbits w : Nat) : List Byte := leBytes (nbits / 8) w ++ tableTail

/-- Whether a table word is read as a FOOTER: the marker byte with only padding after it. The wire
format tells it from a DELTA.E selector by its place alone (R91, R223), which a table word lacks. -/
def tableIsFooter (nbits w : Nat) : Bool :=
  decide (nbits < 64) && decide (8 ≤ nbits) && decide (w = Config.formatMarker.toNat)

/-- The instruction whose bits, numbered as the opcode table numbers them, are `w`: a 64-bit word is
a command, a shorter one a stream form whose further bytes are zeros. -/
def decodeTableWord (nbits w : Nat) : Option Instr :=
  if 64 ≤ nbits then
    match decodeCommandBytes (leBytes 8 w) with
    | .ok i => some i
    | .error _ => none
  else if tableIsFooter nbits w then
    match decodeFooter (tableBytes nbits w) with
    | .ok i => some i
    | .error _ => none
  else
    match decodeBlock (tableBytes nbits w) with
    | .ok (i, _) => some i
    | .error _ => none

end Sys2Proof
end

