-- ==== Sys2Proof/Machine/State.lean ====
section
/-! DEFINITION. The machine's state, as plain data: every register of 10_state.md, the engine's
latches and internal registers, system memory, the OPEN platform parameters, and (the model's own)
the agents outside the block with what the free values are applied to. State.reset is the machine
right after reset (R41, R362). -/

namespace Sys2Proof.Machine

/-- Why a step stops. The block itself has no fault (R348, U23): the first is an access the address
space has no room for, the others are met only in states that no run reaches. -/
inductive Fault where
  /-- Raised by a bus access whose bytes run past the top of the address space, 2^64 (R60): no such
  address exists. Safe. -/
  | pastTopOfMemory
  /-- Raised by the meaning of a command when no command of its kind is running in the phase it
  finds, in states no run reaches: a command word starts by a CMD write (R292). Safe. -/
  | commandNotRunning
  /-- Raised by the meaning of a stream form when no DECOMPRESS stands at one, in states no run
  reaches: a stream form acts only inside a DECOMPRESS (R165, R220). Safe. -/
  | noStreamOpen
  deriving DecidableEq, Repr

/-- Why a step is refused: the actions of R370, which have no meaning, and a register access that is
not the host's. Each is safe. -/
inductive Refusal where
  /-- Raised by exec for an instruction with no meaning yet. Safe. -/
  | notModelled (mnemonic : String)
  /-- R370 (a): raised by an access that touches the register block and is not one aligned 64-bit
  access. Safe. -/
  | registerAccess
  /-- R370 (b): raised by a host access to a region of the running command. Safe. -/
  | hostTouchesRegion
  /-- R370 (c): raised by another bus master's access to a region of the running command. Safe. -/
  | masterTouchesRegion
  /-- Raised by another bus master's access to a register: registers are reached only by the host's
  accesses (R39), and the spec says of no other what it does (DESIGN CHOICE, log entry 26). Safe. -/
  | masterTouchesRegister
  /-- R370 (d): raised when two instances would run with a region of one over the write region of
  the other. Safe. -/
  | instancesOverlap
  /-- R370 (e): raised by a CMD write with COHERENT = false and cache maintenance incomplete. Safe. -/
  | cacheMaintenance
  deriving DecidableEq, Repr

/-- The error codes of R320. The reserved codes 7 to 15 are never written. -/
inductive ErrCode where
  | none
  | bufferTooSmall
  | unsupportedFormat
  | truncatedInput
  | lengthMismatch
  | badCommand
  | busError
  deriving DecidableEq, Repr

/-- The engine's phase: IDLE, or RUN (R32) in a phase of R200 (scan, encFooter), R269 (vOpen to
vFoot), R237 and R276 (mark to fin). `check` is the CHECK phase of every command. -/
inductive Phase where
  | idle
  | check
  | scan
  | encFooter
  | vOpen
  | vLane
  | vTail
  | vEmit
  | vFoot
  | mark
  | hdr
  | elem
  | dLane
  | dTail
  | fin
  deriving DecidableEq, Repr

/-- The mode of the encoder's open block (R34, R182). -/
inductive Mode where
  | repeatMode
  | deltaE
  | deltaI
  deriving DecidableEq, Repr

/-- A range of addresses `[base, base + len)`. -/
structure Region where
  base : Nat
  len : Nat
  deriving DecidableEq, Repr

/-- The latched command (R33). -/
structure Latches where
  cmd : Word
  src : Word
  srcLen : Word
  dst : Word
  cap : Word
  n : Word
  deriving DecidableEq, Repr

/-- The encoder's registers (R34). -/
structure EncRegs where
  i : Nat
  s : Nat
  mode : Mode
  w : WidthCode
  nb : Nat
  o : Nat
  isOpen : Bool
  deriving DecidableEq, Repr

/-- The decoder's registers (R35) and its open block (R237): K, W, n_b, h, j and q. -/
structure DecRegs where
  p : Nat
  k : Nat
  prev : Word
  hasPrev : Bool
  endOff : Nat
  kind : BlockKind
  w : WidthCode
  nb : Nat
  h : Nat
  j : Nat
  q : Nat
  deriving DecidableEq, Repr

/-- The vector engine's lane file V, predicate P and committed lane count m (R24, R36). -/
structure LaneRegs where
  v : Vector Word Config.lanes
  pred : Vector Bool Config.lanes
  m : Nat
  deriving DecidableEq, Repr

/-- The kind of an engine access (R67). -/
inductive Access where
  | read
  | write
  deriving DecidableEq, Repr

/-- A range of addresses at which system memory answers no access of one kind (R67). -/
structure Hole where
  access : Access
  region : Region
  deriving DecidableEq, Repr

/-- The OPEN platform parameters of R10: MMIO_BASE without its eight low bits, which are zero (R66);
IRQ_ROUTE; MEM_ADMITS, by the ranges it refuses; COHERENT. No step changes them. -/
structure Platform where
  mmioPage : BitVec 56
  irqRoute : Nat
  holes : List Hole
  coherent : Bool
  deriving DecidableEq, Repr

/-- Who makes a bus access: the host, or another bus master (R370 (c)). -/
inductive Master where
  | host
  | other
  deriving DecidableEq, Repr

/-- The regions of a command that runs on another instance (R345). -/
structure OtherRun where
  reads : Region
  writes : Region
  deriving DecidableEq, Repr

/-- What an agent outside the block does, as one atomic action (R381). -/
inductive Action where
  /-- A bus read of `n` bytes: a register read where the address lies in the register block. -/
  | load (who : Master) (addr : Word) (n : Nat)
  /-- A bus write of bytes: a register write where the address lies in the register block. -/
  | store (who : Master) (addr : Word) (bytes : List Byte)
  /-- A bus write by the host of what its last bus read returned, as `size` in R215. -/
  | storeReply (addr : Word)
  /-- The reset event (R360). -/
  | reset
  /-- The host cleans its caches over a range (R80). -/
  | cacheClean (r : Region)
  /-- The host invalidates its caches over a range (R80). -/
  | cacheInvalidate (r : Region)
  /-- A command starts on another instance (R345). -/
  | otherStarts (run : OtherRun)
  /-- It completes. -/
  | otherEnds (run : OtherRun)
  /-- `wait` of R116 and R117: until STATUS.DONE reads 1. -/
  | waitDone
  /-- `wait` of R300 and R382: until STATUS.BUSY reads 0. -/
  | waitIdle
  /-- The host takes the interrupt, the other way of R300: until its input IRQ_ROUTE is high. -/
  | waitIrq
  deriving DecidableEq, Repr

/-- What the host's last bus read returned. -/
inductive Reply where
  | nothing
  | reg (v : Word)
  | bytes (bs : List Byte)
  deriving DecidableEq, Repr

/-- System memory (R39) as the addresses that hold another byte than an unlisted one reads as. -/
abbrev Memory := List Host.Cell

/-- The state. -/
structure State where
  /-- CTRL.IE (R26). -/
  ie : Bool
  /-- STATUS.DONE (R27). -/
  done : Bool
  /-- STATUS.DROP (R27). -/
  drop : Bool
  /-- STATUS.ERR (R27, R320). -/
  err : ErrCode
  /-- SRC (R29). -/
  src : Word
  /-- SRC_LEN (R29). -/
  srcLen : Word
  /-- DST (R29). -/
  dst : Word
  /-- DST_CAP (R29). -/
  dstCap : Word
  /-- COUNT (R29). -/
  count : Word
  /-- RESULT (R30). -/
  result : Word
  /-- The engine's phase; STATUS.BUSY is `phase ≠ idle` (R32). -/
  phase : Phase
  /-- The latched command (R33). -/
  latch : Latches
  /-- The encoder's registers (R34). -/
  enc : EncRegs
  /-- The decoder's registers (R35, R237). -/
  dec : DecRegs
  /-- The lane registers (R36). -/
  lanes : LaneRegs
  /-- System memory (R39). -/
  mem : Memory
  /-- The platform parameters (R10). -/
  platform : Platform
  /-- The model's own: how many engine steps one step performs for the running command (R32). -/
  grain : Grain
  /-- The model's own: the pending actions of the agents outside the block, first to come first. -/
  inbox : List Action
  /-- The model's own: what the host's last bus read returned. -/
  reply : Reply
  /-- The model's own: ranges the host stored and has not cleaned, with COHERENT = false (R80). -/
  dirty : List Region
  /-- The model's own: ranges the engine wrote and the host has not invalidated (R80). -/
  stale : List Region
  /-- The model's own: the commands that run on other instances (R345). -/
  others : List OtherRun
  /-- The model's own: the number of steps taken, which the free values are applied to. -/
  tick : Nat
  deriving DecidableEq, Repr

/-- The latches after power-on: unspecified (R41), zero here (log entry 2). -/
def Latches.reset : Latches := ⟨0#64, 0#64, 0#64, 0#64, 0#64, 0#64⟩

/-- The encoder's registers after power-on: unspecified (R41), zero here (log entry 2). -/
def EncRegs.reset : EncRegs := ⟨0, 0, .deltaI, 0, 0, 0, false⟩

/-- The decoder's registers after power-on: unspecified (R41), zero here (log entry 2). -/
def DecRegs.reset : DecRegs := ⟨0, 0, 0#64, false, 0, .deltaI, 0, 0, 0, 0, 0⟩

/-- The lane registers after power-on: unspecified (R41), zero here (log entry 2). -/
def LaneRegs.reset : LaneRegs :=
  ⟨Vector.replicate Config.lanes 0#64, Vector.replicate Config.lanes false, 0⟩

/-- The platform of State.reset (log entry 4): each parameter is OPEN (R10). -/
def Platform.reset : Platform := ⟨0#56, 0, [], true⟩

/-- The machine right after reset: the registers of R41, the phase IDLE, memory with nothing listed;
what the spec leaves unspecified as log entries 1, 2 and 4 to 9 say. -/
def State.reset : State where
  ie := false
  done := false
  drop := false
  err := .none
  src := 0#64
  srcLen := 0#64
  dst := 0#64
  dstCap := 0#64
  count := 0#64
  result := 0#64
  phase := .idle
  latch := .reset
  enc := .reset
  dec := .reset
  lanes := .reset
  mem := []
  platform := .reset
  grain := .command
  inbox := []
  reply := .nothing
  dirty := []
  stale := []
  others := []
  tick := 0

end Sys2Proof.Machine
end

