-- ==== Sys2Proof/Machine/Operands.lean ====
section
/-! DEFINITION. The wire-format primitives of 40_primitives.md that both engines share, and which
operation a command is (R110). The packing of a field (R138, R139) is `leBytes` and `rdWord` of
Decode.lean. -/

namespace Sys2Proof.Machine

/-- `delta(a, b)` of R130: modulo 2^64, on the raw patterns. -/
def delta (a b : Word) : Word := a - b

/-- The zig-zag fold of R131. -/
def zz (d : Word) : Word := (d <<< 1) ^^^ (if d.getLsbD 63 then BitVec.allOnes 64 else 0#64)

/-- The inverse of the zig-zag fold, R132. -/
def unzz (z : Word) : Word := (z >>> 1) ^^^ (0#64 - (z &&& 1#64))

/-- The width-class code of R134. -/
def wc (z : Word) : WidthCode :=
  if z.toNat < 2 ^ 8 then 0
  else if z.toNat < 2 ^ 16 then 1
  else if z.toNat < 2 ^ 32 then 2
  else 3

/-- The zig-zag value of the delta from `b` to `a`, the field a delta block packs (R156, R161). -/
def foldDelta (a b : Word) : Word := zz (delta a b)

/-- Reconstruction of an element from the running reference and a field (R137). -/
def reconstruct (r z : Word) : Word := r + unzz z

/-- The cumulative sum of R155 and R160: the elements a run of fields stands for. -/
def reconstructAll : Word → List Word → List Word
  | _, [] => []
  | r, z :: zs => reconstruct r z :: reconstructAll (reconstruct r z) zs

/-- OP of a command word (R110). -/
inductive CmdOp where
  | maxsize
  | compress
  | decompress
  deriving DecidableEq, Repr

/-- The operation a command is (R111). -/
def opOf : Instr → Option CmdOp
  | .maxsize _ _ => some .maxsize
  | .compressS _ => some .compress
  | .compressV _ => some .compress
  | .decompressS _ => some .decompress
  | .decompressV _ => some .decompress
  | .repeatBlock _ _ => none
  | .deltaE _ _ _ _ => none
  | .deltaI _ _ _ => none
  | .footer => none

/-- The operation of a latched command word; a reserved word has none (R114). -/
def latchedOp (l : Latches) : Option CmdOp :=
  match decodeCommand l.cmd with
  | .ok i => opOf i
  | .error _ => none

/-- `maxCompressedSize(n) = 9*n + 7`, on unbounded integers (R210). -/
def maxCompressedSize (n : Nat) : Nat := 9 * n + 7

end Sys2Proof.Machine
end

