-- ==== Sys2Proof/Machine/Flags.lean ====
section
/-! DEFINITION. The block's flags: STATUS (R27, R38), its error code (R320), the write of STATUS
(R291) and the interrupt line (R330, R331). -/

namespace Sys2Proof.Machine

/-- STATUS.BUSY: 1 exactly when the phase is RUN (R32). -/
def State.busy (s : State) : Bool := decide (s.phase ≠ .idle)

/-- The number of an error code (R320). -/
def errNumber : ErrCode → Nat
  | .none => 0
  | .bufferTooSmall => 1
  | .unsupportedFormat => 2
  | .truncatedInput => 3
  | .lengthMismatch => 4
  | .badCommand => 5
  | .busError => 6

/-- What STATUS reads: BUSY + 2·DONE + 4·DROP + 16·ERR (R290); the reserved bits read 0 (R27). -/
def statusWord (s : State) : Word :=
  BitVec.ofNat 64 (s.busy.toNat + 2 * s.done.toNat + 4 * s.drop.toNat + 16 * errNumber s.err)

/-- What CTRL reads: IE, the other bits 0 (R26). -/
def ctrlWord (s : State) : Word := BitVec.ofNat 64 s.ie.toNat

/-- A write of CTRL: bit 0 is IE, the rest is ignored (R26). -/
def writeCtrl (v : Word) (s : State) : State := { s with ie := v.getLsbD 0 }

/-- A write of STATUS: bit 1 clears DONE, bit 2 clears DROP, the rest is ignored (R291). -/
def writeStatus (v : Word) (s : State) : State :=
  { s with done := s.done && !v.getLsbD 1, drop := s.drop && !v.getLsbD 2 }

/-- The interrupt line: IRQ = CTRL.IE and STATUS.DONE (R330). -/
def State.irq (s : State) : Bool := s.ie && s.done

/-- The level of the platform's interrupt input `line`, as far as this block drives it (R331). -/
def State.irqInput (s : State) (line : Nat) : Bool :=
  decide (line = s.platform.irqRoute) && s.irq

end Sys2Proof.Machine
end

