-- ==== Sys2Proof/Machine/Ops.lean ====
section
/-! DEFINITION. The named operations over memory, regions and registers, and the actions every
command shares: its start (R293), the checks before any access (R297), the draw of BusError (R326),
its completion with a result or an error (R335), and the reset event (R360). Completion with an
error is the block's one way of taking an exception: "An error is not a trap" (R333), so it saves
nothing and nothing returns from it. -/

namespace Sys2Proof.Machine

/-! ## Memory (R39, R60, R61) -/

/-- What a byte that nothing has written reads as (log entry 1). -/
def unlistedByte : Byte := 0#8

/-- The canonical form of a memory from the address `lo` on: addresses strictly rising and below
2^64, and no cell that holds what an unlisted address reads as. -/
def Memory.wfFrom : Nat → Memory → Bool
  | _, [] => true
  | lo, (a, b) :: m =>
    decide (lo ≤ a) && decide (a < Config.addressSpace) && decide (b ≠ unlistedByte)
      && Memory.wfFrom (a + 1) m

/-- The canonical form of a memory. -/
def Memory.wf (m : Memory) : Bool := Memory.wfFrom 0 m

/-- The byte at an address. -/
def readByte : Memory → Nat → Byte
  | [], _ => unlistedByte
  | (k, b) :: m, a => if k = a then b else readByte m a

/-- A byte written at an address, in canonical form. -/
def insertByte : Memory → Nat → Byte → Memory
  | [], a, b => if b = unlistedByte then [] else [(a, b)]
  | (k, c) :: m, a, b =>
    if a < k then (if b = unlistedByte then (k, c) :: m else (a, b) :: (k, c) :: m)
    else if a = k then (if b = unlistedByte then m else (a, b) :: m)
    else (k, c) :: insertByte m a b

/-- A write of one byte; an address the space does not have takes none (R60). -/
def writeByte (m : Memory) (a : Nat) (b : Byte) : Memory :=
  if a < Config.addressSpace then insertByte m a b else m

/-- `MemRead(addr, n)` of R13. -/
def readBytes (m : Memory) (a : Nat) : Nat → List Byte
  | 0 => []
  | n + 1 => readByte m a :: readBytes m (a + 1) n

/-- The bytes of a range replaced: a bus write, and what a MemWrite of R13 leaves where every byte is
admitted. -/
def writeBytes (m : Memory) (a : Nat) : List Byte → Memory
  | [] => m
  | b :: bs => writeBytes (writeByte m a b) (a + 1) bs

/-- The element at an address, eight little-endian bytes (R63). -/
def readElem (m : Memory) (a : Nat) : Word := rdWord (readBytes m a 8)

/-- An array of elements (R63). -/
def readElems (m : Memory) (a : Nat) : Nat → List Word
  | 0 => []
  | n + 1 => readElem m a :: readElems m (a + 8) n

/-- The bytes of elements in memory order (R63, R232). -/
def elemBytes (xs : List Word) : List Byte := xs.flatMap fun x => leBytes 8 x.toNat

/-! ## Regions (R60, R71, R360) -/

/-- Whether an address lies in a region. -/
def Region.contains (r : Region) (a : Nat) : Bool :=
  decide (r.base ≤ a) && decide (a < r.base + r.len)

/-- Whether two regions share a byte; an empty region overlaps nothing (R297). -/
def Region.overlaps (r t : Region) : Bool :=
  decide (0 < r.len) && decide (0 < t.len)
    && decide (r.base < t.base + t.len) && decide (t.base < r.base + r.len)

/-- The region that touches nothing (MAXSIZE in R71). -/
def Region.empty : Region := ⟨0, 0⟩

/-- A region cut at the top of the address space (R360). -/
def Region.cut (base len : Nat) : Region := ⟨base, min len (Config.addressSpace - base)⟩

/-- The read region of a latched command (R71). -/
def readRegion (l : Latches) : Region :=
  match latchedOp l with
  | some .compress => .cut l.src.toNat (8 * l.n.toNat)
  | some .decompress => .cut l.src.toNat l.srcLen.toNat
  | some .maxsize => .empty
  | none => .empty

/-- The error region of a latched command (R199, R235, R360). -/
def errorRegion (l : Latches) : Region :=
  match latchedOp l with
  | some .compress => .cut l.dst.toNat (maxCompressedSize l.n.toNat)
  | some .decompress => .cut l.dst.toNat (8 * l.n.toNat)
  | some .maxsize => .empty
  | none => .empty

/-! ## The platform (R66, R67) -/

/-- MMIO_BASE, a multiple of 0x100 (R66). -/
def mmioBase (p : Platform) : Nat := p.mmioPage.toNat * Config.registerBlockBytes

/-- The register block (R20). -/
def registerBlock (p : Platform) : Region := ⟨mmioBase p, Config.registerBlockBytes⟩

/-- MEM_ADMITS(addr, rw) of R67. -/
def memAdmits (p : Platform) (acc : Access) (a : Nat) : Bool :=
  !p.holes.any fun h => decide (h.access = acc) && h.region.contains a

/-- Whether every byte of a region is admitted (R326). -/
def admitsRegion (p : Platform) (acc : Access) (r : Region) : Bool :=
  !p.holes.any fun h => decide (h.access = acc) && h.region.overlaps r

/-- `MemWrite` of R13 as the engine's memory port performs it: an access to a byte that MEM_ADMITS
refuses performs nothing (R67). -/
def portWrite (p : Platform) (m : Memory) (a : Nat) : List Byte → Memory
  | [] => m
  | b :: bs => portWrite p (if memAdmits p .write a then writeByte m a b else m) (a + 1) bs

/-! ## Free bytes (R199, R235, R326, R360) -/

/-- Every byte of `[a, a + len)` that `free` holds of takes a free value. -/
def scrambleFrom (free : Nat → Bool) (t : Nat) (m : Memory) (a : Nat) : Nat → Memory
  | 0 => m
  | len + 1 =>
    scrambleFrom free t (if free a then writeByte m a (Config.freeByte t a) else m) (a + 1) len

/-- A region after an error: every byte of it may hold any value (R199, R235; log entry 12). -/
def scramble (t : Nat) (m : Memory) (r : Region) : Memory :=
  scrambleFrom (fun _ => true) t m r.base r.len

/-- A region after a reset: every admitted byte of it may hold any value, and the others keep theirs
(R360). -/
def scrambleAdmitted (p : Platform) (t : Nat) (m : Memory) (r : Region) : Memory :=
  scrambleFrom (memAdmits p .write) t m r.base r.len

/-- The engine has written a region: with COHERENT = false the host's caches may hold older bytes
of it until the host invalidates them (R80). -/
def State.wrote (r : Region) (s : State) : State :=
  { s with stale := if s.platform.coherent then s.stale else r :: s.stale }

/-! ## Start, completion, reset -/

/-- `start(v)` of R293: the latches, the flags and the engine's start values (R34, R35). What R34
and R35 leave unspecified keeps its value. The number of steps is open (R32). -/
def State.start (v : Word) (s : State) : State :=
  { s with
    latch := ⟨v, s.src, s.srcLen, s.dst, s.dstCap, s.count⟩
    done := false
    err := .none
    result := 0#64
    phase := .check
    grain := Config.grain s.tick
    enc := { s.enc with i := 0, o := 0, isOpen := false }
    dec := { s.dec with p := 0, k := 0, hasPrev := false } }

/-- `complete(v)` of R335. -/
def State.complete (v : Word) (s : State) : State :=
  { s with phase := .idle, done := true, err := .none, result := v }

/-- `raise e` of R335: the completion with an error code. -/
def State.raise (e : ErrCode) (s : State) : State :=
  { s with phase := .idle, done := true, err := e, result := 0#64 }

/-- `raise e` after which the command's error region may hold any value (R199, R235, R326). -/
def State.raiseDirty (e : ErrCode) (s : State) : State :=
  (State.wrote (errorRegion s.latch)
    { s with mem := scramble s.tick s.mem (errorRegion s.latch) }).raise e

/-- The reset event (R360): the registers take the values of R41; a running command is abandoned
and its error region may hold any value; the engine's other registers keep their values, which
nothing reads (R362). -/
def State.resetEvent (s : State) : State :=
  let t : State :=
    if s.busy then
      State.wrote (errorRegion s.latch)
        { s with mem := scrambleAdmitted s.platform s.tick s.mem (errorRegion s.latch) }
    else s
  { t with
    ie := false, done := false, drop := false, err := .none
    src := 0#64, srcLen := 0#64, dst := 0#64, dstCap := 0#64, count := 0#64, result := 0#64
    phase := .idle }

/-! ## The checks of a command (R297) -/

/-- Checks 2 to 5 of R297 for one operation, on the latches and on unbounded integers; check 1 is
the decoding of the command word. -/
def argsOk (op : CmdOp) (l : Latches) : Bool :=
  match op with
  | .maxsize => decide (l.n.toNat ≤ Config.maxsizeLimit)
  | .compress =>
    decide (l.src.toNat % 8 = 0)
      && decide (l.src.toNat + 8 * l.n.toNat ≤ Config.addressSpace)
      && decide (l.dst.toNat + l.cap.toNat ≤ Config.addressSpace)
      && !(Region.overlaps ⟨l.src.toNat, 8 * l.n.toNat⟩ ⟨l.dst.toNat, l.cap.toNat⟩)
  | .decompress =>
    decide (l.dst.toNat % 8 = 0)
      && decide (l.dst.toNat + 8 * l.n.toNat ≤ Config.addressSpace)
      && decide (l.src.toNat + l.srcLen.toNat ≤ Config.addressSpace)
      && !(Region.overlaps ⟨l.src.toNat, l.srcLen.toNat⟩ ⟨l.dst.toNat, 8 * l.n.toNat⟩)

/-- `checkCommand` of R297 whole: the command word and its arguments. -/
def checkCommand (l : Latches) : Bool :=
  match latchedOp l with
  | some op => argsOk op l
  | none => false

/-- Whether every byte a command may access is admitted: its read region, and the region `w` it
writes on success (R326). -/
def accessesAdmitted (s : State) (reads w : Region) : Bool :=
  admitsRegion s.platform .read reads && admitsRegion s.platform .write w

/-- R326: a command one of whose bytes is refused ends with BusError or as if every byte were
admitted; which, is a free choice. -/
def drawsBusError (s : State) (reads w : Region) : Bool :=
  !accessesAdmitted s reads w && Config.busErrorChosen s.tick

/-- Whether the rest of a command is one step: where its grain says so, and where R326's other
outcome, that of a command whose every byte is admitted, is taken although a byte is refused, so that
no engine step ever meets a refused byte (log entry 10). -/
def runsAtOnce (s : State) (reads w : Region) : Bool :=
  decide (s.grain = .command) || !accessesAdmitted s reads w

/-! ## Outcomes -/

/-- What follows a step's own effect: the free values of the next step are others. -/
def advance : Host.Outcome State Fault Refusal → Host.Outcome State Fault Refusal
  | .next s => .next { s with tick := s.tick + 1 }
  | .fault r => .fault r
  | .refused r => .refused r

end Sys2Proof.Machine
end

