-- ==== Sys2Proof/Machine/Blocks.lean ====
section
/-! DEFINITION. The stream forms as instructions (41_blocks.md): the elements a block stands for on
each engine (R150, R155, R160, R271 to R273), the checks before its first element (R226 to R231),
the writing of its elements (R232), and the meanings of REPEAT, DELTA.E, DELTA.I and FOOTER. -/

namespace Sys2Proof.Machine

/-! ## The elements of a block -/

/-- A block's element count n (R94); the other instructions have none. -/
def blockCount : Instr → Nat
  | .maxsize _ _ => 0
  | .compressS _ => 0
  | .compressV _ => 0
  | .decompressS _ => 0
  | .decompressV _ => 0
  | .repeatBlock c _ => c.n
  | .deltaE c _ _ _ => c.n
  | .deltaI c _ _ => c.n
  | .footer => 0

/-- Whether an instruction is a DELTA.I, the one form that needs a running reference (R105). -/
def needsReference : Instr → Bool
  | .maxsize _ _ => false
  | .compressS _ => false
  | .compressV _ => false
  | .decompressS _ => false
  | .decompressV _ => false
  | .repeatBlock _ _ => false
  | .deltaE _ _ _ _ => false
  | .deltaI _ _ _ => true
  | .footer => false

/-- The elements of a block, given the running reference (R150, R155, R160). -/
def blockElems (prev : Word) : Instr → List Word
  | .maxsize _ _ => []
  | .compressS _ => []
  | .compressV _ => []
  | .decompressS _ => []
  | .decompressV _ => []
  | .repeatBlock c v => List.replicate c.n v
  | .deltaE _ _ r zs => r :: reconstructAll r zs
  | .deltaI _ _ zs => reconstructAll prev zs
  | .footer => []

/-- The inclusive prefix sums of a lane group from a running reference, modulo 2^64 (R271). -/
def prefixSums (r : Word) (ds : List Word) : List Word :=
  (List.range ds.length).map fun k => r + (ds.take (k + 1)).foldl (· + ·) 0#64

/-- Writing a list into the lane file. -/
def laneFile (es : List Word) : Vector Word Config.lanes := Vector.ofFn fun k => es.getD k.val 0#64

/-- What a run of vector steps leaves: the elements and the lane registers. -/
structure LaneRun where
  elems : List Word
  regs : LaneRegs
  deriving DecidableEq, Repr

/-- The fields of a delta block on the vector engine: groups of LANES by a lane step (R271), the
rest one by one (R273). The first argument bounds the number of groups. -/
def vecReconstruct (lanes : Nat) : Nat → Word → List Word → LaneRegs → LaneRun
  | 0, r, zs, g => ⟨reconstructAll r zs, g⟩
  | fuel + 1, r, zs, g =>
    if lanes ≤ zs.length then
      let es := prefixSums r ((zs.take lanes).map unzz)
      let rest := vecReconstruct lanes fuel (es.getLastD r) (zs.drop lanes)
        { g with v := laneFile es, m := lanes }
      ⟨es ++ rest.elems, rest.regs⟩
    else ⟨reconstructAll r zs, g⟩

/-- The size of the last group of a REPEAT written `lanes` at a time (R272). -/
def lastGroup (lanes n : Nat) : Nat := if n % lanes = 0 then min lanes n else n % lanes

/-- The elements of a block on the vector engine (R271 to R273). -/
def vecBlockElems (lanes : Nat) (prev : Word) (g : LaneRegs) : Instr → LaneRun
  | .maxsize _ _ => ⟨[], g⟩
  | .compressS _ => ⟨[], g⟩
  | .compressV _ => ⟨[], g⟩
  | .decompressS _ => ⟨[], g⟩
  | .decompressV _ => ⟨[], g⟩
  | .repeatBlock c v =>
    ⟨List.replicate c.n v, { g with v := Vector.replicate Config.lanes v, m := lastGroup lanes c.n }⟩
  | .deltaE _ _ r zs =>
    let run := vecReconstruct lanes zs.length r zs g
    ⟨r :: run.elems, run.regs⟩
  | .deltaI _ _ zs => vecReconstruct lanes zs.length prev zs g
  | .footer => ⟨[], g⟩

/-! ## The state's part -/

/-- The error code of bytes that are no instruction, given whether an element has been produced:
the missing reference of a DELTA.I is reported first (R229). -/
def rejectCode (hasPrev : Bool) : Reject → ErrCode
  | .noSelector => .lengthMismatch
  | .reservedSelector => .unsupportedFormat
  | .truncatedCount .deltaI => if hasPrev then .truncatedInput else .unsupportedFormat
  | .truncatedCount .deltaE => .truncatedInput
  | .truncatedCount .repeatRun => .truncatedInput
  | .zeroCount _ => .unsupportedFormat
  | .truncatedPayload .deltaI => if hasPrev then .truncatedInput else .unsupportedFormat
  | .truncatedPayload .deltaE => .truncatedInput
  | .truncatedPayload .repeatRun => .truncatedInput
  | .truncatedFooter => .truncatedInput
  | .unknownMarker _ => .unsupportedFormat
  | .reservedCommand => .badCommand

/-- Which engine runs the latched command (R112). -/
def runningEngine (s : State) : EngineSel := decodeEngine s.latch.cmd

/-- `out(e)` for each element (R232): the elements land from `dst + 8*k` on through the memory port
(R13), k advances, and the last one is the running reference (R168). -/
def outElems (es : List Word) (s : State) : State :=
  { s with
    mem := portWrite s.platform s.mem (s.latch.dst.toNat + 8 * s.dec.k) (elemBytes es)
    dec := { s.dec with
      k := s.dec.k + es.length
      prev := es.getLastD s.dec.prev
      hasPrev := s.dec.hasPrev || !es.isEmpty } }

/-- K, W and the header length of a block (R237). -/
def blockShape : Instr → BlockKind × WidthCode × Nat
  | .maxsize _ _ => (.deltaI, 0, 0)
  | .compressS _ => (.deltaI, 0, 0)
  | .compressV _ => (.deltaI, 0, 0)
  | .decompressS _ => (.deltaI, 0, 0)
  | .decompressV _ => (.deltaI, 0, 0)
  | .repeatBlock c _ => (.repeatRun, 0, hdrLen c)
  | .deltaE c w _ _ => (.deltaE, w, hdrLen c)
  | .deltaI c w _ => (.deltaI, w, hdrLen c)
  | .footer => (.deltaI, 0, 0)

/-- The decoder's registers after the block `i` at p: p stands after it (R233), the open block's
registers as R237 leaves them. -/
def passBlock (i : Instr) (d : DecRegs) : DecRegs :=
  { d with
    p := d.p + i.byteLen
    kind := (blockShape i).1
    w := (blockShape i).2.1
    h := (blockShape i).2.2
    nb := blockCount i
    j := blockCount i
    q := d.p + i.byteLen }

/-- The effect of a block whose checks have passed: its elements written, the running reference set,
p advanced (R150, R155, R160, R232, R233); on the vector engine through lane steps (R270). -/
def runBlock (i : Instr) (s : State) : State :=
  match runningEngine s with
  | .scalar =>
    let t := outElems (blockElems s.dec.prev i) s
    { t with dec := passBlock i t.dec }
  | .vector =>
    let run := vecBlockElems Config.lanes s.dec.prev s.lanes i
    let t := outElems run.elems s
    { t with dec := passBlock i t.dec, lanes := run.regs }

/-- The checks of R229 that need the decoder's state, in that order, on a block whose bytes decoded:
the missing reference, a count of 0, the payload's end, the count's excess. -/
def blockError (i : Instr) (s : State) : Option ErrCode :=
  if needsReference i && !s.dec.hasPrev then some .unsupportedFormat
  else if blockCount i = 0 then some .unsupportedFormat
  else if s.dec.endOff < s.dec.p + i.byteLen then some .truncatedInput
  else if s.latch.n.toNat - s.dec.k < blockCount i then some .lengthMismatch
  else none

/-- A block of the stream at the head of the block region: its checks, then its effect. -/
def execBlock (i : Instr) (s : State) : Host.Outcome State Fault Refusal :=
  if s.phase ≠ .hdr then .fault .noStreamOpen
  else
    match blockError i s with
    | some e => .next (s.raiseDirty e)
    | none => .next (runBlock i s)

/-- The result of a buffer too short for a footer (R222), for a length of 0 to 6. -/
def shortBuffer (s : State) : State :=
  if s.latch.srcLen = 0#64 ∧ s.latch.n = 0#64 then
    (s.wrote (errorRegion s.latch)).complete 0#64
  else if s.latch.srcLen = 0#64 then s.raiseDirty .lengthMismatch
  else s.raiseDirty .truncatedInput

/-- The offset of the first footer byte, `end` of R35. -/
def footerOffset (l : Latches) : Nat := l.srcLen.toNat - Config.footerBytes

/-! ## The meanings -/

/-- REPEAT (R150). -/
def execRepeatBlock (cnt : BlockCount) (v : Word) (s : State) :
    Host.Outcome State Fault Refusal :=
  execBlock (.repeatBlock cnt v) s

/-- DELTA.E (R155). -/
def execDeltaE (cnt : BlockCount) (w : WidthCode) (ref : Word) (zs : List Word) (s : State) :
    Host.Outcome State Fault Refusal :=
  execBlock (.deltaE cnt w ref zs) s

/-- DELTA.I (R160). -/
def execDeltaI (cnt : BlockCount) (w : WidthCode) (zs : List Word) (s : State) :
    Host.Outcome State Fault Refusal :=
  execBlock (.deltaI cnt w zs) s

/-- FOOTER (R165, R222, R223): the marker is read from its place before any block; then the block
region ends at L - 7 and the first block is next. -/
def execFooter (s : State) : Host.Outcome State Fault Refusal :=
  if s.phase ≠ .mark then .fault .noStreamOpen
  else if s.latch.srcLen.toNat < Config.footerBytes then .next (shortBuffer s)
  else if !Config.recognizedMarkers.contains
      (readByte s.mem (s.latch.src.toNat + footerOffset s.latch)) then
    .next (s.raiseDirty .unsupportedFormat)
  else .next { s with phase := .hdr, dec := { s.dec with endOff := footerOffset s.latch } }

end Sys2Proof.Machine
end

