-- ==== Sys2Proof/Machine/Decoder.lean ====
section
/-! DEFINITION. The decoder (44_decoder.md, 45_vector.md): the decoding function decodeBuf (R220),
the engine steps of R237 and R276, DECOMPRESS.S (R221) and DECOMPRESS.V (R270). -/

namespace Sys2Proof.Machine

/-! ## The decoding function -/

/-- The loop of R220 on the bytes left in the block region: `want` elements are still to be
produced, `prev` is the running reference once there is one, `elems` gives a block's elements. The
first argument bounds the number of blocks. -/
def decodeLoop (elems : Word → Instr → List Word) :
    Nat → List Byte → Nat → Option Word → Except ErrCode (List Word)
  | 0, _, _, _ => .error .lengthMismatch
  | fuel + 1, bs, want, prev =>
    if want = 0 then (if bs.isEmpty then .ok [] else .error .lengthMismatch)
    else if bs.isEmpty then .error .lengthMismatch
    else
      match decodeBlock bs with
      | .error r => .error (rejectCode prev.isSome r)
      | .ok (i, rest) =>
        if needsReference i && !prev.isSome then .error .unsupportedFormat
        else if want < blockCount i then .error .lengthMismatch
        else
          let es := elems (prev.getD 0#64) i
          match decodeLoop elems fuel rest (want - blockCount i) es.getLast? with
          | .error e => .error e
          | .ok out => .ok (es ++ out)

/-- decodeBuf of R220, for an engine whose blocks have the elements `elems`. -/
def decodeBufWith (elems : Word → Instr → List Word) (bs : List Byte) (cnt : Nat) :
    Except ErrCode (List Word) :=
  if bs.length = 0 then (if cnt = 0 then .ok [] else .error .lengthMismatch)
  else if bs.length < Config.footerBytes then .error .truncatedInput
  else if !Config.recognizedMarkers.contains (bs.getD (bs.length - Config.footerBytes) 0#8) then
    .error .unsupportedFormat
  else
    decodeLoop elems (bs.length + 1) (bs.take (bs.length - Config.footerBytes)) cnt none

/-- decodeBuf of R220. -/
def decodeBuf (bs : List Byte) (cnt : Nat) : Except ErrCode (List Word) :=
  decodeBufWith blockElems bs cnt

/-- The vector engine's decoding function (R270), with LANES as an argument. -/
def decodeBufVec (lanes : Nat) (bs : List Byte) (cnt : Nat) : Except ErrCode (List Word) :=
  decodeBufWith (fun prev i => (vecBlockElems lanes prev LaneRegs.reset i).elems) bs cnt

/-! ## The command -/

/-- The compressed buffer of a running DECOMPRESS (R221). -/
def inputBytes (s : State) : List Byte :=
  readBytes s.mem s.latch.src.toNat s.latch.srcLen.toNat

/-- The end of a DECOMPRESS whose elements are written: RESULT is n (R234, R335). -/
def completeDecompress (s : State) : State :=
  (s.wrote (errorRegion s.latch)).complete s.latch.n

/-- The CHECK phase of DECOMPRESS (R221, R237): checkCommand and the draw of BusError (R326); then
the whole command at once, or the phase MARK. -/
def decompressCheck (result : Except ErrCode (List Word)) (s : State) : State :=
  if !argsOk .decompress s.latch then s.raise .badCommand
  else if drawsBusError s (readRegion s.latch) (errorRegion s.latch) then s.raiseDirty .busError
  else if runsAtOnce s (readRegion s.latch) (errorRegion s.latch) then
    match result with
    | .ok xs =>
      completeDecompress { s with mem := writeBytes s.mem s.latch.dst.toNat (elemBytes xs) }
    | .error e => s.raiseDirty e
  else { s with phase := .mark }

/-- The byte of the stream at an offset. -/
def streamByte (s : State) (q : Nat) : Byte := readByte s.mem (s.latch.src.toNat + q)

/-- The bytes of the stream at an offset. -/
def streamAt (s : State) (q n : Nat) : List Byte := readBytes s.mem (s.latch.src.toNat + q) n

/-- The header of an open block (R237): K, W, n_b and h. -/
structure BlockHeader where
  kind : BlockKind
  w : WidthCode
  nb : Nat
  h : Nat
  deriving DecidableEq, Repr

/-- The checks of R229 on the header at p, written by offsets as R220 writes them. -/
def headerAt (s : State) : Except ErrCode BlockHeader :=
  match decodeSelector (streamByte s s.dec.p) with
  | none => .error .unsupportedFormat
  | some (k, w, c) =>
    if k = .deltaI ∧ s.dec.hasPrev = false then .error .unsupportedFormat
    else if c = 15 ∧ s.dec.endOff < s.dec.p + 5 then .error .truncatedInput
    else
      let n := if c = 15 then rdLE (streamAt s (s.dec.p + 1) 4) else c + 1
      let h := if c = 15 then 5 else 1
      if n = 0 then .error .unsupportedFormat
      else if s.dec.endOff < s.dec.p + h + payLen k w n then .error .truncatedInput
      else if s.latch.n.toNat - s.dec.k < n then .error .lengthMismatch
      else .ok ⟨k, w, n, h⟩

/-- The phase in which the open block goes on: ELEM on the scalar engine (R237); LANE or TAIL on
the vector engine (R276). DESIGN CHOICE (log entry 27): the one scalar step that writes an explicit
reference (R271) is taken in TAIL, which R273 gives only to fields; R276 names no phase for it. -/
def bodyPhase (eng : EngineSel) (d : DecRegs) : Phase :=
  match eng with
  | .scalar => .elem
  | .vector =>
    match d.kind with
    | .repeatRun => .dLane
    | .deltaE =>
      if d.j = 0 then .dTail else if Config.lanes ≤ d.nb - d.j then .dLane else .dTail
    | .deltaI => if Config.lanes ≤ d.nb - d.j then .dLane else .dTail

/-- HDR (R237): the end of the stream, or the next block opened. -/
def headerStep (s : State) : State :=
  if s.dec.k = s.latch.n.toNat then { s with phase := .fin }
  else if s.dec.p = s.dec.endOff then s.raiseDirty .lengthMismatch
  else
    match headerAt s with
    | .error e => s.raiseDirty e
    | .ok b =>
      let d := { s.dec with
        kind := b.kind, w := b.w, nb := b.nb, h := b.h, j := 0, q := s.dec.p + b.h }
      { s with dec := d, phase := bodyPhase (runningEngine s) d }

/-- After elements of the open block: the next phase, and p past the block once it is done (R237). -/
def settleBlock (s : State) : State :=
  if s.dec.nb ≤ s.dec.j then
    { s with
      dec := { s.dec with p := s.dec.p + s.dec.h + payLen s.dec.kind s.dec.w s.dec.nb }
      phase := .hdr }
  else { s with phase := bodyPhase (runningEngine s) s.dec }

/-- ELEM, and TAIL of the vector engine (R237, R273): element j of the open block, from its field
at q. -/
def elemStep (s : State) : State :=
  let d := s.dec
  match d.kind with
  | .repeatRun =>
    let t := outElems [rdWord (streamAt s d.q 8)] s
    settleBlock { t with dec := { t.dec with j := d.j + 1 } }
  | .deltaE =>
    if d.j = 0 then
      let t := outElems [rdWord (streamAt s d.q 8)] s
      settleBlock { t with dec := { t.dec with j := 1, q := d.q + 8 } }
    else
      let t := outElems [reconstruct d.prev (rdWord (streamAt s d.q (bytesOf d.w)))] s
      settleBlock { t with dec := { t.dec with j := d.j + 1, q := d.q + bytesOf d.w } }
  | .deltaI =>
    let t := outElems [reconstruct d.prev (rdWord (streamAt s d.q (bytesOf d.w)))] s
    settleBlock { t with dec := { t.dec with j := d.j + 1, q := d.q + bytesOf d.w } }

/-- LANE of a delta block (R271): LANES fields at q, inverse zig-zag and prefix sum. -/
def deltaLaneStep (s : State) : State :=
  let d := s.dec
  let zs := decodeFields d.w Config.lanes (streamAt s d.q (Config.lanes * bytesOf d.w))
  let es := prefixSums d.prev (zs.map unzz)
  let t := outElems es s
  settleBlock { t with
    dec := { t.dec with j := d.j + Config.lanes, q := d.q + Config.lanes * bytesOf d.w }
    lanes := { t.lanes with v := laneFile es, m := Config.lanes } }

/-- LANE of a REPEAT (R272): up to LANES copies of V. -/
def repeatLaneStep (s : State) : State :=
  let d := s.dec
  let v := rdWord (streamAt s d.q 8)
  let m := min Config.lanes (d.nb - d.j)
  let t := outElems (List.replicate m v) s
  settleBlock { t with
    dec := { t.dec with j := d.j + m }
    lanes := { t.lanes with v := Vector.replicate Config.lanes v, m := m } }

/-- LANE of the vector decoder (R271, R272, R276). -/
def laneStep (s : State) : State :=
  match s.dec.kind with
  | .repeatRun => repeatLaneStep s
  | .deltaE => deltaLaneStep s
  | .deltaI => deltaLaneStep s

/-- FIN (R237): the block region must be used up. -/
def finishStep (s : State) : State :=
  if s.dec.p = s.dec.endOff then completeDecompress s else s.raiseDirty .lengthMismatch

/-- DECOMPRESS.S (R221) from its CHECK phase; in the phases of R237, one engine step. KIND has no
effect (R113). -/
def execDecompressS (_kind : ElemKind) (s : State) : Host.Outcome State Fault Refusal :=
  if s.phase = .check then
    .next (decompressCheck (decodeBuf (inputBytes s) s.latch.n.toNat) s)
  else if s.phase = .hdr then .next (headerStep s)
  else if s.phase = .elem then .next (elemStep s)
  else if s.phase = .fin then .next (finishStep s)
  else .fault .commandNotRunning

/-- DECOMPRESS.V (R270) from its CHECK phase; in the phases of R276, one engine step. KIND has no
effect (R113). -/
def execDecompressV (_kind : ElemKind) (s : State) : Host.Outcome State Fault Refusal :=
  if s.phase = .check then
    .next (decompressCheck (decodeBufVec Config.lanes (inputBytes s) s.latch.n.toNat) s)
  else if s.phase = .hdr then .next (headerStep s)
  else if s.phase = .dLane then .next (laneStep s)
  else if s.phase = .dTail then .next (elemStep s)
  else if s.phase = .fin then .next (finishStep s)
  else .fault .commandNotRunning

end Sys2Proof.Machine
end

