-- ==== Sys2Proof/Machine/Sizing.lean ====
section
/-! DEFINITION. MAXSIZE (43_sizing.md). -/

namespace Sys2Proof.Machine

/-- MAXSIZE (R212): RESULT = 9n + 7, or BadCommand where it does not fit (R211). ENG and KIND have no
effect (R112, R113), and it makes no memory access. -/
def execMaxsize (_eng : EngineSel) (_kind : ElemKind) (s : State) :
    Host.Outcome State Fault Refusal :=
  if s.phase ≠ .check then .fault .commandNotRunning
  else if argsOk .maxsize s.latch then
    .next (s.complete (BitVec.ofNat 64 (maxCompressedSize s.latch.n.toNat)))
  else .next (s.raise .badCommand)

end Sys2Proof.Machine
end

