-- ==== Sys2Proof/Machine/Encoder.lean ====
section
/-! DEFINITION. The scalar encoder (42_encoder.md): the greedy scan (R182 to R187), the emission of
a block (R151, R156, R161, R188), the encoding function encodeSeq (R190), the engine steps of R200,
and COMPRESS.S (R180). A sequence is read by index: `x j` is element j and `n` their number. -/

namespace Sys2Proof.Machine

/-- The mode in which a block opens at index `s` (R182). -/
def openMode (x : Nat → Word) (n s : Nat) : Mode :=
  if (s + 1 < n ∧ x (s + 1) = x s) ∨ (s = 0 ∧ n = 1) then .repeatMode
  else if s = 0 then .deltaE
  else .deltaI

/-- The width code a block opens with (R184). -/
def openWidth (x : Nat → Word) (mode : Mode) (s : Nat) : WidthCode :=
  match mode with
  | .repeatMode => 0
  | .deltaE => wc (foldDelta (x (s + 1)) (x s))
  | .deltaI => wc (foldDelta (x s) (x (s - 1)))

/-- The number of elements a block opens with (R185). -/
def openSize : Mode → Nat
  | .repeatMode => 1
  | .deltaE => 2
  | .deltaI => 1

/-- `cont(mode, j)` of R183, for a block that opened at `s` with width code `w`. -/
def cont (x : Nat → Word) (mode : Mode) (s : Nat) (w : WidthCode) (j : Nat) : Bool :=
  match mode with
  | .repeatMode => decide (x j = x s)
  | .deltaE => decide (wc (foldDelta (x j) (x (j - 1))) ≤ w)
  | .deltaI => decide (wc (foldDelta (x j) (x (j - 1))) ≤ w)

/-- The greedy extension of an open block (R183) to its final size; MAX_BLOCK is `maxB`. The first
argument bounds the number of scalar steps. -/
def extend (maxB : Nat) (x : Nat → Word) (n : Nat) (mode : Mode) (s : Nat) (w : WidthCode) :
    Nat → Nat → Nat
  | 0, nb => nb
  | fuel + 1, nb =>
    if s + nb < n ∧ nb < maxB ∧ cont x mode s w (s + nb) then
      extend maxB x n mode s w fuel (nb + 1)
    else nb

/-- The scalar engine's search for a block's size (R183). -/
def extendScalar (maxB : Nat) (x : Nat → Word) (n : Nat) (mode : Mode) (s : Nat) (w : WidthCode)
    (nb : Nat) : Nat :=
  extend maxB x n mode s w (n - (s + nb)) nb

/-- The canonical spelling of a count (R95, R188). -/
def canonicalCount (n : Nat) : BlockCount := ⟨n, decide (Config.shortMax < n)⟩

/-- The zig-zag deltas of elements `j .. j + m - 1`, each from the element before it. -/
def foldFields (x : Nat → Word) : Nat → Nat → List Word
  | _, 0 => []
  | j, m + 1 => foldDelta (x j) (x (j - 1)) :: foldFields x (j + 1) m

/-- The block the encoder emits for `nb` elements from `s` (R188): `emitRepeat` of R151,
`emitDeltaE` of R156, `emitDeltaI` of R161. -/
def emitBlock (x : Nat → Word) (mode : Mode) (s nb : Nat) (w : WidthCode) : Instr :=
  match mode with
  | .repeatMode => .repeatBlock (canonicalCount nb) (x s)
  | .deltaE => .deltaE (canonicalCount nb) w (x s) (foldFields x (s + 1) (nb - 1))
  | .deltaI => .deltaI (canonicalCount nb) w (foldFields x s nb)

/-- The blocks from index `i` on (R187, R190), for an engine that finds a block's size with `size`.
The first argument bounds the number of blocks. -/
def blocksFrom (size : Mode → Nat → WidthCode → Nat → Nat) (x : Nat → Word) (n : Nat) :
    Nat → Nat → List Instr
  | 0, _ => []
  | fuel + 1, i =>
    if i < n then
      let mode := openMode x n i
      let w := openWidth x mode i
      let nb := size mode i w (openSize mode)
      emitBlock x mode i nb w :: blocksFrom size x n fuel (i + nb)
    else []

/-- The bytes of a block list with the footer after it (R189, R190). -/
def streamBytes (blocks : List Instr) : List Byte := blocks.flatMap encode ++ encode .footer

/-- A list as a sequence read by index. -/
def elemAt (xs : List Word) (j : Nat) : Word := xs.getD j 0#64

/-- encodeSeq of R190 with MAX_BLOCK as an argument (R9). -/
def encodeSeqWith (maxB : Nat) (xs : List Word) : List Byte :=
  streamBytes
    (blocksFrom (extendScalar maxB (elemAt xs) xs.length) (elemAt xs) xs.length xs.length 0)

/-- encodeSeq of R190. -/
def encodeSeq (xs : List Word) : List Byte := encodeSeqWith Config.maxBlock xs

/-! ## The command -/

/-- The input of a running COMPRESS: element j at `src + 8*j` (R63, R197). -/
def inputElem (s : State) (j : Nat) : Word := readElem s.mem (s.latch.src.toNat + 8 * j)

/-- The whole input of a running COMPRESS (R180). -/
def inputElems (s : State) : List Word := readElems s.mem s.latch.src.toNat s.latch.n.toNat

/-- The end of a COMPRESS whose bytes are written: RESULT is the used length (R180, R335). -/
def completeCompress (len : Nat) (s : State) : State :=
  (s.wrote ⟨s.latch.dst.toNat, len⟩).complete (BitVec.ofNat 64 len)

/-- The CHECK phase of COMPRESS (R180, R200): checkCommand, the capacity check (R181), the draw of
BusError (R326); then the whole command at once, or the engine's first phase. -/
def compressCheck (bytes : List Byte) (first : Phase) (s : State) : State :=
  if !argsOk .compress s.latch then s.raise .badCommand
  else if s.latch.cap.toNat < maxCompressedSize s.latch.n.toNat then s.raise .bufferTooSmall
  else if drawsBusError s (readRegion s.latch) ⟨s.latch.dst.toNat, bytes.length⟩ then
    s.raiseDirty .busError
  else if runsAtOnce s (readRegion s.latch) ⟨s.latch.dst.toNat, bytes.length⟩ then
    completeCompress bytes.length
      { s with mem := writeBytes s.mem s.latch.dst.toNat bytes }
  else { s with phase := first }

/-- The registers of a block that opens at `i` (R182, R184, R185). -/
def openBlockRegs (x : Nat → Word) (n : Nat) (e : EncRegs) : EncRegs :=
  let mode := openMode x n e.i
  { e with s := e.i, mode := mode, w := openWidth x mode e.i, nb := openSize mode, isOpen := true }

/-- Writing bytes at `dst + o` through the memory port (R13, R200). -/
def emitBytes (bs : List Byte) (s : State) : State :=
  { s with
    mem := portWrite s.platform s.mem (s.latch.dst.toNat + s.enc.o) bs
    enc := { s.enc with o := s.enc.o + bs.length } }

/-- Closing the open block: its bytes are written and the next block starts after it (R187, R200). -/
def closeBlock (s : State) : State :=
  let t := emitBytes
    (encode (emitBlock (inputElem s) s.enc.mode s.enc.s s.enc.nb s.enc.w)) s
  { t with enc := { t.enc with i := s.enc.s + s.enc.nb, isOpen := false } }

/-- Writing the footer and completing (R189, R200). -/
def closeStream (s : State) : State :=
  let t := emitBytes (encode .footer) s
  completeCompress t.enc.o t

/-- One step of the scalar encoder in SCAN (R200). -/
def scanStep (s : State) : State :=
  let n := s.latch.n.toNat
  let e := s.enc
  if e.isOpen then
    if e.s + e.nb < n ∧ e.nb < Config.maxBlock ∧ cont (inputElem s) e.mode e.s e.w (e.s + e.nb) then
      { s with enc := { e with nb := e.nb + 1 } }
    else closeBlock s
  else if e.i < n then { s with enc := openBlockRegs (inputElem s) n e }
  else { s with phase := .encFooter }

/-- COMPRESS.S (R180) from its CHECK phase; in the phases of R200, one engine step. KIND has no
effect (R113). -/
def execCompressS (_kind : ElemKind) (s : State) : Host.Outcome State Fault Refusal :=
  if s.phase = .check then .next (compressCheck (encodeSeq (inputElems s)) .scan s)
  else if s.phase = .scan then .next (scanStep s)
  else if s.phase = .encFooter then .next (closeStream s)
  else .fault .commandNotRunning

end Sys2Proof.Machine
end

