-- ==== Sys2Proof/Machine/Vector.lean ====
section
/-! DEFINITION. The vector engine's encoder (45_vector.md): the lane step and its prefix commit
(R264), the scalar tail (R266), the engine steps of R269, and COMPRESS.V (R260). LANES is an
argument of the lane functions (R24). -/

namespace Sys2Proof.Machine

/-- `V[k]` of a lane step at `j` (R264). -/
def laneValues (lanes : Nat) (x : Nat → Word) (mode : Mode) (j : Nat) : Vector Word lanes :=
  Vector.ofFn fun k =>
    match mode with
    | .repeatMode => x (j + k.val)
    | .deltaE => foldDelta (x (j + k.val)) (x (j + k.val - 1))
    | .deltaI => foldDelta (x (j + k.val)) (x (j + k.val - 1))

/-- `P[k]` of a lane step at `s + nb` (R264). -/
def lanePreds (lanes maxB : Nat) (x : Nat → Word) (mode : Mode) (s : Nat) (w : WidthCode)
    (nb : Nat) : Vector Bool lanes :=
  Vector.ofFn fun k => cont x mode s w (s + nb + k.val) && decide (nb + k.val < maxB)

/-- The length of the leading run of true predicates, the lanes that commit (R264). -/
def leadingTrue : List Bool → Nat
  | [] => 0
  | b :: bs => if b then leadingTrue bs + 1 else 0

/-- `extendVec` of R260: lane steps (R264) while LANES elements remain, then scalar steps (R266).
The first argument bounds the number of steps. -/
def extendLanes (lanes maxB : Nat) (x : Nat → Word) (n : Nat) (mode : Mode) (s : Nat)
    (w : WidthCode) : Nat → Nat → Nat
  | 0, nb => nb
  | fuel + 1, nb =>
    if s + nb < n ∧ nb < maxB then
      if lanes ≤ n - (s + nb) then
        let m := leadingTrue (lanePreds lanes maxB x mode s w nb).toList
        if m < lanes then nb + m else extendLanes lanes maxB x n mode s w fuel (nb + m)
      else if cont x mode s w (s + nb) then extendLanes lanes maxB x n mode s w fuel (nb + 1)
      else nb
    else nb

/-- The vector engine's search for a block's size (R260). -/
def extendVec (lanes maxB : Nat) (x : Nat → Word) (n : Nat) (mode : Mode) (s : Nat)
    (w : WidthCode) (nb : Nat) : Nat :=
  extendLanes lanes maxB x n mode s w (n - (s + nb)) nb

/-- The vector engine's output for a sequence (R260), with LANES and MAX_BLOCK as arguments. -/
def encodeSeqVec (lanes maxB : Nat) (xs : List Word) : List Byte :=
  streamBytes
    (blocksFrom (extendVec lanes maxB (elemAt xs) xs.length) (elemAt xs) xs.length xs.length 0)

/-- The phase after a block has grown: LANE, TAIL or EMIT (R269). -/
def growPhase (n : Nat) (e : EncRegs) : Phase :=
  if e.s + e.nb < n ∧ e.nb < Config.maxBlock then
    if Config.lanes ≤ n - (e.s + e.nb) then .vLane else .vTail
  else .vEmit

/-- OPEN (R269). -/
def vecOpenStep (s : State) : State :=
  let n := s.latch.n.toNat
  if s.enc.i < n then
    let e := openBlockRegs (inputElem s) n s.enc
    { s with enc := e, phase := growPhase n e }
  else { s with phase := .vFoot }

/-- LANE (R264, R269): every lane's value and predicate, then the commit of a prefix. -/
def vecLaneStep (s : State) : State :=
  let n := s.latch.n.toNat
  let e := s.enc
  let x := inputElem s
  let p := lanePreds Config.lanes Config.maxBlock x e.mode e.s e.w e.nb
  let m := leadingTrue p.toList
  let e' := { e with nb := e.nb + m }
  { s with
    lanes := ⟨laneValues Config.lanes x e.mode (e.s + e.nb), p, m⟩
    enc := e'
    phase := if m < Config.lanes then .vEmit else growPhase n e' }

/-- TAIL (R266, R269): one scalar extension step. -/
def vecTailStep (s : State) : State :=
  let n := s.latch.n.toNat
  let e := s.enc
  if e.s + e.nb < n ∧ e.nb < Config.maxBlock ∧ cont (inputElem s) e.mode e.s e.w (e.s + e.nb) then
    { s with
      enc := { e with nb := e.nb + 1 }
      phase := if e.s + (e.nb + 1) < n ∧ e.nb + 1 < Config.maxBlock then .vTail else .vEmit }
  else { s with phase := .vEmit }

/-- EMIT (R267, R269). -/
def vecEmitStep (s : State) : State := { closeBlock s with phase := .vOpen }

/-- COMPRESS.V (R260) from its CHECK phase; in the phases of R269, one engine step. KIND has no
effect (R113). -/
def execCompressV (_kind : ElemKind) (s : State) : Host.Outcome State Fault Refusal :=
  if s.phase = .check then
    .next (compressCheck (encodeSeqVec Config.lanes Config.maxBlock (inputElems s)) .vOpen s)
  else if s.phase = .vOpen then .next (vecOpenStep s)
  else if s.phase = .vLane then .next (vecLaneStep s)
  else if s.phase = .vTail then .next (vecTailStep s)
  else if s.phase = .vEmit then .next (vecEmitStep s)
  else if s.phase = .vFoot then .next (closeStream s)
  else .fault .commandNotRunning

end Sys2Proof.Machine
end

