-- ==== Sys2Proof/Machine/Dispatch.lean ====
section
/-! DEFINITION. The meaning of every instruction: one arm per row of spec/opcode_table.json. -/

namespace Sys2Proof.Machine

def exec (i : Instr) (s : State) : Host.Outcome State Fault Refusal :=
  match i with
  | .maxsize eng kind => Sys2Proof.Machine.execMaxsize eng kind s
  | .compressS kind => Sys2Proof.Machine.execCompressS kind s
  | .compressV kind => Sys2Proof.Machine.execCompressV kind s
  | .decompressS kind => Sys2Proof.Machine.execDecompressS kind s
  | .decompressV kind => Sys2Proof.Machine.execDecompressV kind s
  | .repeatBlock cnt v => Sys2Proof.Machine.execRepeatBlock cnt v s
  | .deltaE cnt w ref zs => Sys2Proof.Machine.execDeltaE cnt w ref zs s
  | .deltaI cnt w zs => Sys2Proof.Machine.execDeltaI cnt w zs s
  | .footer => Sys2Proof.Machine.execFooter s

end Sys2Proof.Machine
end

