-- ==== Sys2Proof/Machine/Engine.lean ====
section
/-! DEFINITION. The engine's step (R32): it fetches what its phase runs (the latched command word,
the footer in MARK, the block at p in HDR), decodes it and runs its meaning. -/

namespace Sys2Proof.Machine

/-- The running command from its latched word; a reserved word completes with BadCommand (R296). -/
def stepCommand (s : State) : Host.Outcome State Fault Refusal :=
  match decodeCommand s.latch.cmd with
  | .ok i => exec i s
  | .error _ => .next (s.raise .badCommand)

/-- The bytes at the footer's place, L - 7 to L - 1 (R91). -/
def footerBytesAt (s : State) : List Byte :=
  streamAt s (footerOffset s.latch) Config.footerBytes

/-- MARK (R237): a buffer too short for a footer, or the footer (R222, R223). -/
def stepFooter (s : State) : Host.Outcome State Fault Refusal :=
  if s.latch.srcLen.toNat < Config.footerBytes then .next (shortBuffer s)
  else
    match decodeFooter (footerBytesAt s) with
    | .ok i => exec i s
    | .error r => .next (s.raiseDirty (rejectCode s.dec.hasPrev r))

/-- The bytes of the block region from p to end (R91). -/
def blockBytesAt (s : State) : List Byte := streamAt s s.dec.p (s.dec.endOff - s.dec.p)

/-- Whether a block of the stream is to be run whole: elements are wanted, bytes are left, and the
engine does not take the block's steps one by one. -/
def atBlock (s : State) : Bool :=
  decide (s.phase = .hdr) && decide (s.grain ≠ .element)
    && decide (s.dec.k ≠ s.latch.n.toNat) && decide (s.dec.p ≠ s.dec.endOff)

/-- The block at p (R226 to R233). -/
def stepBlock (s : State) : Host.Outcome State Fault Refusal :=
  match decodeBlock (blockBytesAt s) with
  | .ok (i, _) => exec i s
  | .error r => .next (s.raiseDirty (rejectCode s.dec.hasPrev r))

/-- One step of the engine; in IDLE it takes none (R347). -/
def engineStep (s : State) : Host.Outcome State Fault Refusal :=
  if s.phase = .idle then .next s
  else if s.phase = .mark then stepFooter s
  else if atBlock s then stepBlock s
  else stepCommand s

end Sys2Proof.Machine
end

