-- ==== Sys2Proof/Machine/HostPort.lean ====
section
/-! DEFINITION. The host's side (46_host_interface.md): register reads and writes (R290), command
dispatch (R292), bus accesses to memory and to the register block (R66, R68, R302), the refused
actions (R370), and one action of the agents outside the block. -/

namespace Sys2Proof.Machine

/-- RegRead(off) of R290. -/
def regRead (s : State) (off : Nat) : Word :=
  if off = 0x00 then Config.idWord
  else if off = 0x08 then ctrlWord s
  else if off = 0x10 then statusWord s
  else if off = 0x18 then 0#64
  else if off = 0x20 then s.src
  else if off = 0x28 then s.srcLen
  else if off = 0x30 then s.dst
  else if off = 0x38 then s.dstCap
  else if off = 0x40 then s.count
  else if off = 0x48 then s.result
  else 0#64

/-- Whether two commands would overlap where one writes (R345, R370 (d)). -/
def conflicts (a b : OtherRun) : Bool :=
  a.writes.overlaps b.reads || a.writes.overlaps b.writes || b.writes.overlaps a.reads

/-- The regions of a latched command (R71, R360). -/
def regionsOf (l : Latches) : OtherRun := ⟨readRegion l, errorRegion l⟩

/-- The latches a start with word `v` takes (R293). -/
def latchesFor (v : Word) (s : State) : Latches :=
  ⟨v, s.src, s.srcLen, s.dst, s.dstCap, s.count⟩

/-- A command that starts while the block is IDLE (R293), unless R370 (d) or (e) refuses it. -/
def startCommand (v : Word) (s : State) : Host.Outcome State Fault Refusal :=
  if s.others.any (conflicts (regionsOf (latchesFor v s))) then .refused .instancesOverlap
  else if !s.platform.coherent && s.dirty.any (readRegion (latchesFor v s)).overlaps then
    .refused .cacheMaintenance
  else .next (s.start v)

/-- A write of CMD (R292): dropped while BUSY (R294), else a start. -/
def writeCmd (v : Word) (s : State) : Host.Outcome State Fault Refusal :=
  if s.busy then .next { s with drop := true } else startCommand v s

/-- RegWrite(off, v) of R290; the offsets not named ignore it. -/
def regWrite (off : Nat) (v : Word) (s : State) : Host.Outcome State Fault Refusal :=
  if off = 0x08 then .next (writeCtrl v s)
  else if off = 0x10 then .next (writeStatus v s)
  else if off = 0x18 then writeCmd v s
  else if off = 0x20 then .next { s with src := v }
  else if off = 0x28 then .next { s with srcLen := v }
  else if off = 0x30 then .next { s with dst := v }
  else if off = 0x38 then .next { s with dstCap := v }
  else if off = 0x40 then .next { s with count := v }
  else .next s

/-! ## Bus accesses -/

/-- Where a bus access of `n` bytes goes. -/
inductive Target where
  /-- Past the top of the address space (R60). -/
  | nowhere
  /-- The register block, by one aligned 64-bit access at this offset (R68). -/
  | register (off : Nat)
  /-- The register block, by another access (R370 (a)). -/
  | badRegister
  /-- System memory. -/
  | memory
  deriving DecidableEq, Repr

/-- Where a bus access goes: the register block stands at MMIO_BASE (R20, R66). -/
def targetOf (p : Platform) (addr n : Nat) : Target :=
  if Config.addressSpace < addr + n then .nowhere
  else if (registerBlock p).overlaps ⟨addr, n⟩ then
    if n = 8 ∧ addr % 8 = 0 then .register (addr - mmioBase p) else .badRegister
  else .memory

/-- The refusal of an access to a running command's region (R370 (b), (c)). -/
def touchRefusal : Master → Refusal
  | .host => .hostTouchesRegion
  | .other => .masterTouchesRegion

/-- Whether an access of one kind touches what a running command has taken (R370 (b), (c)): a write
of its read region, any access to its error region. -/
def touchesRunning (s : State) (acc : Access) (r : Region) : Bool :=
  s.busy && ((errorRegion s.latch).overlaps r
    || (decide (acc = .write) && (readRegion s.latch).overlaps r))

/-- What a master reads at an address: the host reads through its caches (R80). -/
def busByte (s : State) (who : Master) (a : Nat) : Byte :=
  if decide (who = .host) && !s.platform.coherent && s.stale.any (·.contains a) then
    Config.staleByte s.tick a
  else readByte s.mem a

/-- What a bus read leaves: the host keeps what it read, what another master read is its own. -/
def replyTo (who : Master) (v : Reply) (s : State) : State :=
  match who with
  | .host => { s with reply := v }
  | .other => s

/-- A bus read. A register is reached only by the host (R39); another master's register access is
refused (DESIGN CHOICE, log entry 26). -/
def busLoad (who : Master) (addr n : Nat) (s : State) : Host.Outcome State Fault Refusal :=
  match targetOf s.platform addr n with
  | .nowhere => .fault .pastTopOfMemory
  | .register off =>
    if who = .host then .next (replyTo who (.reg (regRead s off)) s)
    else .refused .masterTouchesRegister
  | .badRegister => .refused .registerAccess
  | .memory =>
    if touchesRunning s .read ⟨addr, n⟩ then .refused (touchRefusal who)
    else .next (replyTo who (.bytes ((List.range n).map fun k => busByte s who (addr + k))) s)

/-- The parts of a range outside another. -/
def Region.without (r t : Region) : List Region :=
  [⟨r.base, min r.len (t.base - r.base)⟩,
    ⟨max r.base (t.base + t.len), r.base + r.len - max r.base (t.base + t.len)⟩].filter
      fun q => decide (0 < q.len)

/-- Ranges less one range. -/
def clearRange (t : Region) (rs : List Region) : List Region := rs.flatMap (·.without t)

/-- The bytes of a memory write. A host store with COHERENT = false leaves cache lines that want
cleaning, and the host then reads its own store (R80). -/
def storeBytes (who : Master) (addr : Nat) (bs : List Byte) (s : State) : State :=
  if decide (who = .host) && !s.platform.coherent then
    { s with
      mem := writeBytes s.mem addr bs
      dirty := ⟨addr, bs.length⟩ :: s.dirty
      stale := clearRange ⟨addr, bs.length⟩ s.stale }
  else { s with mem := writeBytes s.mem addr bs }

/-- A bus write; a register as in `busLoad`. -/
def busStore (who : Master) (addr : Nat) (bs : List Byte) (s : State) :
    Host.Outcome State Fault Refusal :=
  match targetOf s.platform addr bs.length with
  | .nowhere => .fault .pastTopOfMemory
  | .register off =>
    if who = .host then regWrite off (rdWord bs) s else .refused .masterTouchesRegister
  | .badRegister => .refused .registerAccess
  | .memory =>
    if touchesRunning s .write ⟨addr, bs.length⟩ then .refused (touchRefusal who)
    else .next (storeBytes who addr bs s)

/-- A command that starts on another instance (R345, R370 (d)). -/
def otherStarts (run : OtherRun) (s : State) : Host.Outcome State Fault Refusal :=
  if (s.busy && conflicts run (regionsOf s.latch)) || s.others.any (conflicts run) then
    .refused .instancesOverlap
  else .next { s with others := run :: s.others }

/-- Whether an action can be taken now: a `wait` can end with the flag it polls (R116, R117, R300,
R382), or with the level of the interrupt input the host waits at (R300, R331). -/
def waitOver (a : Action) (s : State) : Bool :=
  match a with
  | .waitDone => s.done
  | .waitIdle => !s.busy
  | .waitIrq => s.irqInput s.platform.irqRoute
  | .load _ _ _ => true
  | .store _ _ _ => true
  | .storeReply _ => true
  | .reset => true
  | .cacheClean _ => true
  | .cacheInvalidate _ => true
  | .otherStarts _ => true
  | .otherEnds _ => true

/-- A poll of STATUS: `rd STATUS` (R117). -/
def pollStatus (s : State) : State := { s with reply := .reg (statusWord s) }

/-- What a host does that waits: it polls STATUS, or sleeps until the interrupt (R300). -/
def whileWaiting (a : Action) (s : State) : State :=
  match a with
  | .waitDone => pollStatus s
  | .waitIdle => pollStatus s
  | .waitIrq => s
  | .load _ _ _ => s
  | .store _ _ _ => s
  | .storeReply _ => s
  | .reset => s
  | .cacheClean _ => s
  | .cacheInvalidate _ => s
  | .otherStarts _ => s
  | .otherEnds _ => s

/-- The bytes a host writes that writes what it last read; nothing where it has read nothing. -/
def replyBytes : Reply → List Byte
  | .nothing => []
  | .reg v => leBytes 8 v.toNat
  | .bytes bs => bs

/-- The effect of one action. -/
def act (a : Action) (s : State) : Host.Outcome State Fault Refusal :=
  match a with
  | .load who addr n => busLoad who addr.toNat n s
  | .store who addr bs => busStore who addr.toNat bs s
  | .storeReply addr => busStore .host addr.toNat (replyBytes s.reply) s
  | .reset => .next s.resetEvent
  | .cacheClean r => .next { s with dirty := clearRange r s.dirty }
  | .cacheInvalidate r => .next { s with stale := clearRange r s.stale }
  | .otherStarts run => otherStarts run s
  | .otherEnds run => .next { s with others := s.others.erase run }
  | .waitDone => .next (whileWaiting a s)
  | .waitIdle => .next (whileWaiting a s)
  | .waitIrq => .next (whileWaiting a s)

/-- One move of the agents outside the block: the first pending action, which then leaves the inbox;
a wait that cannot end yet stays. -/
def hostStep (s : State) : Host.Outcome State Fault Refusal :=
  match s.inbox with
  | [] => .next s
  | a :: rest =>
    if waitOver a s then act a { s with inbox := rest } else .next (whileWaiting a s)

/-! ## Host programs (R116, R117, R215, R299, R363) -/

/-- `wr <REG>, <value>`: RegWrite at an offset of the register block (R116). -/
def wr (p : Platform) (off : Nat) (v : Word) : Action :=
  .store .host (BitVec.ofNat 64 (mmioBase p + off)) (leBytes 8 v.toNat)

/-- `rd <REG>`: RegRead at an offset of the register block (R116). -/
def rd (p : Platform) (off : Nat) : Action :=
  .load .host (BitVec.ofNat 64 (mmioBase p + off)) 8

/-- `cmd <MNEMONIC>`: the command word written to CMD (R116). -/
def cmd (p : Platform) (i : Instr) : Action := wr p 0x18 (rdWord (encode i))

/-- `ack`: DONE cleared (R117). -/
def ack (p : Platform) : Action := wr p 0x10 0x2#64

/-- The host's call `maxCompressedSize(n)` (R299); the element kind maps to KIND. -/
def callMaxsize (p : Platform) (kind : ElemKind) (n : Word) : List Action :=
  [wr p 0x40 n, cmd p (.maxsize .scalar kind), .waitDone, rd p 0x48, ack p]

/-- The COMPRESS of an engine and an element kind; `.V` may replace `.S` in any host sequence
(R299). -/
def compressOn (eng : EngineSel) (kind : ElemKind) : Instr :=
  match eng with
  | .scalar => .compressS kind
  | .vector => .compressV kind

/-- The DECOMPRESS of an engine and an element kind, as `compressOn`. -/
def decompressOn (eng : EngineSel) (kind : ElemKind) : Instr :=
  match eng with
  | .scalar => .decompressS kind
  | .vector => .decompressV kind

/-- The host's call `compress` (R299). -/
def callCompress (p : Platform) (eng : EngineSel) (kind : ElemKind) (src n dst cap : Word) :
    List Action :=
  [wr p 0x20 src, wr p 0x40 n, wr p 0x30 dst, wr p 0x38 cap, cmd p (compressOn eng kind), .waitDone,
    rd p 0x10, rd p 0x48, ack p]

/-- The host's call `decompress` (R299). -/
def callDecompress (p : Platform) (eng : EngineSel) (kind : ElemKind) (src srcLen n dst : Word) :
    List Action :=
  [wr p 0x20 src, wr p 0x28 srcLen, wr p 0x40 n, wr p 0x30 dst, cmd p (decompressOn eng kind),
    .waitDone, rd p 0x10, ack p]

/-- The host pseudo-operation `compressSimple` (R215), into a buffer the host has allocated: DST_CAP
takes the size that was read from RESULT, which no action between changes. -/
def compressSimple (p : Platform) (eng : EngineSel) (kind : ElemKind) (src n buf : Word) :
    List Action :=
  callMaxsize p kind n
    ++ [wr p 0x20 src, wr p 0x30 buf, .storeReply (BitVec.ofNat 64 (mmioBase p + 0x38)),
      cmd p (compressOn eng kind), .waitDone, rd p 0x48, ack p]

/-- The boot sequence before the first command (R363): ID read, the completion interrupt enabled. -/
def boot (p : Platform) : List Action := [rd p 0x00, wr p 0x08 1#64]

/-! ## Who moves (R381) -/

/-- Who takes the next step. -/
inductive Mover where
  | nobody
  | outside
  | engine
  deriving DecidableEq, Repr

/-- Who takes the next step: an IDLE engine takes none (R347); a wait that cannot end leaves the
move to a running engine (R381: weak fairness); else either may move. -/
def mover (s : State) : Mover :=
  match s.inbox with
  | [] => if s.busy then .engine else .nobody
  | a :: _ =>
    if !s.busy then .outside
    else if !waitOver a s then .engine
    else if Config.hostMovesFirst s.tick then .outside
    else .engine

end Sys2Proof.Machine
end

