-- ==== Sys2Proof/Machine/Step.lean ====
section
/-! DEFINITION. The step of the whole machine, one atomic action of R381, and the placing of an
instruction where the next step runs it. -/

namespace Sys2Proof.Machine

/-- One step: the next action of the agents outside, or one step of the engine, after which the free
values are others; where nobody can move, nothing changes. -/
def step (s : State) : Host.Outcome State Fault Refusal :=
  match mover s with
  | .nobody => .next s
  | .outside => advance (hostStep s)
  | .engine => advance (engineStep s)

/-- A command word latched and about to run: what a CMD write leaves (R293), with nothing pending
and the command's steps merged. -/
def State.withCommand (s : State) (v : Word) : State :=
  { s with
    latch := ⟨v, s.src, s.srcLen, s.dst, s.dstCap, s.count⟩
    done := false
    err := .none
    result := 0#64
    phase := .check
    grain := .command
    inbox := []
    enc := { s.enc with i := 0, o := 0, isOpen := false }
    dec := { s.dec with p := 0, k := 0, hasPrev := false } }

/-- Where a placed stream form's elements go: past every byte of the placed stream. -/
def placedDst : Word := 0x1000#64

/-- A block at the head of a block region, in a DECOMPRESS.S that runs whole blocks, has produced
one element and wants exactly the block's. -/
def State.withBlock (s : State) (bytes : List Byte) (n : Nat) : State :=
  { s with
    latch := ⟨0x03#64, 0#64, BitVec.ofNat 64 (bytes.length + Config.footerBytes), placedDst, 0#64,
      BitVec.ofNat 64 (n + 1)⟩
    mem := writeBytes s.mem 0 (bytes ++ encode .footer)
    phase := .hdr
    grain := .block
    inbox := []
    dec := { s.dec with p := 0, k := 1, hasPrev := true, endOff := bytes.length } }

/-- A footer that is a whole buffer, in a DECOMPRESS.S of no elements that stands in MARK. -/
def State.withFooter (s : State) (bytes : List Byte) : State :=
  { s with
    latch := ⟨0x03#64, 0#64, BitVec.ofNat 64 Config.footerBytes, placedDst, 0#64, 0#64⟩
    mem := writeBytes s.mem 0 (bytes.take Config.footerBytes)
    phase := .mark
    grain := .block
    inbox := []
    dec := { s.dec with p := 0, k := 0, hasPrev := false } }

/-- `s` with the instruction whose bits are `w`, numbered as the opcode table numbers them, where
the next step fetches it: a command in the latch (R33), a stream form in the stream. -/
def State.withFetchWord (s : State) (nbits w : Nat) : State :=
  if 64 ≤ nbits then s.withCommand (rdWord (leBytes 8 w))
  else if tableIsFooter nbits w then s.withFooter (tableBytes nbits w)
  else
    match decodeBlock (tableBytes nbits w) with
    | .ok (i, _) => s.withBlock ((tableBytes nbits w).take i.byteLen) (blockCount i)
    | .error _ => s.withBlock (tableBytes nbits w) 1

end Sys2Proof.Machine
end

