-- ==== Sys2Proof/Safety.lean ====
section
/-! DEFINITION. What counts as a sound state and a safe run, in the terms the statements use: the
phase belongs to the running command, the engine's registers stay in the bounds that keep every
access inside its region (R22, R71, R232), memory has its canonical form. -/

namespace Sys2Proof.Machine

/-- The phase is one the latched command passes through (R200, R212, R237, R269, R276); IDLE and
CHECK fit every word. -/
def phaseFits (s : State) : Bool :=
  match s.phase, decodeCommand s.latch.cmd with
  | .idle, _ => true
  | .check, _ => true
  | .scan, .ok (.compressS _) => true
  | .encFooter, .ok (.compressS _) => true
  | .vOpen, .ok (.compressV _) => true
  | .vLane, .ok (.compressV _) => true
  | .vTail, .ok (.compressV _) => true
  | .vEmit, .ok (.compressV _) => true
  | .vFoot, .ok (.compressV _) => true
  | .mark, .ok (.decompressS _) => true
  | .mark, .ok (.decompressV _) => true
  | .hdr, .ok (.decompressS _) => true
  | .hdr, .ok (.decompressV _) => true
  | .elem, .ok (.decompressS _) => true
  | .dLane, .ok (.decompressV _) => true
  | .dTail, .ok (.decompressV _) => true
  | .fin, .ok (.decompressS _) => true
  | .fin, .ok (.decompressV _) => true
  | _, _ => false

/-- The encoder between blocks: the arguments passed their checks, i is at most n, and the output so
far is at most nine bytes an element (R169). -/
def encBetween (s : State) : Bool :=
  argsOk .compress s.latch && decide (maxCompressedSize s.latch.n.toNat ≤ s.latch.cap.toNat)
    && decide (s.enc.i ≤ s.latch.n.toNat) && decide (s.enc.o ≤ 9 * s.enc.i)

/-- The encoder with a block open: it starts at i, holds 1 to MAX_BLOCK elements and ends at n or
before (R183, R186). -/
def encOpen (s : State) : Bool :=
  encBetween s && s.enc.isOpen && decide (s.enc.s = s.enc.i) && decide (1 ≤ s.enc.nb)
    && decide (s.enc.nb ≤ Config.maxBlock) && decide (s.enc.s + s.enc.nb ≤ s.latch.n.toNat)

/-- The open block can still grow (R264, R266). -/
def encGrows (s : State) : Bool :=
  decide (s.enc.s + s.enc.nb < s.latch.n.toNat) && decide (s.enc.nb < Config.maxBlock)

/-- The decoder between blocks: the arguments passed their checks, the footer's place is known, p
and k are in range (R232, R237). -/
def decBetween (s : State) : Bool :=
  argsOk .decompress s.latch && decide (Config.footerBytes ≤ s.latch.srcLen.toNat)
    && decide (s.dec.endOff = footerOffset s.latch) && decide (s.dec.p ≤ s.dec.endOff)
    && decide (s.dec.k ≤ s.latch.n.toNat)

/-- How far into its payload the field of element j of an open block lies (R155, R160). -/
def fieldOffset (d : DecRegs) : Nat :=
  match d.kind with
  | .repeatRun => 0
  | .deltaE => if d.j = 0 then 0 else 8 + (d.j - 1) * bytesOf d.w
  | .deltaI => d.j * bytesOf d.w

/-- The decoder inside a block: the whole block lies before the footer (R230), its elements are
wanted (R231), and q stands at the field of element j. -/
def decInside (s : State) : Bool :=
  decBetween s && decide (s.dec.j < s.dec.nb)
    && decide (s.dec.k + (s.dec.nb - s.dec.j) ≤ s.latch.n.toNat)
    && decide (s.dec.p + s.dec.h + payLen s.dec.kind s.dec.w s.dec.nb ≤ s.dec.endOff)
    && decide (s.dec.q = s.dec.p + s.dec.h + fieldOffset s.dec)

/-- A lane step of a delta block has LANES fields before it and the reference behind it (R271). -/
def laneReady (d : DecRegs) : Bool :=
  match d.kind with
  | .repeatRun => true
  | .deltaE => decide (1 ≤ d.j) && decide (Config.lanes ≤ d.nb - d.j)
  | .deltaI => decide (Config.lanes ≤ d.nb - d.j)

/-- The engine's registers are in bounds for its phase. -/
def engineBounded (s : State) : Bool :=
  match s.phase with
  | .idle => true
  | .check => decide (s.enc.i = 0) && decide (s.enc.o = 0) && !s.enc.isOpen
      && decide (s.dec.p = 0) && decide (s.dec.k = 0) && !s.dec.hasPrev
  | .scan => if s.enc.isOpen then encOpen s else encBetween s
  | .encFooter => encBetween s && decide (s.enc.i = s.latch.n.toNat)
  | .vOpen => encBetween s
  | .vLane => encOpen s && encGrows s
      && decide (Config.lanes ≤ s.latch.n.toNat - (s.enc.s + s.enc.nb))
  | .vTail => encOpen s && encGrows s
  | .vEmit => encOpen s
  | .vFoot => encBetween s && decide (s.enc.i = s.latch.n.toNat)
  | .mark => argsOk .decompress s.latch && decide (s.dec.p = 0) && decide (s.dec.k = 0)
  | .hdr => decBetween s
  | .elem => decInside s
  | .dLane => decInside s && laneReady s.dec
  | .dTail => decInside s && decide (s.dec.kind ≠ .repeatRun)
  | .fin => decBetween s && decide (s.dec.k = s.latch.n.toNat)

/-- A sound state: the invariant of the whole machine. -/
def State.sound (s : State) : Bool := s.mem.wf && phaseFits s && engineBounded s

/-- The register write an action makes, if it makes one: offset and value (R290). -/
def registerWritten (s : State) (a : Action) : Option (Nat × Word) :=
  let write (addr : Word) (bs : List Byte) : Option (Nat × Word) :=
    match targetOf s.platform addr.toNat bs.length with
    | .nowhere => none
    | .register off => some (off, rdWord bs)
    | .badRegister => none
    | .memory => none
  match a with
  | .load _ _ _ => none
  | .store .host addr bs => write addr bs
  | .store .other _ _ => none
  | .storeReply addr => write addr (replyBytes s.reply)
  | .reset => none
  | .cacheClean _ => none
  | .cacheInvalidate _ => none
  | .otherStarts _ => none
  | .otherEnds _ => none
  | .waitDone => none
  | .waitIdle => none
  | .waitIrq => none

/-- Whether a block spells its count long (R95). -/
def spelledLong : Instr → Bool
  | .maxsize _ _ => false
  | .compressS _ => false
  | .compressV _ => false
  | .decompressS _ => false
  | .decompressV _ => false
  | .repeatBlock c _ => c.long
  | .deltaE c _ _ _ => c.long
  | .deltaI c _ _ => c.long
  | .footer => false

/-- `k` steps of the engine by itself, stopping early where it goes IDLE. -/
def engineRun : Nat → State → Host.Outcome State Fault Refusal
  | 0, s => .next s
  | k + 1, s =>
    if s.phase = .idle then .next s
    else
      match engineStep s with
      | .next t => engineRun k t
      | .fault r => .fault r
      | .refused r => .refused r

end Sys2Proof.Machine
end

