-- ==== Sys2Proof/Certificates/Slice0/Obligations.lean ====
section
/-! DEFINITION. The statements about the model, each formalising rules of spec/; OBLIGATIONS.json
lists them. -/

open Sys2Proof Sys2Proof.Machine

/-! ## Encodings (30_encoding.md) -/

/-- R111, R94, R100: words and bytes spelled from the spec's tables decode to what they stand for. -/
def Obligations.SpelledWordsDecode : Prop :=
  decodeCommand 0x01#64 = .ok (.maxsize .scalar .i64)
    ∧ decodeCommand 0x31#64 = .ok (.maxsize .vector .f64)
    ∧ decodeCommand 0x02#64 = .ok (.compressS .i64)
    ∧ decodeCommand 0x32#64 = .ok (.compressV .f64)
    ∧ decodeCommand 0x23#64 = .ok (.decompressS .f64)
    ∧ decodeCommand 0x13#64 = .ok (.decompressV .i64)
    ∧ decodeBlock [0x81#8, 0x0A#8, 0#8, 0#8, 0#8, 0#8, 0#8, 0#8, 0#8]
        = .ok (.repeatBlock ⟨2, false⟩ 10#64, [])
    ∧ decodeBlock
          [0x42#8, 0xFF#8, 0xFF#8, 0xFF#8, 0xFF#8, 0xFF#8, 0xFF#8, 0xFF#8, 0xFF#8, 1#8, 1#8]
        = .ok (.deltaE ⟨3, false⟩ 0 0xFFFFFFFFFFFFFFFF#64 [1#64, 1#64], [])
    ∧ decodeBlock [0x00#8, 0x0C#8] = .ok (.deltaI ⟨1, false⟩ 0 [12#64], [])
    ∧ decodeFooter [0x4D#8, 0#8, 0#8, 0#8, 0#8, 0#8, 0#8] = .ok .footer

/-- R94, R95, R100, R110, R111: every well-formed instruction decodes back from its encoding, with
every operand, whatever bytes follow it. -/
def Obligations.EncodedInstructionsDecodeBack : Prop :=
  ∀ (i : Instr) (rest : List Byte), i.wf = true →
    (i.isCommand = true → decodeCommandBytes (encode i) = .ok i)
      ∧ (i.isBlock = true → decodeBlock (encode i ++ rest) = .ok (i, rest))
      ∧ (i = .footer → decodeFooter (encode i ++ rest) = .ok i)

/-- R94, R97, R98, R99: bytes that decode to a block are that block's encoding, in the spelling of
its count, followed by the bytes left; no bit of them is ignored. -/
def Obligations.DecodedBlocksEncodeBack : Prop :=
  ∀ (bs rest : List Byte) (i : Instr), decodeBlock bs = .ok (i, rest) →
    i.wf = true ∧ i.isBlock = true ∧ bs = encode i ++ rest

/-- R92, R93, R104 (a), (b), R106: the selector map. -/
def Obligations.SelectorMap : Prop :=
  ∀ (sel : Byte) (rest : List Byte),
    (decodeBlock (sel :: rest) = .error .reservedSelector ↔ 0x90 ≤ sel.toNat)
      ∧ (sel.toNat < 0x40 →
          decodeSelector sel = some (.deltaI, Fin.ofNat 4 (sel.toNat / 16), sel.toNat % 16))
      ∧ (0x40 ≤ sel.toNat → sel.toNat < 0x80 →
          decodeSelector sel = some (.deltaE, Fin.ofNat 4 (sel.toNat / 16), sel.toNat % 16))
      ∧ (0x80 ≤ sel.toNat → sel.toNat < 0x90 →
          decodeSelector sel = some (.repeatRun, 0, sel.toNat % 16))

/-- R114, R296: a reserved command word, and no other, is refused by the decoder; latched, it
completes at the first engine step with BadCommand, RESULT = 0 and nothing else changed. -/
def Obligations.ReservedCommandWordsAreBadCommand : Prop :=
  ∀ (v : Word),
    (decodeCommand v = .error .reservedCommand
        ↔ v.toNat / 64 ≠ 0 ∨ ¬ (v.toNat % 16 = 1 ∨ v.toNat % 16 = 2 ∨ v.toNat % 16 = 3))
      ∧ ∀ s : State, s.latch.cmd = v → s.phase = .check →
          (v.toNat / 64 ≠ 0 ∨ ¬ (v.toNat % 16 = 1 ∨ v.toNat % 16 = 2 ∨ v.toNat % 16 = 3)) →
          engineStep s = .next
            { s with phase := .idle, done := true, err := .badCommand, result := 0#64 }

/-! ## Primitives (40_primitives.md) -/

/-- R131, R133: zig-zag maps a signed v to 2v, or to -2v - 1 below zero, and is a bijection of the
64-bit patterns. -/
def Obligations.ZigzagFoldsSignedValues : Prop :=
  (∀ d : Word, ((zz d).toNat : Int) = if 0 ≤ d.toInt then 2 * d.toInt else -2 * d.toInt - 1)
    ∧ (∀ d : Word, unzz (zz d) = d) ∧ (∀ z : Word, zz (unzz z) = z)

/-- R135: a width class covers exactly the values whose code is not above it. -/
def Obligations.WidthClassCovers : Prop :=
  ∀ (w : WidthCode) (z : Word),
    bytesOf w = 2 ^ w.val ∧ (z.toNat < 256 ^ bytesOf w ↔ wc z ≤ w)

/-- R137: reconstruction is the sum of the reference and the unfolded field, gives back every
element, and repeats along a block: each element is the one before it plus its unfolded field. -/
def Obligations.ReconstructionIsExact : Prop :=
  (∀ r z : Word, reconstruct r z = r + unzz z)
    ∧ (∀ a b : Word, reconstruct b (zz (delta a b)) = a)
    ∧ ∀ (r : Word) (zs : List Word) (j : Nat), j < zs.length →
        (reconstructAll r zs).getD j 0#64
          = (if j = 0 then r else (reconstructAll r zs).getD (j - 1) 0#64)
            + unzz (zs.getD j 0#64)

/-! ## The encoder (42_encoder.md) -/

/-- R183, R185, R186: a block extends while its next element continues it, and stops only at the
end of the input, at MAX_BLOCK, or at an element that does not. -/
def Obligations.BlocksExtendGreedily : Prop :=
  ∀ (maxB : Nat) (x : Nat → Word) (n : Nat) (mode : Mode) (s : Nat) (w : WidthCode) (nb : Nat),
    nb ≤ extendScalar maxB x n mode s w nb
      ∧ (∀ j, nb ≤ j → j < extendScalar maxB x n mode s w nb →
          s + j < n ∧ j < maxB ∧ cont x mode s w (s + j) = true)
      ∧ (n ≤ s + extendScalar maxB x n mode s w nb
          ∨ maxB ≤ extendScalar maxB x n mode s w nb
          ∨ cont x mode s w (s + extendScalar maxB x n mode s w nb) = false)

/-- R99, R182, R184, R187, R188: the encoder's blocks are well-formed, spell a count long exactly when
it is above 15, cover the input once, and use DELTA.E for the first block only and DELTA.I never for
it; the width code of a delta block is the class of its first field (and, being well-formed, covers
the others). -/
def Obligations.EncoderBlocksAreCanonical : Prop :=
  ∀ (xs : List Word),
    let blocks :=
      blocksFrom (extendScalar Config.maxBlock (elemAt xs) xs.length) (elemAt xs) xs.length
        xs.length 0
    encodeSeq xs = blocks.flatMap encode ++ encode .footer
      ∧ (∀ i ∈ blocks, i.wf = true ∧ i.isBlock = true)
      ∧ (∀ i ∈ blocks, spelledLong i = decide (15 < blockCount i))
      ∧ (blocks.map blockCount).sum = xs.length
      ∧ (∀ i, blocks.head? = some i → needsReference i = false)
      ∧ (∀ i ∈ blocks.tail, ∀ c w r zs, i ≠ .deltaE c w r zs)
      ∧ (∀ c w r zs z, .deltaE c w r zs ∈ blocks → zs.head? = some z → w = wc z)
      ∧ (∀ c w zs z, .deltaI c w zs ∈ blocks → zs.head? = some z → w = wc z)

/-- R213: the output is never longer than 9n + 7, and for 0 and 1 elements it is exactly as long. -/
def Obligations.EncoderOutputIsBounded : Prop :=
  (∀ xs : List Word, (encodeSeq xs).length ≤ maxCompressedSize xs.length)
    ∧ (encodeSeq []).length = maxCompressedSize 0
    ∧ (∀ v : Word, (encodeSeq [v]).length = maxCompressedSize 1)

/-- R195: the byte at L - 7 is the format marker. -/
def Obligations.FooterMarkerStandsSevenFromTheEnd : Prop :=
  ∀ xs : List Word, 7 ≤ (encodeSeq xs).length
    ∧ (encodeSeq xs).getD ((encodeSeq xs).length - 7) 0#8 = 0x4D#8

/-- R196: what the encoder writes decodes to its input. -/
def Obligations.DecodingUndoesEncoding : Prop :=
  ∀ xs : List Word, decodeBuf (encodeSeq xs) xs.length = .ok xs

/-- R262, R268: the vector encoder writes the scalar encoder's bytes, for every LANES of 1 or more
and every MAX_BLOCK. -/
def Obligations.VectorEncoderWritesTheSameBytes : Prop :=
  ∀ (lanes maxB : Nat) (xs : List Word), 1 ≤ lanes →
    encodeSeqVec lanes maxB xs = encodeSeqWith maxB xs

/-- R262, R275: the vector decoder gives the scalar decoder's result, for every LANES of 1 or more. -/
def Obligations.VectorDecoderGivesTheSameResult : Prop :=
  ∀ (lanes : Nat) (bs : List Byte) (cnt : Nat), 1 ≤ lanes →
    decodeBufVec lanes bs cnt = decodeBuf bs cnt

/-- R222 (and the marker's place in R223): the checks on the buffer's length and marker. -/
def Obligations.LengthAndMarkerAreCheckedFirst : Prop :=
  ∀ (bs : List Byte) (cnt : Nat),
    (bs.length = 0 → cnt = 0 → decodeBuf bs cnt = .ok [])
      ∧ (bs.length = 0 → cnt ≠ 0 → decodeBuf bs cnt = .error .lengthMismatch)
      ∧ (1 ≤ bs.length → bs.length ≤ 6 → decodeBuf bs cnt = .error .truncatedInput)
      ∧ (7 ≤ bs.length → bs.getD (bs.length - 7) 0#8 ≠ 0x4D#8 →
          decodeBuf bs cnt = .error .unsupportedFormat)

/-! ## MAXSIZE (43_sizing.md) -/

/-- R210, R211, R212: MAXSIZE gives 9n + 7 up to its limit, which fits the register, and BadCommand
above it; nothing else changes. -/
def Obligations.MaxsizeGivesTheBound : Prop :=
  ∀ (eng : EngineSel) (kind : ElemKind) (s : State), s.phase = .check →
    (s.latch.n.toNat ≤ 2049638230412172400 →
        exec (.maxsize eng kind) s = .next
          { s with
            phase := .idle, done := true, err := .none
            result := BitVec.ofNat 64 (9 * s.latch.n.toNat + 7) }
        ∧ (BitVec.ofNat 64 (9 * s.latch.n.toNat + 7)).toNat = 9 * s.latch.n.toNat + 7)
      ∧ (2049638230412172400 < s.latch.n.toNat →
        exec (.maxsize eng kind) s = .next
          { s with phase := .idle, done := true, err := .badCommand, result := 0#64 })

/-! ## The checks of a command (46_host_interface.md) -/

/-- R297: when the arguments of a command fail checkCommand. -/
def Obligations.ArgumentChecks : Prop :=
  ∀ l : Latches,
    (argsOk .maxsize l = false ↔ l.n.toNat > 2049638230412172400)
      ∧ (argsOk .compress l = false ↔
          l.src.toNat % 8 ≠ 0 ∨ l.src.toNat + 8 * l.n.toNat > 2 ^ 64
            ∨ l.dst.toNat + l.cap.toNat > 2 ^ 64
            ∨ (l.n.toNat > 0 ∧ l.cap.toNat > 0 ∧ l.src.toNat < l.dst.toNat + l.cap.toNat
                ∧ l.dst.toNat < l.src.toNat + 8 * l.n.toNat))
      ∧ (argsOk .decompress l = false ↔
          l.dst.toNat % 8 ≠ 0 ∨ l.dst.toNat + 8 * l.n.toNat > 2 ^ 64
            ∨ l.src.toNat + l.srcLen.toNat > 2 ^ 64
            ∨ (l.n.toNat > 0 ∧ l.srcLen.toNat > 0 ∧ l.src.toNat < l.dst.toNat + 8 * l.n.toNat
                ∧ l.dst.toNat < l.src.toNat + l.srcLen.toNat))

/-- R181, R297, R298, R328: a bad argument is reported before a short capacity, a short capacity
before any access, on both engines; memory and everything but the completion record are unchanged. -/
def Obligations.ChecksComeBeforeAnyAccess : Prop :=
  ∀ (kind : ElemKind) (s : State), s.phase = .check →
    (∀ i : Instr, i = .compressS kind ∨ i = .compressV kind →
        (argsOk .compress s.latch = false →
            exec i s = .next
              { s with phase := .idle, done := true, err := .badCommand, result := 0#64 })
          ∧ (argsOk .compress s.latch = true → s.latch.cap.toNat < 9 * s.latch.n.toNat + 7 →
            exec i s = .next
              { s with phase := .idle, done := true, err := .bufferTooSmall, result := 0#64 }))
      ∧ (∀ i : Instr, i = .decompressS kind ∨ i = .decompressV kind →
        argsOk .decompress s.latch = false →
        exec i s = .next
          { s with phase := .idle, done := true, err := .badCommand, result := 0#64 })

/-! ## COMPRESS -/

/-- R180, R190, R198: COMPRESS.S with its steps merged (R32) writes encodeSeq of its input at dst,
RESULT is the used length, and every byte outside keeps its value. `stale` is the model's record of
what a host with COHERENT = false must invalidate (log entry 6). -/
def Obligations.CompressScalarWritesEncodeSeq : Prop :=
  ∀ (kind : ElemKind) (s : State),
    let bytes := encodeSeq (readElems s.mem s.latch.src.toNat s.latch.n.toNat)
    let dst := s.latch.dst.toNat
    s.phase = .check → s.grain = .command → argsOk .compress s.latch = true →
    9 * s.latch.n.toNat + 7 ≤ s.latch.cap.toNat →
    accessesAdmitted s (readRegion s.latch) ⟨dst, bytes.length⟩ = true →
    exec (.compressS kind) s = .next
        { s with
          phase := .idle, done := true, err := .none, result := BitVec.ofNat 64 bytes.length
          mem := writeBytes s.mem dst bytes
          stale := if s.platform.coherent then s.stale else ⟨dst, bytes.length⟩ :: s.stale }
      ∧ (s.mem.wf = true →
          readBytes (writeBytes s.mem dst bytes) dst bytes.length = bytes
            ∧ ∀ a, (a < dst ∨ dst + bytes.length ≤ a) →
                readByte (writeBytes s.mem dst bytes) a = readByte s.mem a)

/-- R260: COMPRESS.V with its steps merged writes what the lane steps give at dst. -/
def Obligations.CompressVectorWritesItsBytes : Prop :=
  ∀ (kind : ElemKind) (s : State),
    let bytes := encodeSeqVec 8 4294967295 (readElems s.mem s.latch.src.toNat s.latch.n.toNat)
    let dst := s.latch.dst.toNat
    s.phase = .check → s.grain = .command → argsOk .compress s.latch = true →
    9 * s.latch.n.toNat + 7 ≤ s.latch.cap.toNat →
    accessesAdmitted s (readRegion s.latch) ⟨dst, bytes.length⟩ = true →
    exec (.compressV kind) s = .next
        { s with
          phase := .idle, done := true, err := .none, result := BitVec.ofNat 64 bytes.length
          mem := writeBytes s.mem dst bytes
          stale := if s.platform.coherent then s.stale else ⟨dst, bytes.length⟩ :: s.stale }
      ∧ (s.mem.wf = true →
          ∀ a, (a < dst ∨ dst + bytes.length ≤ a) →
            readByte (writeBytes s.mem dst bytes) a = readByte s.mem a)

/-- R112, R113, R262: whole commands give the same next state on both engines and for both element
kinds. -/
def Obligations.EnginesAgreeOnWholeCommands : Prop :=
  ∀ (k k' : ElemKind) (s : State), s.phase = .check → s.grain = .command →
    exec (.compressV k) s = exec (.compressS k') s
      ∧ exec (.decompressV k) s = exec (.decompressS k') s

/-- R182 to R185, R200: the scalar encoder's engine steps. A block opens as a REPEAT where the next
element repeats the first or the sequence has one element, else as a DELTA.E at index 0 and a DELTA.I
elsewhere, with the class of its first delta. Bytes are written through the memory port (R13); `stale`
is the model's record of log entry 6. -/
def Obligations.ScalarEncoderSteps : Prop :=
  ∀ (kind : ElemKind) (s : State),
    let n := s.latch.n.toNat
    let x := fun j => readElem s.mem (s.latch.src.toNat + 8 * j)
    let e := s.enc
    let j := e.s + e.nb
    let opensRepeat := (e.i + 1 < n ∧ x (e.i + 1) = x e.i) ∨ (e.i = 0 ∧ n = 1)
    let goesOn := j < n ∧ e.nb < 2 ^ 32 - 1
      ∧ (if e.mode = .repeatMode then x j = x e.s else wc (zz (x j - x (j - 1))) ≤ e.w)
    let block := encode (emitBlock x e.mode e.s e.nb e.w)
    (s.phase = .scan → e.isOpen = false → n ≤ e.i →
        exec (.compressS kind) s = .next { s with phase := .encFooter })
      ∧ (s.phase = .scan → e.isOpen = false → e.i < n → opensRepeat →
        exec (.compressS kind) s = .next
          { s with enc := { e with s := e.i, mode := .repeatMode, w := 0, nb := 1, isOpen := true } })
      ∧ (s.phase = .scan → e.isOpen = false → e.i < n → ¬ opensRepeat → e.i = 0 →
        exec (.compressS kind) s = .next
          { s with
            enc := { e with
              s := 0, mode := .deltaE, w := wc (zz (x 1 - x 0)), nb := 2, isOpen := true } })
      ∧ (s.phase = .scan → e.isOpen = false → e.i < n → ¬ opensRepeat → e.i ≠ 0 →
        exec (.compressS kind) s = .next
          { s with
            enc := { e with
              s := e.i, mode := .deltaI, w := wc (zz (x e.i - x (e.i - 1))), nb := 1
              isOpen := true } })
      ∧ (s.phase = .scan → e.isOpen = true → goesOn →
        exec (.compressS kind) s = .next { s with enc := { e with nb := e.nb + 1 } })
      ∧ (s.phase = .scan → e.isOpen = true → ¬ goesOn →
        exec (.compressS kind) s = .next
          { s with
            mem := portWrite s.platform s.mem (s.latch.dst.toNat + e.o) block
            enc := { e with o := e.o + block.length, i := e.s + e.nb, isOpen := false } })
      ∧ (s.phase = .encFooter →
        exec (.compressS kind) s = .next
          { s with
            mem := portWrite s.platform s.mem (s.latch.dst.toNat + e.o)
              [0x4D#8, 0#8, 0#8, 0#8, 0#8, 0#8, 0#8]
            enc := { e with o := e.o + 7 }
            phase := .idle, done := true, err := .none, result := BitVec.ofNat 64 (e.o + 7)
            stale := if s.platform.coherent then s.stale
              else ⟨s.latch.dst.toNat, e.o + 7⟩ :: s.stale })

/-- R264, R269: a lane step of the vector encoder sets every lane's value and predicate and commits
the longest prefix of true predicates; then the block closes, or the search goes on by lane or
scalar steps. -/
def Obligations.EncoderLaneStepCommitsThePrefix : Prop :=
  ∀ (kind : ElemKind) (s : State),
    let x := fun j => readElem s.mem (s.latch.src.toNat + 8 * j)
    let e := s.enc
    let j := e.s + e.nb
    s.phase = .vLane →
    ∃ t, exec (.compressV kind) s = .next t
      ∧ (∀ k : Fin 8,
          t.lanes.v[k] = (if e.mode = .repeatMode then x (j + k.val)
            else zz (x (j + k.val) - x (j + k.val - 1)))
          ∧ t.lanes.pred[k] = (cont x e.mode e.s e.w (j + k.val)
              && decide (e.nb + k.val < 2 ^ 32 - 1)))
      ∧ t.lanes.m ≤ 8
      ∧ (∀ k : Fin 8, k.val < t.lanes.m → t.lanes.pred[k] = true)
      ∧ (∀ k : Fin 8, k.val = t.lanes.m → t.lanes.pred[k] = false)
      ∧ t.enc = { e with nb := e.nb + t.lanes.m }
      ∧ (t.lanes.m < 8 → t.phase = .vEmit)
      ∧ (t.lanes.m = 8 → t.phase =
          if j + 8 < s.latch.n.toNat ∧ e.nb + 8 < 2 ^ 32 - 1 then
            (if 8 ≤ s.latch.n.toNat - (j + 8) then .vLane else .vTail)
          else .vEmit)
      ∧ t.mem = s.mem ∧ t.dec = s.dec ∧ t.latch = s.latch ∧ t.result = s.result

/-! ## DECOMPRESS -/

/-- R221, R232, R234: DECOMPRESS.S with its steps merged (R32) writes the decoded elements at dst,
RESULT is n, and every byte outside keeps its value. `stale` as in log entry 6. -/
def Obligations.DecompressScalarWritesDecodeBuf : Prop :=
  ∀ (kind : ElemKind) (s : State) (xs : List Word),
    let dst := s.latch.dst.toNat
    s.phase = .check → s.grain = .command → argsOk .decompress s.latch = true →
    accessesAdmitted s (readRegion s.latch) (errorRegion s.latch) = true →
    decodeBuf (readBytes s.mem s.latch.src.toNat s.latch.srcLen.toNat) s.latch.n.toNat = .ok xs →
    exec (.decompressS kind) s = .next
        { s with
          phase := .idle, done := true, err := .none, result := s.latch.n
          mem := writeBytes s.mem dst (elemBytes xs)
          stale := if s.platform.coherent then s.stale else errorRegion s.latch :: s.stale }
      ∧ (s.mem.wf = true →
          readElems (writeBytes s.mem dst (elemBytes xs)) dst s.latch.n.toNat = xs
            ∧ ∀ a, (a < dst ∨ dst + 8 * s.latch.n.toNat ≤ a) →
                readByte (writeBytes s.mem dst (elemBytes xs)) a = readByte s.mem a)

/-- R270: DECOMPRESS.V with its steps merged writes the elements the lane steps give. -/
def Obligations.DecompressVectorWritesItsElements : Prop :=
  ∀ (kind : ElemKind) (s : State) (xs : List Word),
    let dst := s.latch.dst.toNat
    s.phase = .check → s.grain = .command → argsOk .decompress s.latch = true →
    accessesAdmitted s (readRegion s.latch) (errorRegion s.latch) = true →
    decodeBufVec 8 (readBytes s.mem s.latch.src.toNat s.latch.srcLen.toNat) s.latch.n.toNat
      = .ok xs →
    exec (.decompressV kind) s = .next
        { s with
          phase := .idle, done := true, err := .none, result := s.latch.n
          mem := writeBytes s.mem dst (elemBytes xs)
          stale := if s.platform.coherent then s.stale else errorRegion s.latch :: s.stale }
      ∧ (s.mem.wf = true →
          ∀ a, (a < dst ∨ dst + 8 * s.latch.n.toNat ≤ a) →
            readByte (writeBytes s.mem dst (elemBytes xs)) a = readByte s.mem a)

/-- R221, R234, R235: a buffer that does not decode ends DECOMPRESS, on either engine, with the
decoder's code and RESULT = 0; outside [dst, dst + 8n) every byte keeps its value, and so does all
else but the completion record and the model's `stale` (log entry 6). -/
def Obligations.DecompressReportsTheDecodersError : Prop :=
  ∀ (kind : ElemKind) (s : State) (e : ErrCode),
    s.mem.wf = true → s.phase = .check → s.grain = .command →
    argsOk .decompress s.latch = true →
    accessesAdmitted s (readRegion s.latch) (errorRegion s.latch) = true →
    decodeBuf (readBytes s.mem s.latch.src.toNat s.latch.srcLen.toNat) s.latch.n.toNat
      = .error e →
    (decodeCommand s.latch.cmd = .ok (.decompressS kind)
      ∨ decodeCommand s.latch.cmd = .ok (.decompressV kind)) →
    ∃ t, engineStep s = .next t
      ∧ t = { s with
          phase := .idle, done := true, err := e, result := 0#64, mem := t.mem
          stale := t.stale }
      ∧ ∀ a, (a < s.latch.dst.toNat ∨ s.latch.dst.toNat + 8 * s.latch.n.toNat ≤ a) →
          readByte t.mem a = readByte s.mem a

/-- R326, R328: a command one of whose bytes the platform refuses ends as if every byte were admitted
(log entry 10), the decoder's errors included, or with BusError; with an error RESULT is 0, and every
byte outside the error region keeps its value (inside it, log entry 12). -/
def Obligations.CommandsOnRefusedBytes : Prop :=
  ∀ (kind : ElemKind) (s : State),
    let dst := s.latch.dst.toNat
    let n := s.latch.n.toNat
    s.mem.wf = true → s.phase = .check →
    (∀ bytes, bytes = encodeSeq (readElems s.mem s.latch.src.toNat n) →
        decodeCommand s.latch.cmd = .ok (.compressS kind) → argsOk .compress s.latch = true →
        9 * n + 7 ≤ s.latch.cap.toNat →
        accessesAdmitted s (readRegion s.latch) ⟨dst, bytes.length⟩ = false →
        ∃ t, exec (.compressS kind) s = .next t ∧ t.phase = .idle ∧ t.done = true
          ∧ ((t.err = .none ∧ t.result = BitVec.ofNat 64 bytes.length
                ∧ t.mem = writeBytes s.mem dst bytes)
            ∨ (t.err = .busError ∧ t.result = 0#64
                ∧ ∀ a, (a < dst ∨ dst + (9 * n + 7) ≤ a) →
                    readByte t.mem a = readByte s.mem a)))
      ∧ (decodeCommand s.latch.cmd = .ok (.decompressS kind) → argsOk .decompress s.latch = true →
        accessesAdmitted s (readRegion s.latch) (errorRegion s.latch) = false →
        ∃ t, exec (.decompressS kind) s = .next t ∧ t.phase = .idle ∧ t.done = true
          ∧ ((∃ xs, decodeBuf (readBytes s.mem s.latch.src.toNat s.latch.srcLen.toNat) n = .ok xs
                ∧ t.err = .none ∧ t.result = s.latch.n
                ∧ t.mem = writeBytes s.mem dst (elemBytes xs))
            ∨ ((t.err = .busError
                  ∨ decodeBuf (readBytes s.mem s.latch.src.toNat s.latch.srcLen.toNat) n
                      = .error t.err)
                ∧ t.result = 0#64
                ∧ ∀ a, (a < dst ∨ dst + 8 * n ≤ a) → readByte t.mem a = readByte s.mem a)))

/-! ## The stream forms (41_blocks.md) -/

/-- R150, R168, R232, R233: REPEAT writes its n copies of V from dst + 8k on, leaves V as the running
reference and p after the block, on either engine; all else but the engine's block and lane
registers is unchanged, and so is every other byte, and every byte the platform refuses (R13, R67). -/
def Obligations.RepeatWritesItsCopies : Prop :=
  ∀ (cnt : BlockCount) (v : Word) (s : State),
    let at' := s.latch.dst.toNat + 8 * s.dec.k
    let m := portWrite s.platform s.mem at' (elemBytes (List.replicate cnt.n v))
    s.phase = .hdr → 1 ≤ cnt.n → s.dec.p + (hdrLen cnt + 8) ≤ s.dec.endOff →
    s.dec.k + cnt.n ≤ s.latch.n.toNat →
    ∃ lanes, exec (.repeatBlock cnt v) s = .next
        { s with
          mem := m
          lanes := lanes
          dec := { s.dec with
            p := s.dec.p + (hdrLen cnt + 8), k := s.dec.k + cnt.n, prev := v, hasPrev := true
            kind := .repeatRun, w := 0, nb := cnt.n, h := hdrLen cnt, j := cnt.n
            q := s.dec.p + (hdrLen cnt + 8) } }
      ∧ (runningEngine s = .scalar → lanes = s.lanes)
      ∧ (s.mem.wf = true →
          (at' + 8 * cnt.n ≤ 2 ^ 64 →
            admitsRegion s.platform .write ⟨at', 8 * cnt.n⟩ = true →
            readElems m at' cnt.n = List.replicate cnt.n v)
          ∧ ∀ a, (a < at' ∨ at' + 8 * cnt.n ≤ a ∨ memAdmits s.platform .write a = false) →
            readByte m a = readByte s.mem a)

/-- R155, R168, R232, R233: DELTA.E writes R and then the cumulative sums of its fields;
the rest as for REPEAT. -/
def Obligations.DeltaExplicitWritesItsSums : Prop :=
  ∀ (cnt : BlockCount) (w : WidthCode) (ref : Word) (zs : List Word) (s : State),
    let es := ref :: reconstructAll ref zs
    let len := hdrLen cnt + (8 + (cnt.n - 1) * 2 ^ w.val)
    let at' := s.latch.dst.toNat + 8 * s.dec.k
    let m := portWrite s.platform s.mem at' (elemBytes es)
    s.phase = .hdr → zs.length + 1 = cnt.n → s.dec.p + len ≤ s.dec.endOff →
    s.dec.k + cnt.n ≤ s.latch.n.toNat →
    ∃ lanes, exec (.deltaE cnt w ref zs) s = .next
        { s with
          mem := m
          lanes := lanes
          dec := { s.dec with
            p := s.dec.p + len, k := s.dec.k + cnt.n, prev := es.getLastD ref, hasPrev := true
            kind := .deltaE, w := w, nb := cnt.n, h := hdrLen cnt, j := cnt.n
            q := s.dec.p + len } }
      ∧ (runningEngine s = .scalar → lanes = s.lanes)
      ∧ (s.mem.wf = true →
          (at' + 8 * cnt.n ≤ 2 ^ 64 →
            admitsRegion s.platform .write ⟨at', 8 * cnt.n⟩ = true →
            readElems m at' cnt.n = es)
          ∧ ∀ a, (a < at' ∨ at' + 8 * cnt.n ≤ a ∨ memAdmits s.platform .write a = false) →
            readByte m a = readByte s.mem a)

/-- R160, R168, R232, R233: DELTA.I writes the cumulative sums of its fields from the running
reference; the rest as for REPEAT. -/
def Obligations.DeltaInheritedWritesItsSums : Prop :=
  ∀ (cnt : BlockCount) (w : WidthCode) (zs : List Word) (s : State),
    let es := reconstructAll s.dec.prev zs
    let len := hdrLen cnt + cnt.n * 2 ^ w.val
    let at' := s.latch.dst.toNat + 8 * s.dec.k
    let m := portWrite s.platform s.mem at' (elemBytes es)
    s.phase = .hdr → s.dec.hasPrev = true → 1 ≤ cnt.n → zs.length = cnt.n →
    s.dec.p + len ≤ s.dec.endOff → s.dec.k + cnt.n ≤ s.latch.n.toNat →
    ∃ lanes, exec (.deltaI cnt w zs) s = .next
        { s with
          mem := m
          lanes := lanes
          dec := { s.dec with
            p := s.dec.p + len, k := s.dec.k + cnt.n, prev := es.getLastD s.dec.prev
            hasPrev := true, kind := .deltaI, w := w, nb := cnt.n, h := hdrLen cnt, j := cnt.n
            q := s.dec.p + len } }
      ∧ (runningEngine s = .scalar → lanes = s.lanes)
      ∧ (s.mem.wf = true →
          (at' + 8 * cnt.n ≤ 2 ^ 64 →
            admitsRegion s.platform .write ⟨at', 8 * cnt.n⟩ = true →
            readElems m at' cnt.n = es)
          ∧ ∀ a, (a < at' ∨ at' + 8 * cnt.n ≤ a ∨ memAdmits s.platform .write a = false) →
            readByte m a = readByte s.mem a)

/-- R105, R229, R230, R231: a block that fails a check is reported in the order of R229 before any
element of it is written; the completion leaves the error region free. -/
def Obligations.BlocksFailInTheOrderOfTheChecks : Prop :=
  ∀ (i : Instr) (s : State), i.isBlock = true → s.phase = .hdr →
    (needsReference i = true → s.dec.hasPrev = false →
        exec i s = .next (s.raiseDirty .unsupportedFormat))
      ∧ ((needsReference i = false ∨ s.dec.hasPrev = true) → 1 ≤ blockCount i →
        s.dec.endOff < s.dec.p + i.byteLen → exec i s = .next (s.raiseDirty .truncatedInput))
      ∧ ((needsReference i = false ∨ s.dec.hasPrev = true) → 1 ≤ blockCount i →
        s.dec.p + i.byteLen ≤ s.dec.endOff → s.latch.n.toNat - s.dec.k < blockCount i →
        exec i s = .next (s.raiseDirty .lengthMismatch))

/-- R165, R222, R223: FOOTER in a DECOMPRESS: the marker decides, and the block region ends at
L - 7. `stale` is the model's record of log entry 6. -/
def Obligations.FooterOpensTheBlockRegion : Prop :=
  ∀ (s : State), s.phase = .mark →
    let off := s.latch.src.toNat + (s.latch.srcLen.toNat - 7)
    (7 ≤ s.latch.srcLen.toNat → readByte s.mem off = 0x4D#8 →
        exec .footer s = .next
          { s with phase := .hdr, dec := { s.dec with endOff := s.latch.srcLen.toNat - 7 } })
      ∧ (7 ≤ s.latch.srcLen.toNat → readByte s.mem off ≠ 0x4D#8 →
        exec .footer s = .next (s.raiseDirty .unsupportedFormat))
      ∧ (s.latch.srcLen.toNat < 7 → s.latch.srcLen ≠ 0#64 →
        exec .footer s = .next (s.raiseDirty .truncatedInput))
      ∧ (s.latch.srcLen = 0#64 → s.latch.n ≠ 0#64 →
        exec .footer s = .next (s.raiseDirty .lengthMismatch))
      ∧ (s.latch.srcLen = 0#64 → s.latch.n = 0#64 →
        exec .footer s = .next
          { s with
            phase := .idle, done := true, err := .none, result := 0#64
            stale := if s.platform.coherent then s.stale else errorRegion s.latch :: s.stale })

/-- R229, R237: the checks a block's bytes meet on the way through the decoder of bytes are those
written by offsets: both find the same first failure, or the same block. -/
def Obligations.HeaderChecksAgreeWithDecoding : Prop :=
  ∀ (s : State), s.dec.p < s.dec.endOff →
    match decodeBlock (blockBytesAt s) with
    | .error r => headerAt s = .error (rejectCode s.dec.hasPrev r)
    | .ok (i, _) =>
      match blockError i s with
      | some e => headerAt s = .error e
      | none => headerAt s = .ok
          ⟨(blockShape i).1, (blockShape i).2.1, blockCount i, (blockShape i).2.2⟩

/-- R237: the scalar decoder's engine steps at a block's header, whose first failing check ends
the command, and at the end. `stale` is the model's record of log entry 6. -/
def Obligations.DecoderHeaderAndEndSteps : Prop :=
  ∀ (kind : ElemKind) (s : State),
    (s.phase = .hdr → s.dec.k = s.latch.n.toNat →
        exec (.decompressS kind) s = .next { s with phase := .fin })
      ∧ (s.phase = .hdr → s.dec.k ≠ s.latch.n.toNat → s.dec.p = s.dec.endOff →
        exec (.decompressS kind) s = .next (s.raiseDirty .lengthMismatch))
      ∧ (∀ b, s.phase = .hdr → s.dec.k ≠ s.latch.n.toNat → s.dec.p ≠ s.dec.endOff →
        headerAt s = .ok b → runningEngine s = .scalar →
        exec (.decompressS kind) s = .next
          { s with
            phase := .elem
            dec := { s.dec with
              kind := b.kind, w := b.w, nb := b.nb, h := b.h, j := 0, q := s.dec.p + b.h } })
      ∧ (∀ e, s.phase = .hdr → s.dec.k ≠ s.latch.n.toNat → s.dec.p ≠ s.dec.endOff →
        headerAt s = .error e → exec (.decompressS kind) s = .next (s.raiseDirty e))
      ∧ (s.phase = .fin → s.dec.p = s.dec.endOff →
        exec (.decompressS kind) s = .next
          { s with
            phase := .idle, done := true, err := .none, result := s.latch.n
            stale := if s.platform.coherent then s.stale else errorRegion s.latch :: s.stale })
      ∧ (s.phase = .fin → s.dec.p ≠ s.dec.endOff →
        exec (.decompressS kind) s = .next (s.raiseDirty .lengthMismatch))

/-- R271: one lane step of the vector decoder over a delta block's fields leaves what LANES scalar
steps leave, but for the lane registers. -/
def Obligations.DecoderLaneStepIsLanesScalarSteps : Prop :=
  ∀ (s : State), s.sound = true → s.phase = .dLane → s.dec.kind ≠ .repeatRun →
    runningEngine s = .vector →
    { deltaLaneStep s with lanes := s.lanes } = (elemStep)^[8] s

/-! ## The whole machine -/

/-- R32, R33, R167, R296: when the engine moves, a step runs exactly the instruction its phase
fetches: the footer in MARK, the block at p in HDR where blocks run whole, and the latched command
in every other case; around it the step only advances the model's tick. -/
def Obligations.StepRunsTheDecodedInstruction : Prop :=
  ∀ (s : State), mover s = .engine →
    (∀ i, s.phase = .mark → 7 ≤ s.latch.srcLen.toNat → decodeFooter (footerBytesAt s) = .ok i →
        step s = advance (exec i s))
      ∧ (∀ i rest, s.phase = .hdr → s.grain ≠ .element → s.dec.k ≠ s.latch.n.toNat →
        s.dec.p ≠ s.dec.endOff → decodeBlock (blockBytesAt s) = .ok (i, rest) →
        step s = advance (exec i s))
      ∧ (∀ i, s.phase ≠ .mark →
        (s.phase ≠ .hdr ∨ s.grain = .element ∨ s.dec.k = s.latch.n.toNat
          ∨ s.dec.p = s.dec.endOff) →
        decodeCommand s.latch.cmd = .ok i → step s = advance (exec i s))

/-- R23, R25, R41, R42: what the registers read after reset, and the interrupt line. -/
def Obligations.ResetRegistersReadAsStated : Prop :=
  regRead State.reset 0x00 = 0x000000000007084D#64
    ∧ (∀ off, off ≠ 0x00 → regRead State.reset off = 0#64)
    ∧ State.reset.phase = .idle ∧ State.reset.irq = false

/-- The state right after reset is sound. -/
def Obligations.ResetIsSound : Prop := State.reset.sound = true

/-- R360, R362: the reset event from any state: the registers of R23, the phase, and every byte
outside a running command's error region; the engine's other registers keep their values. -/
def Obligations.ResetEventRestoresTheRegisters : Prop :=
  ∀ (s : State), s.mem.wf = true →
    (∀ off, regRead s.resetEvent off = regRead State.reset off)
      ∧ s.resetEvent.phase = .idle ∧ s.resetEvent.irq = false
      ∧ (∀ a, (s.phase = .idle ∨ (errorRegion s.latch).contains a = false
            ∨ memAdmits s.platform .write a = false) →
          readByte s.resetEvent.mem a = readByte s.mem a)
      ∧ s.resetEvent.latch = s.latch ∧ s.resetEvent.enc = s.enc ∧ s.resetEvent.dec = s.dec
      ∧ s.resetEvent.platform = s.platform ∧ s.resetEvent.inbox = s.inbox

/-- Every step keeps memory in its canonical form. -/
def Obligations.MemoryStaysCanonical : Prop :=
  ∀ s t : State, s.mem.wf = true → step s = .next t → t.mem.wf = true

/-- R22, R32, R71, R232: every step keeps a sound state sound: the phase stays one of the latched
command's, i, nb, o, p, k, j and q stay in the bounds that keep every access inside its region. -/
def Obligations.StepKeepsSoundness : Prop :=
  ∀ s t : State, s.sound = true → step s = .next t → t.sound = true

/-- R348, U23: from a sound state the engine never faults and refuses nothing. -/
def Obligations.EngineNeverStops : Prop :=
  ∀ s : State, s.sound = true → ∃ t, engineStep s = .next t

/-- R67, R71, R199, R235, R360: an engine step writes no byte outside the running command's error
region (for COMPRESS [dst, dst + 9n + 7), for DECOMPRESS [dst, dst + 8n)), and, once a command takes
its steps one by one, no byte the platform refuses, unless it ends with an error (log entry 12). -/
def Obligations.EngineWritesOnlyItsRegion : Prop :=
  ∀ (s t : State), s.sound = true → engineStep s = .next t →
    (∀ a, (errorRegion s.latch).contains a = false → readByte t.mem a = readByte s.mem a)
      ∧ (s.phase ≠ .check → t.busy = true ∨ t.err = .none →
        ∀ a, memAdmits s.platform .write a = false → readByte t.mem a = readByte s.mem a)

/-- R33, R38, R298, R335: an engine step changes no argument register, not CTRL, not DROP, not the
latches, not the platform, and nothing of the agents outside. The last step of a command writes its
one completion record: BUSY = 0, DONE = 1, RESULT = 0 with an error; until then the record is left
alone. -/
def Obligations.EngineWritesOnlyTheCompletionRecord : Prop :=
  ∀ (s t : State), engineStep s = .next t →
    (t.src = s.src ∧ t.srcLen = s.srcLen ∧ t.dst = s.dst ∧ t.dstCap = s.dstCap
      ∧ t.count = s.count ∧ t.ie = s.ie ∧ t.drop = s.drop ∧ t.latch = s.latch
      ∧ t.platform = s.platform ∧ t.inbox = s.inbox ∧ t.reply = s.reply ∧ t.others = s.others
      ∧ t.dirty = s.dirty)
    ∧ (s.busy = true → t.busy = false → t.done = true ∧ (t.err ≠ .none → t.result = 0#64))
    ∧ (t.busy = true → t.done = s.done ∧ t.err = s.err ∧ t.result = s.result)

/-- R27, R32, R371: while BUSY = 1 the host sees DONE = 0, ERR = 0 and RESULT = 0; every step keeps
this. -/
def Obligations.RunningShowsOnlyBusy : Prop :=
  ∀ s t : State,
    (s.busy = true → s.done = false ∧ s.err = .none ∧ s.result = 0#64) → step s = .next t →
    (t.busy = true → t.done = false ∧ t.err = .none ∧ t.result = 0#64)

/-- R341, R361: nothing but the reset event ends a running command from outside. -/
def Obligations.OnlyResetAbandonsACommand : Prop :=
  ∀ (s t : State), s.busy = true → hostStep s = .next t → t.busy = false →
    ∃ rest, s.inbox = .reset :: rest

/-- R330, R332: IRQ = CTRL.IE and STATUS.DONE. Over a step it rises exactly at a completion with
IE = 1, or at a CTRL write that sets IE while DONE = 1; it falls exactly when the host clears DONE or
IE, at a command start, or at the reset event. -/
def Obligations.InterruptLineFollowsItsEvents : Prop :=
  (∀ s : State, s.irq = (s.ie && s.done))
    ∧ ∀ (s t : State), (s.busy = true → s.done = false) → step s = .next t →
      (s.irq = false →
        (t.irq = true ↔
          (mover s = .engine ∧ s.ie = true ∧ t.busy = false)
            ∨ (mover s = .outside ∧ s.done = true
              ∧ ∃ a rest v, s.inbox = a :: rest ∧ registerWritten s a = some (0x08, v)
                ∧ v.getLsbD 0 = true)))
      ∧ (s.irq = true →
        (t.irq = false ↔
          mover s = .outside
            ∧ ∃ a rest, s.inbox = a :: rest
              ∧ (a = .reset
                ∨ ∃ v, (registerWritten s a = some (0x10, v) ∧ v.getLsbD 1 = true)
                  ∨ (registerWritten s a = some (0x08, v) ∧ v.getLsbD 0 = false)
                  ∨ registerWritten s a = some (0x18, v))))

/-- R306, U23: from every sound state the engine by itself reaches IDLE. -/
def Obligations.EveryCommandCompletes : Prop :=
  ∀ s : State, s.sound = true → ∃ k t, engineRun k s = .next t ∧ t.phase = .idle

/-- R18, R32, R200, R269: COMPRESS run by the engine steps of R200, or of R269 on the vector engine,
ends with the memory, ERR and RESULT of the command run at once (log entry 8). -/
def Obligations.StepwiseCompressEqualsWhole : Prop :=
  ∀ (i : Instr) (kind : ElemKind) (s w : State), i = .compressS kind ∨ i = .compressV kind →
    s.sound = true → s.phase = .check → s.grain ≠ .command → decodeCommand s.latch.cmd = .ok i →
    exec i { s with grain := .command } = .next w →
    ∃ k t, engineRun k s = .next t ∧ t.phase = .idle ∧ t.err = w.err ∧ t.result = w.result
      ∧ t.mem = w.mem

/-- R18, R32, R237, R276: DECOMPRESS run block by block, or by the engine steps of R237 and, on the
vector engine, of R276, ends with the ERR and RESULT of the command run at once, and on success with
its memory (log entry 8). -/
def Obligations.StepwiseDecompressEqualsWhole : Prop :=
  ∀ (i : Instr) (kind : ElemKind) (s w : State), i = .decompressS kind ∨ i = .decompressV kind →
    s.sound = true → s.phase = .check → s.grain ≠ .command → decodeCommand s.latch.cmd = .ok i →
    exec i { s with grain := .command } = .next w →
    ∃ k t, engineRun k s = .next t ∧ t.phase = .idle ∧ t.err = w.err ∧ t.result = w.result
      ∧ (w.err = .none → t.mem = w.mem)

/-- R72, R81, R197, R238: what a whole command reports depends on its latches and its read region
alone: two states that differ elsewhere in memory give the same ERR and RESULT. -/
def Obligations.ResultDependsOnTheReadRegionAlone : Prop :=
  ∀ (i : Instr) (s t u : State) (m : Memory), decodeCommand s.latch.cmd = .ok i →
    s.phase = .check → s.grain = .command →
    (∀ a, (readRegion s.latch).contains a = true → readByte m a = readByte s.mem a) →
    exec i s = .next t → exec i { s with mem := m } = .next u →
    t.err = u.err ∧ t.result = u.result

/-- R33, R295: an argument register write while a command runs reaches only the register; the
engine's step is what it would have been. -/
def Obligations.ArgumentWritesMissTheRunningCommand : Prop :=
  ∀ (s t : State) (off : Nat) (v : Word),
    off = 0x20 ∨ off = 0x28 ∨ off = 0x30 ∨ off = 0x38 ∨ off = 0x40 →
    engineStep s = .next t →
    ∃ s' t', regWrite off v s = .next s' ∧ regWrite off v t = .next t' ∧ regRead s' off = v
      ∧ engineStep s' = .next t'

/-! ## The host's side (46_host_interface.md) -/

/-- R23, R25, R26, R29, R30, R31, R290: an argument register reads back what was written; CTRL.IE is
bit 0 of what is written, and CTRL reads it alone; neither write changes another register; ID, RESULT
and the reserved offsets ignore writes; RESULT reads the result; the reserved offsets and CMD read 0. -/
def Obligations.RegistersReadAndWriteAsMapped : Prop :=
  ∀ (s : State) (v : Word),
    (∀ off, off = 0x20 ∨ off = 0x28 ∨ off = 0x30 ∨ off = 0x38 ∨ off = 0x40 →
        ∃ t, regWrite off v s = .next t ∧ regRead t off = v
          ∧ (∀ off', off' ≠ off → regRead t off' = regRead s off')
          ∧ t.latch = s.latch ∧ t.phase = s.phase ∧ t.mem = s.mem)
      ∧ (∃ t, regWrite 0x08 v s = .next t ∧ t = { s with ie := v.getLsbD 0 }
          ∧ regRead t 0x08 = v &&& 1#64 ∧ ∀ off, off ≠ 0x08 → regRead t off = regRead s off)
      ∧ (∀ off, off = 0x00 ∨ off = 0x48 ∨ 0x50 ≤ off → regWrite off v s = .next s)
      ∧ (∀ off, off = 0x18 ∨ 0x50 ≤ off → regRead s off = 0#64)
      ∧ regRead s 0x48 = s.result
      ∧ regRead s 0x00 = 0x7084D#64

/-- R27, R290, R291, R320: the fields of STATUS as it reads, and what a write of it does. -/
def Obligations.StatusFieldsReadAndClear : Prop :=
  ∀ s : State,
    ((statusWord s).getLsbD 0 = s.busy ∧ (statusWord s).getLsbD 1 = s.done
      ∧ (statusWord s).getLsbD 2 = s.drop ∧ (statusWord s).getLsbD 3 = false
      ∧ (statusWord s).toNat / 16 = errNumber s.err ∧ errNumber s.err ≤ 6
      ∧ regRead s 0x10 = statusWord s)
    ∧ ([ErrCode.none, .bufferTooSmall, .unsupportedFormat, .truncatedInput, .lengthMismatch,
        .badCommand, .busError].map errNumber = [0, 1, 2, 3, 4, 5, 6])
    ∧ ∀ v : Word, ∃ t, regWrite 0x10 v s = .next t
      ∧ t = { s with done := t.done, drop := t.drop }
      ∧ (t.done = true ↔ s.done = true ∧ v.getLsbD 1 = false)
      ∧ (t.drop = true ↔ s.drop = true ∧ v.getLsbD 2 = false)
      ∧ (v.getLsbD 1 = true → t.irq = false)

/-- R294: a write of CMD while BUSY sets DROP and does nothing else. -/
def Obligations.CommandWhileBusyIsDropped : Prop :=
  ∀ (s : State) (v : Word), s.busy = true → regWrite 0x18 v s = .next { s with drop := true }

/-- R293, R370 (d), (e): a write of CMD while IDLE, with no other instance in the way and cache
maintenance complete, latches the command and its arguments and starts it; DROP is unchanged and
the interrupt line falls. The grain is the model's choice (log entry 8). -/
def Obligations.CommandStartLatchesTheArguments : Prop :=
  ∀ (s : State) (v : Word), s.phase = .idle →
    s.others.any (conflicts (regionsOf (latchesFor v s))) = false →
    (s.platform.coherent = true ∨ s.dirty.any (readRegion (latchesFor v s)).overlaps = false) →
    ∃ t, regWrite 0x18 v s = .next t
      ∧ t = { s with
          latch := ⟨v, s.src, s.srcLen, s.dst, s.dstCap, s.count⟩
          done := false, err := .none, result := 0#64, phase := .check, grain := t.grain
          enc := { s.enc with i := 0, o := 0, isOpen := false }
          dec := { s.dec with p := 0, k := 0, hasPrev := false } }
      ∧ t.busy = true ∧ t.irq = false

/-- R20, R66, R68, R76, R80, R290, R302: the host's bus write of eight bytes at MMIO_BASE + off is
RegWrite(off, v), and its bus read of eight bytes there replies RegRead(off). A host write outside the
register block, and while BUSY outside the running command's regions, is performed and leaves every
register, the latches and the engine alone; a host read there replies the bytes, where the memory port
is coherent or the host has invalidated what the engine wrote (`dirty` and `stale`: log entry 6). -/
def Obligations.BusAccessesReachTheirTarget : Prop :=
  ∀ (s : State),
    (∀ (off : Nat) (v : Word), off % 8 = 0 → off < 0x100 →
        act (wr s.platform off v) s = regWrite off v s
          ∧ act (rd s.platform off) s = .next { s with reply := .reg (regRead s off) })
    ∧ (∀ (addr : Word) (bs : List Byte), s.mem.wf = true →
        addr.toNat + bs.length ≤ 2 ^ 64 →
        (registerBlock s.platform).overlaps ⟨addr.toNat, bs.length⟩ = false →
        (s.busy = true → (errorRegion s.latch).overlaps ⟨addr.toNat, bs.length⟩ = false
          ∧ (readRegion s.latch).overlaps ⟨addr.toNat, bs.length⟩ = false) →
        ∃ t, act (.store .host addr bs) s = .next t
          ∧ t = { s with mem := t.mem, dirty := t.dirty, stale := t.stale }
          ∧ readBytes t.mem addr.toNat bs.length = bs
          ∧ ∀ a, (a < addr.toNat ∨ addr.toNat + bs.length ≤ a) →
              readByte t.mem a = readByte s.mem a)
    ∧ (∀ (addr : Word) (n : Nat), addr.toNat + n ≤ 2 ^ 64 →
        (s.platform.coherent = true ∨ s.stale.any (·.overlaps ⟨addr.toNat, n⟩) = false) →
        (registerBlock s.platform).overlaps ⟨addr.toNat, n⟩ = false →
        (s.busy = true → (errorRegion s.latch).overlaps ⟨addr.toNat, n⟩ = false) →
        act (.load .host addr n) s
          = .next { s with reply := .bytes (readBytes s.mem addr.toNat n) })

/-- R68, R370: the host actions that have no meaning are refused, each by name: (a) another access to
the register block, and any by a master other than the host (log entry 26); (b), (c) an access to a
running command's region; (d) a command that would run with its regions over another's; (e) a CMD
write with the caches not cleaned. -/
def Obligations.RefusedActionsStopByName : Prop :=
  ∀ (s : State),
    (∀ (who : Master) (addr : Word) (n : Nat) (bs : List Byte),
      addr.toNat + n ≤ 2 ^ 64 → bs.length = n →
      ((registerBlock s.platform).overlaps ⟨addr.toNat, n⟩ = true →
          ¬ (n = 8 ∧ addr.toNat % 8 = 0) →
          act (.load who addr n) s = .refused .registerAccess
            ∧ act (.store who addr bs) s = .refused .registerAccess)
        ∧ ((registerBlock s.platform).overlaps ⟨addr.toNat, n⟩ = false → s.busy = true →
          (errorRegion s.latch).overlaps ⟨addr.toNat, n⟩ = true →
          act (.load who addr n) s = .refused (touchRefusal who)
            ∧ act (.store who addr bs) s = .refused (touchRefusal who))
        ∧ ((registerBlock s.platform).overlaps ⟨addr.toNat, n⟩ = false → s.busy = true →
          (readRegion s.latch).overlaps ⟨addr.toNat, n⟩ = true →
          act (.store who addr bs) s = .refused (touchRefusal who)))
    ∧ (∀ (off : Nat) (bs : List Byte), off % 8 = 0 → off < 0x100 → bs.length = 8 →
        act (.load .other (BitVec.ofNat 64 (mmioBase s.platform + off)) 8) s
            = .refused .masterTouchesRegister
          ∧ act (.store .other (BitVec.ofNat 64 (mmioBase s.platform + off)) bs) s
            = .refused .masterTouchesRegister)
    ∧ (∀ run : OtherRun, s.busy = true → conflicts run (regionsOf s.latch) = true →
        act (.otherStarts run) s = .refused .instancesOverlap)
    ∧ (∀ v : Word, s.phase = .idle →
        s.others.any (conflicts (regionsOf (latchesFor v s))) = true →
        regWrite 0x18 v s = .refused .instancesOverlap)
    ∧ (∀ v : Word, s.phase = .idle →
        s.others.any (conflicts (regionsOf (latchesFor v s))) = false →
        s.platform.coherent = false →
        s.dirty.any (readRegion (latchesFor v s)).overlaps = true →
        regWrite 0x18 v s = .refused .cacheMaintenance)

/-- A meaning met outside its instruction's phases stops by name, in states that no run reaches
(the model's own faults, log entry 11). -/
def Obligations.MeaningsStopOutsideTheirPhases : Prop :=
  ∀ (s : State) (kind : ElemKind),
    (∀ eng, s.phase ≠ .check → exec (.maxsize eng kind) s = .fault .commandNotRunning)
      ∧ (s.phase ∉ [Phase.check, .scan, .encFooter] →
        exec (.compressS kind) s = .fault .commandNotRunning)
      ∧ (s.phase ∉ [Phase.check, .vOpen, .vLane, .vTail, .vEmit, .vFoot] →
        exec (.compressV kind) s = .fault .commandNotRunning)
      ∧ (s.phase ∉ [Phase.check, .hdr, .elem, .fin] →
        exec (.decompressS kind) s = .fault .commandNotRunning)
      ∧ (s.phase ∉ [Phase.check, .hdr, .dLane, .dTail, .fin] →
        exec (.decompressV kind) s = .fault .commandNotRunning)
      ∧ (∀ i : Instr, i.isBlock = true → s.phase ≠ .hdr → exec i s = .fault .noStreamOpen)
      ∧ (s.phase ≠ .mark → exec .footer s = .fault .noStreamOpen)
end

