-- ==== Sys2Proof/Laws/State.lean ====
section
/-! SUPPORT. The fields of a state after each named update, each true by definition, so that no proof
unfolds a record update. Generated: one lemma per field per update. -/

namespace Sys2Proof.Laws

open Sys2Proof.Machine

/-! ## State.complete: the completion with a result (R335) -/

@[simp] theorem complete_ie (v : Word) (s : State) : (State.complete v s).ie = s.ie := rfl
@[simp] theorem complete_done (v : Word) (s : State) : (State.complete v s).done = true := rfl
@[simp] theorem complete_drop (v : Word) (s : State) : (State.complete v s).drop = s.drop := rfl
@[simp] theorem complete_err (v : Word) (s : State) : (State.complete v s).err = .none := rfl
@[simp] theorem complete_src (v : Word) (s : State) : (State.complete v s).src = s.src := rfl
@[simp] theorem complete_srcLen (v : Word) (s : State) :
    (State.complete v s).srcLen
      = s.srcLen := rfl
@[simp] theorem complete_dst (v : Word) (s : State) : (State.complete v s).dst = s.dst := rfl
@[simp] theorem complete_dstCap (v : Word) (s : State) :
    (State.complete v s).dstCap
      = s.dstCap := rfl
@[simp] theorem complete_count (v : Word) (s : State) : (State.complete v s).count = s.count := rfl
@[simp] theorem complete_result (v : Word) (s : State) : (State.complete v s).result = v := rfl
@[simp] theorem complete_phase (v : Word) (s : State) : (State.complete v s).phase = .idle := rfl
@[simp] theorem complete_latch (v : Word) (s : State) : (State.complete v s).latch = s.latch := rfl
@[simp] theorem complete_enc (v : Word) (s : State) : (State.complete v s).enc = s.enc := rfl
@[simp] theorem complete_dec (v : Word) (s : State) : (State.complete v s).dec = s.dec := rfl
@[simp] theorem complete_lanes (v : Word) (s : State) : (State.complete v s).lanes = s.lanes := rfl
@[simp] theorem complete_mem (v : Word) (s : State) : (State.complete v s).mem = s.mem := rfl
@[simp] theorem complete_platform (v : Word) (s : State) :
    (State.complete v s).platform
      = s.platform := rfl
@[simp] theorem complete_grain (v : Word) (s : State) : (State.complete v s).grain = s.grain := rfl
@[simp] theorem complete_inbox (v : Word) (s : State) : (State.complete v s).inbox = s.inbox := rfl
@[simp] theorem complete_reply (v : Word) (s : State) : (State.complete v s).reply = s.reply := rfl
@[simp] theorem complete_dirty (v : Word) (s : State) : (State.complete v s).dirty = s.dirty := rfl
@[simp] theorem complete_stale (v : Word) (s : State) : (State.complete v s).stale = s.stale := rfl
@[simp] theorem complete_others (v : Word) (s : State) :
    (State.complete v s).others
      = s.others := rfl
@[simp] theorem complete_tick (v : Word) (s : State) : (State.complete v s).tick = s.tick := rfl

/-! ## State.raise: the completion with an error (R335) -/

@[simp] theorem raise_ie (e : ErrCode) (s : State) : (State.raise e s).ie = s.ie := rfl
@[simp] theorem raise_done (e : ErrCode) (s : State) : (State.raise e s).done = true := rfl
@[simp] theorem raise_drop (e : ErrCode) (s : State) : (State.raise e s).drop = s.drop := rfl
@[simp] theorem raise_err (e : ErrCode) (s : State) : (State.raise e s).err = e := rfl
@[simp] theorem raise_src (e : ErrCode) (s : State) : (State.raise e s).src = s.src := rfl
@[simp] theorem raise_srcLen (e : ErrCode) (s : State) : (State.raise e s).srcLen = s.srcLen := rfl
@[simp] theorem raise_dst (e : ErrCode) (s : State) : (State.raise e s).dst = s.dst := rfl
@[simp] theorem raise_dstCap (e : ErrCode) (s : State) : (State.raise e s).dstCap = s.dstCap := rfl
@[simp] theorem raise_count (e : ErrCode) (s : State) : (State.raise e s).count = s.count := rfl
@[simp] theorem raise_result (e : ErrCode) (s : State) : (State.raise e s).result = 0#64 := rfl
@[simp] theorem raise_phase (e : ErrCode) (s : State) : (State.raise e s).phase = .idle := rfl
@[simp] theorem raise_latch (e : ErrCode) (s : State) : (State.raise e s).latch = s.latch := rfl
@[simp] theorem raise_enc (e : ErrCode) (s : State) : (State.raise e s).enc = s.enc := rfl
@[simp] theorem raise_dec (e : ErrCode) (s : State) : (State.raise e s).dec = s.dec := rfl
@[simp] theorem raise_lanes (e : ErrCode) (s : State) : (State.raise e s).lanes = s.lanes := rfl
@[simp] theorem raise_mem (e : ErrCode) (s : State) : (State.raise e s).mem = s.mem := rfl
@[simp] theorem raise_platform (e : ErrCode) (s : State) :
    (State.raise e s).platform
      = s.platform := rfl
@[simp] theorem raise_grain (e : ErrCode) (s : State) : (State.raise e s).grain = s.grain := rfl
@[simp] theorem raise_inbox (e : ErrCode) (s : State) : (State.raise e s).inbox = s.inbox := rfl
@[simp] theorem raise_reply (e : ErrCode) (s : State) : (State.raise e s).reply = s.reply := rfl
@[simp] theorem raise_dirty (e : ErrCode) (s : State) : (State.raise e s).dirty = s.dirty := rfl
@[simp] theorem raise_stale (e : ErrCode) (s : State) : (State.raise e s).stale = s.stale := rfl
@[simp] theorem raise_others (e : ErrCode) (s : State) : (State.raise e s).others = s.others := rfl
@[simp] theorem raise_tick (e : ErrCode) (s : State) : (State.raise e s).tick = s.tick := rfl

/-! ## State.start: the start of a command (R293) -/

@[simp] theorem start_ie (v : Word) (s : State) : (State.start v s).ie = s.ie := rfl
@[simp] theorem start_done (v : Word) (s : State) : (State.start v s).done = false := rfl
@[simp] theorem start_drop (v : Word) (s : State) : (State.start v s).drop = s.drop := rfl
@[simp] theorem start_err (v : Word) (s : State) : (State.start v s).err = .none := rfl
@[simp] theorem start_src (v : Word) (s : State) : (State.start v s).src = s.src := rfl
@[simp] theorem start_srcLen (v : Word) (s : State) : (State.start v s).srcLen = s.srcLen := rfl
@[simp] theorem start_dst (v : Word) (s : State) : (State.start v s).dst = s.dst := rfl
@[simp] theorem start_dstCap (v : Word) (s : State) : (State.start v s).dstCap = s.dstCap := rfl
@[simp] theorem start_count (v : Word) (s : State) : (State.start v s).count = s.count := rfl
@[simp] theorem start_result (v : Word) (s : State) : (State.start v s).result = 0#64 := rfl
@[simp] theorem start_phase (v : Word) (s : State) : (State.start v s).phase = .check := rfl
@[simp] theorem start_latch (v : Word) (s : State) :
    (State.start v s).latch
      = ⟨v, s.src, s.srcLen, s.dst, s.dstCap, s.count⟩ := rfl
@[simp] theorem start_enc (v : Word) (s : State) :
    (State.start v s).enc
      = { s.enc with i := 0, o := 0, isOpen := false } := rfl
@[simp] theorem start_dec (v : Word) (s : State) :
    (State.start v s).dec
      = { s.dec with p := 0, k := 0, hasPrev := false } := rfl
@[simp] theorem start_lanes (v : Word) (s : State) : (State.start v s).lanes = s.lanes := rfl
@[simp] theorem start_mem (v : Word) (s : State) : (State.start v s).mem = s.mem := rfl
@[simp] theorem start_platform (v : Word) (s : State) :
    (State.start v s).platform
      = s.platform := rfl
@[simp] theorem start_grain (v : Word) (s : State) :
    (State.start v s).grain
      = Config.grain s.tick := rfl
@[simp] theorem start_inbox (v : Word) (s : State) : (State.start v s).inbox = s.inbox := rfl
@[simp] theorem start_reply (v : Word) (s : State) : (State.start v s).reply = s.reply := rfl
@[simp] theorem start_dirty (v : Word) (s : State) : (State.start v s).dirty = s.dirty := rfl
@[simp] theorem start_stale (v : Word) (s : State) : (State.start v s).stale = s.stale := rfl
@[simp] theorem start_others (v : Word) (s : State) : (State.start v s).others = s.others := rfl
@[simp] theorem start_tick (v : Word) (s : State) : (State.start v s).tick = s.tick := rfl

/-! ## State.wrote: the record of a written region (R80) -/

@[simp] theorem wrote_ie (r : Region) (s : State) : (State.wrote r s).ie = s.ie := rfl
@[simp] theorem wrote_done (r : Region) (s : State) : (State.wrote r s).done = s.done := rfl
@[simp] theorem wrote_drop (r : Region) (s : State) : (State.wrote r s).drop = s.drop := rfl
@[simp] theorem wrote_err (r : Region) (s : State) : (State.wrote r s).err = s.err := rfl
@[simp] theorem wrote_src (r : Region) (s : State) : (State.wrote r s).src = s.src := rfl
@[simp] theorem wrote_srcLen (r : Region) (s : State) : (State.wrote r s).srcLen = s.srcLen := rfl
@[simp] theorem wrote_dst (r : Region) (s : State) : (State.wrote r s).dst = s.dst := rfl
@[simp] theorem wrote_dstCap (r : Region) (s : State) : (State.wrote r s).dstCap = s.dstCap := rfl
@[simp] theorem wrote_count (r : Region) (s : State) : (State.wrote r s).count = s.count := rfl
@[simp] theorem wrote_result (r : Region) (s : State) : (State.wrote r s).result = s.result := rfl
@[simp] theorem wrote_phase (r : Region) (s : State) : (State.wrote r s).phase = s.phase := rfl
@[simp] theorem wrote_latch (r : Region) (s : State) : (State.wrote r s).latch = s.latch := rfl
@[simp] theorem wrote_enc (r : Region) (s : State) : (State.wrote r s).enc = s.enc := rfl
@[simp] theorem wrote_dec (r : Region) (s : State) : (State.wrote r s).dec = s.dec := rfl
@[simp] theorem wrote_lanes (r : Region) (s : State) : (State.wrote r s).lanes = s.lanes := rfl
@[simp] theorem wrote_mem (r : Region) (s : State) : (State.wrote r s).mem = s.mem := rfl
@[simp] theorem wrote_platform (r : Region) (s : State) :
    (State.wrote r s).platform
      = s.platform := rfl
@[simp] theorem wrote_grain (r : Region) (s : State) : (State.wrote r s).grain = s.grain := rfl
@[simp] theorem wrote_inbox (r : Region) (s : State) : (State.wrote r s).inbox = s.inbox := rfl
@[simp] theorem wrote_reply (r : Region) (s : State) : (State.wrote r s).reply = s.reply := rfl
@[simp] theorem wrote_dirty (r : Region) (s : State) : (State.wrote r s).dirty = s.dirty := rfl
@[simp] theorem wrote_stale (r : Region) (s : State) :
    (State.wrote r s).stale
      = if s.platform.coherent then s.stale else r :: s.stale := rfl
@[simp] theorem wrote_others (r : Region) (s : State) : (State.wrote r s).others = s.others := rfl
@[simp] theorem wrote_tick (r : Region) (s : State) : (State.wrote r s).tick = s.tick := rfl

/-! ## State.raiseDirty: the completion with an error and free bytes (R199, R235, R326) -/

@[simp] theorem raiseDirty_ie (e : ErrCode) (s : State) : (State.raiseDirty e s).ie = s.ie := rfl
@[simp] theorem raiseDirty_done (e : ErrCode) (s : State) :
    (State.raiseDirty e s).done
      = true := rfl
@[simp] theorem raiseDirty_drop (e : ErrCode) (s : State) :
    (State.raiseDirty e s).drop
      = s.drop := rfl
@[simp] theorem raiseDirty_err (e : ErrCode) (s : State) : (State.raiseDirty e s).err = e := rfl
@[simp] theorem raiseDirty_src (e : ErrCode) (s : State) : (State.raiseDirty e s).src = s.src := rfl
@[simp] theorem raiseDirty_srcLen (e : ErrCode) (s : State) :
    (State.raiseDirty e s).srcLen
      = s.srcLen := rfl
@[simp] theorem raiseDirty_dst (e : ErrCode) (s : State) : (State.raiseDirty e s).dst = s.dst := rfl
@[simp] theorem raiseDirty_dstCap (e : ErrCode) (s : State) :
    (State.raiseDirty e s).dstCap
      = s.dstCap := rfl
@[simp] theorem raiseDirty_count (e : ErrCode) (s : State) :
    (State.raiseDirty e s).count
      = s.count := rfl
@[simp] theorem raiseDirty_result (e : ErrCode) (s : State) :
    (State.raiseDirty e s).result
      = 0#64 := rfl
@[simp] theorem raiseDirty_phase (e : ErrCode) (s : State) :
    (State.raiseDirty e s).phase
      = .idle := rfl
@[simp] theorem raiseDirty_latch (e : ErrCode) (s : State) :
    (State.raiseDirty e s).latch
      = s.latch := rfl
@[simp] theorem raiseDirty_enc (e : ErrCode) (s : State) : (State.raiseDirty e s).enc = s.enc := rfl
@[simp] theorem raiseDirty_dec (e : ErrCode) (s : State) : (State.raiseDirty e s).dec = s.dec := rfl
@[simp] theorem raiseDirty_lanes (e : ErrCode) (s : State) :
    (State.raiseDirty e s).lanes
      = s.lanes := rfl
@[simp] theorem raiseDirty_mem (e : ErrCode) (s : State) :
    (State.raiseDirty e s).mem
      = scramble s.tick s.mem (errorRegion s.latch) := rfl
@[simp] theorem raiseDirty_platform (e : ErrCode) (s : State) :
    (State.raiseDirty e s).platform
      = s.platform := rfl
@[simp] theorem raiseDirty_grain (e : ErrCode) (s : State) :
    (State.raiseDirty e s).grain
      = s.grain := rfl
@[simp] theorem raiseDirty_inbox (e : ErrCode) (s : State) :
    (State.raiseDirty e s).inbox
      = s.inbox := rfl
@[simp] theorem raiseDirty_reply (e : ErrCode) (s : State) :
    (State.raiseDirty e s).reply
      = s.reply := rfl
@[simp] theorem raiseDirty_dirty (e : ErrCode) (s : State) :
    (State.raiseDirty e s).dirty
      = s.dirty := rfl
@[simp] theorem raiseDirty_stale (e : ErrCode) (s : State) :
    (State.raiseDirty e s).stale
      = if s.platform.coherent then s.stale else errorRegion s.latch :: s.stale := rfl
@[simp] theorem raiseDirty_others (e : ErrCode) (s : State) :
    (State.raiseDirty e s).others
      = s.others := rfl
@[simp] theorem raiseDirty_tick (e : ErrCode) (s : State) :
    (State.raiseDirty e s).tick
      = s.tick := rfl

/-! ## writeCtrl: a write of CTRL (R26) -/

@[simp] theorem writeCtrl_ie (v : Word) (s : State) : (writeCtrl v s).ie = v.getLsbD 0 := rfl
@[simp] theorem writeCtrl_done (v : Word) (s : State) : (writeCtrl v s).done = s.done := rfl
@[simp] theorem writeCtrl_drop (v : Word) (s : State) : (writeCtrl v s).drop = s.drop := rfl
@[simp] theorem writeCtrl_err (v : Word) (s : State) : (writeCtrl v s).err = s.err := rfl
@[simp] theorem writeCtrl_src (v : Word) (s : State) : (writeCtrl v s).src = s.src := rfl
@[simp] theorem writeCtrl_srcLen (v : Word) (s : State) : (writeCtrl v s).srcLen = s.srcLen := rfl
@[simp] theorem writeCtrl_dst (v : Word) (s : State) : (writeCtrl v s).dst = s.dst := rfl
@[simp] theorem writeCtrl_dstCap (v : Word) (s : State) : (writeCtrl v s).dstCap = s.dstCap := rfl
@[simp] theorem writeCtrl_count (v : Word) (s : State) : (writeCtrl v s).count = s.count := rfl
@[simp] theorem writeCtrl_result (v : Word) (s : State) : (writeCtrl v s).result = s.result := rfl
@[simp] theorem writeCtrl_phase (v : Word) (s : State) : (writeCtrl v s).phase = s.phase := rfl
@[simp] theorem writeCtrl_latch (v : Word) (s : State) : (writeCtrl v s).latch = s.latch := rfl
@[simp] theorem writeCtrl_enc (v : Word) (s : State) : (writeCtrl v s).enc = s.enc := rfl
@[simp] theorem writeCtrl_dec (v : Word) (s : State) : (writeCtrl v s).dec = s.dec := rfl
@[simp] theorem writeCtrl_lanes (v : Word) (s : State) : (writeCtrl v s).lanes = s.lanes := rfl
@[simp] theorem writeCtrl_mem (v : Word) (s : State) : (writeCtrl v s).mem = s.mem := rfl
@[simp] theorem writeCtrl_platform (v : Word) (s : State) :
    (writeCtrl v s).platform
      = s.platform := rfl
@[simp] theorem writeCtrl_grain (v : Word) (s : State) : (writeCtrl v s).grain = s.grain := rfl
@[simp] theorem writeCtrl_inbox (v : Word) (s : State) : (writeCtrl v s).inbox = s.inbox := rfl
@[simp] theorem writeCtrl_reply (v : Word) (s : State) : (writeCtrl v s).reply = s.reply := rfl
@[simp] theorem writeCtrl_dirty (v : Word) (s : State) : (writeCtrl v s).dirty = s.dirty := rfl
@[simp] theorem writeCtrl_stale (v : Word) (s : State) : (writeCtrl v s).stale = s.stale := rfl
@[simp] theorem writeCtrl_others (v : Word) (s : State) : (writeCtrl v s).others = s.others := rfl
@[simp] theorem writeCtrl_tick (v : Word) (s : State) : (writeCtrl v s).tick = s.tick := rfl

/-! ## writeStatus: a write of STATUS (R291) -/

@[simp] theorem writeStatus_ie (v : Word) (s : State) : (writeStatus v s).ie = s.ie := rfl
@[simp] theorem writeStatus_done (v : Word) (s : State) :
    (writeStatus v s).done
      = (s.done && !v.getLsbD 1) := rfl
@[simp] theorem writeStatus_drop (v : Word) (s : State) :
    (writeStatus v s).drop
      = (s.drop && !v.getLsbD 2) := rfl
@[simp] theorem writeStatus_err (v : Word) (s : State) : (writeStatus v s).err = s.err := rfl
@[simp] theorem writeStatus_src (v : Word) (s : State) : (writeStatus v s).src = s.src := rfl
@[simp] theorem writeStatus_srcLen (v : Word) (s : State) :
    (writeStatus v s).srcLen
      = s.srcLen := rfl
@[simp] theorem writeStatus_dst (v : Word) (s : State) : (writeStatus v s).dst = s.dst := rfl
@[simp] theorem writeStatus_dstCap (v : Word) (s : State) :
    (writeStatus v s).dstCap
      = s.dstCap := rfl
@[simp] theorem writeStatus_count (v : Word) (s : State) : (writeStatus v s).count = s.count := rfl
@[simp] theorem writeStatus_result (v : Word) (s : State) :
    (writeStatus v s).result
      = s.result := rfl
@[simp] theorem writeStatus_phase (v : Word) (s : State) : (writeStatus v s).phase = s.phase := rfl
@[simp] theorem writeStatus_latch (v : Word) (s : State) : (writeStatus v s).latch = s.latch := rfl
@[simp] theorem writeStatus_enc (v : Word) (s : State) : (writeStatus v s).enc = s.enc := rfl
@[simp] theorem writeStatus_dec (v : Word) (s : State) : (writeStatus v s).dec = s.dec := rfl
@[simp] theorem writeStatus_lanes (v : Word) (s : State) : (writeStatus v s).lanes = s.lanes := rfl
@[simp] theorem writeStatus_mem (v : Word) (s : State) : (writeStatus v s).mem = s.mem := rfl
@[simp] theorem writeStatus_platform (v : Word) (s : State) :
    (writeStatus v s).platform
      = s.platform := rfl
@[simp] theorem writeStatus_grain (v : Word) (s : State) : (writeStatus v s).grain = s.grain := rfl
@[simp] theorem writeStatus_inbox (v : Word) (s : State) : (writeStatus v s).inbox = s.inbox := rfl
@[simp] theorem writeStatus_reply (v : Word) (s : State) : (writeStatus v s).reply = s.reply := rfl
@[simp] theorem writeStatus_dirty (v : Word) (s : State) : (writeStatus v s).dirty = s.dirty := rfl
@[simp] theorem writeStatus_stale (v : Word) (s : State) : (writeStatus v s).stale = s.stale := rfl
@[simp] theorem writeStatus_others (v : Word) (s : State) :
    (writeStatus v s).others
      = s.others := rfl
@[simp] theorem writeStatus_tick (v : Word) (s : State) : (writeStatus v s).tick = s.tick := rfl

/-! ## pollStatus: a poll of STATUS (R117) -/

@[simp] theorem pollStatus_ie (s : State) : (pollStatus s).ie = s.ie := rfl
@[simp] theorem pollStatus_done (s : State) : (pollStatus s).done = s.done := rfl
@[simp] theorem pollStatus_drop (s : State) : (pollStatus s).drop = s.drop := rfl
@[simp] theorem pollStatus_err (s : State) : (pollStatus s).err = s.err := rfl
@[simp] theorem pollStatus_src (s : State) : (pollStatus s).src = s.src := rfl
@[simp] theorem pollStatus_srcLen (s : State) : (pollStatus s).srcLen = s.srcLen := rfl
@[simp] theorem pollStatus_dst (s : State) : (pollStatus s).dst = s.dst := rfl
@[simp] theorem pollStatus_dstCap (s : State) : (pollStatus s).dstCap = s.dstCap := rfl
@[simp] theorem pollStatus_count (s : State) : (pollStatus s).count = s.count := rfl
@[simp] theorem pollStatus_result (s : State) : (pollStatus s).result = s.result := rfl
@[simp] theorem pollStatus_phase (s : State) : (pollStatus s).phase = s.phase := rfl
@[simp] theorem pollStatus_latch (s : State) : (pollStatus s).latch = s.latch := rfl
@[simp] theorem pollStatus_enc (s : State) : (pollStatus s).enc = s.enc := rfl
@[simp] theorem pollStatus_dec (s : State) : (pollStatus s).dec = s.dec := rfl
@[simp] theorem pollStatus_lanes (s : State) : (pollStatus s).lanes = s.lanes := rfl
@[simp] theorem pollStatus_mem (s : State) : (pollStatus s).mem = s.mem := rfl
@[simp] theorem pollStatus_platform (s : State) : (pollStatus s).platform = s.platform := rfl
@[simp] theorem pollStatus_grain (s : State) : (pollStatus s).grain = s.grain := rfl
@[simp] theorem pollStatus_inbox (s : State) : (pollStatus s).inbox = s.inbox := rfl
@[simp] theorem pollStatus_reply (s : State) : (pollStatus s).reply = .reg (statusWord s) := rfl
@[simp] theorem pollStatus_dirty (s : State) : (pollStatus s).dirty = s.dirty := rfl
@[simp] theorem pollStatus_stale (s : State) : (pollStatus s).stale = s.stale := rfl
@[simp] theorem pollStatus_others (s : State) : (pollStatus s).others = s.others := rfl
@[simp] theorem pollStatus_tick (s : State) : (pollStatus s).tick = s.tick := rfl

/-! ## completeCompress: the end of a COMPRESS (R180) -/

@[simp] theorem completeCompress_ie (len : Nat) (s : State) :
    (completeCompress len s).ie
      = s.ie := rfl
@[simp] theorem completeCompress_done (len : Nat) (s : State) :
    (completeCompress len s).done
      = true := rfl
@[simp] theorem completeCompress_drop (len : Nat) (s : State) :
    (completeCompress len s).drop
      = s.drop := rfl
@[simp] theorem completeCompress_err (len : Nat) (s : State) :
    (completeCompress len s).err
      = .none := rfl
@[simp] theorem completeCompress_src (len : Nat) (s : State) :
    (completeCompress len s).src
      = s.src := rfl
@[simp] theorem completeCompress_srcLen (len : Nat) (s : State) :
    (completeCompress len s).srcLen
      = s.srcLen := rfl
@[simp] theorem completeCompress_dst (len : Nat) (s : State) :
    (completeCompress len s).dst
      = s.dst := rfl
@[simp] theorem completeCompress_dstCap (len : Nat) (s : State) :
    (completeCompress len s).dstCap
      = s.dstCap := rfl
@[simp] theorem completeCompress_count (len : Nat) (s : State) :
    (completeCompress len s).count
      = s.count := rfl
@[simp] theorem completeCompress_result (len : Nat) (s : State) :
    (completeCompress len s).result
      = BitVec.ofNat 64 len := rfl
@[simp] theorem completeCompress_phase (len : Nat) (s : State) :
    (completeCompress len s).phase
      = .idle := rfl
@[simp] theorem completeCompress_latch (len : Nat) (s : State) :
    (completeCompress len s).latch
      = s.latch := rfl
@[simp] theorem completeCompress_enc (len : Nat) (s : State) :
    (completeCompress len s).enc
      = s.enc := rfl
@[simp] theorem completeCompress_dec (len : Nat) (s : State) :
    (completeCompress len s).dec
      = s.dec := rfl
@[simp] theorem completeCompress_lanes (len : Nat) (s : State) :
    (completeCompress len s).lanes
      = s.lanes := rfl
@[simp] theorem completeCompress_mem (len : Nat) (s : State) :
    (completeCompress len s).mem
      = s.mem := rfl
@[simp] theorem completeCompress_platform (len : Nat) (s : State) :
    (completeCompress len s).platform
      = s.platform := rfl
@[simp] theorem completeCompress_grain (len : Nat) (s : State) :
    (completeCompress len s).grain
      = s.grain := rfl
@[simp] theorem completeCompress_inbox (len : Nat) (s : State) :
    (completeCompress len s).inbox
      = s.inbox := rfl
@[simp] theorem completeCompress_reply (len : Nat) (s : State) :
    (completeCompress len s).reply
      = s.reply := rfl
@[simp] theorem completeCompress_dirty (len : Nat) (s : State) :
    (completeCompress len s).dirty
      = s.dirty := rfl
@[simp] theorem completeCompress_stale (len : Nat) (s : State) :
    (completeCompress len s).stale
      = if s.platform.coherent then s.stale else ⟨s.latch.dst.toNat, len⟩ :: s.stale := rfl
@[simp] theorem completeCompress_others (len : Nat) (s : State) :
    (completeCompress len s).others
      = s.others := rfl
@[simp] theorem completeCompress_tick (len : Nat) (s : State) :
    (completeCompress len s).tick
      = s.tick := rfl

/-! ## completeDecompress: the end of a DECOMPRESS (R234) -/

@[simp] theorem completeDecompress_ie (s : State) : (completeDecompress s).ie = s.ie := rfl
@[simp] theorem completeDecompress_done (s : State) : (completeDecompress s).done = true := rfl
@[simp] theorem completeDecompress_drop (s : State) : (completeDecompress s).drop = s.drop := rfl
@[simp] theorem completeDecompress_err (s : State) : (completeDecompress s).err = .none := rfl
@[simp] theorem completeDecompress_src (s : State) : (completeDecompress s).src = s.src := rfl
@[simp] theorem completeDecompress_srcLen (s : State) :
    (completeDecompress s).srcLen
      = s.srcLen := rfl
@[simp] theorem completeDecompress_dst (s : State) : (completeDecompress s).dst = s.dst := rfl
@[simp] theorem completeDecompress_dstCap (s : State) :
    (completeDecompress s).dstCap
      = s.dstCap := rfl
@[simp] theorem completeDecompress_count (s : State) : (completeDecompress s).count = s.count := rfl
@[simp] theorem completeDecompress_result (s : State) :
    (completeDecompress s).result
      = s.latch.n := rfl
@[simp] theorem completeDecompress_phase (s : State) : (completeDecompress s).phase = .idle := rfl
@[simp] theorem completeDecompress_latch (s : State) : (completeDecompress s).latch = s.latch := rfl
@[simp] theorem completeDecompress_enc (s : State) : (completeDecompress s).enc = s.enc := rfl
@[simp] theorem completeDecompress_dec (s : State) : (completeDecompress s).dec = s.dec := rfl
@[simp] theorem completeDecompress_lanes (s : State) : (completeDecompress s).lanes = s.lanes := rfl
@[simp] theorem completeDecompress_mem (s : State) : (completeDecompress s).mem = s.mem := rfl
@[simp] theorem completeDecompress_platform (s : State) :
    (completeDecompress s).platform
      = s.platform := rfl
@[simp] theorem completeDecompress_grain (s : State) : (completeDecompress s).grain = s.grain := rfl
@[simp] theorem completeDecompress_inbox (s : State) : (completeDecompress s).inbox = s.inbox := rfl
@[simp] theorem completeDecompress_reply (s : State) : (completeDecompress s).reply = s.reply := rfl
@[simp] theorem completeDecompress_dirty (s : State) : (completeDecompress s).dirty = s.dirty := rfl
@[simp] theorem completeDecompress_stale (s : State) :
    (completeDecompress s).stale
      = if s.platform.coherent then s.stale else errorRegion s.latch :: s.stale := rfl
@[simp] theorem completeDecompress_others (s : State) :
    (completeDecompress s).others
      = s.others := rfl
@[simp] theorem completeDecompress_tick (s : State) : (completeDecompress s).tick = s.tick := rfl

/-! ## emitBytes: bytes emitted at dst + o (R200) -/

@[simp] theorem emitBytes_ie (bs : List Byte) (s : State) : (emitBytes bs s).ie = s.ie := rfl
@[simp] theorem emitBytes_done (bs : List Byte) (s : State) : (emitBytes bs s).done = s.done := rfl
@[simp] theorem emitBytes_drop (bs : List Byte) (s : State) : (emitBytes bs s).drop = s.drop := rfl
@[simp] theorem emitBytes_err (bs : List Byte) (s : State) : (emitBytes bs s).err = s.err := rfl
@[simp] theorem emitBytes_src (bs : List Byte) (s : State) : (emitBytes bs s).src = s.src := rfl
@[simp] theorem emitBytes_srcLen (bs : List Byte) (s : State) :
    (emitBytes bs s).srcLen
      = s.srcLen := rfl
@[simp] theorem emitBytes_dst (bs : List Byte) (s : State) : (emitBytes bs s).dst = s.dst := rfl
@[simp] theorem emitBytes_dstCap (bs : List Byte) (s : State) :
    (emitBytes bs s).dstCap
      = s.dstCap := rfl
@[simp] theorem emitBytes_count (bs : List Byte) (s : State) :
    (emitBytes bs s).count
      = s.count := rfl
@[simp] theorem emitBytes_result (bs : List Byte) (s : State) :
    (emitBytes bs s).result
      = s.result := rfl
@[simp] theorem emitBytes_phase (bs : List Byte) (s : State) :
    (emitBytes bs s).phase
      = s.phase := rfl
@[simp] theorem emitBytes_latch (bs : List Byte) (s : State) :
    (emitBytes bs s).latch
      = s.latch := rfl
@[simp] theorem emitBytes_enc (bs : List Byte) (s : State) :
    (emitBytes bs s).enc
      = { s.enc with o := s.enc.o + bs.length } := rfl
@[simp] theorem emitBytes_dec (bs : List Byte) (s : State) : (emitBytes bs s).dec = s.dec := rfl
@[simp] theorem emitBytes_lanes (bs : List Byte) (s : State) :
    (emitBytes bs s).lanes
      = s.lanes := rfl
@[simp] theorem emitBytes_mem (bs : List Byte) (s : State) :
    (emitBytes bs s).mem
      = portWrite s.platform s.mem (s.latch.dst.toNat + s.enc.o) bs := rfl
@[simp] theorem emitBytes_platform (bs : List Byte) (s : State) :
    (emitBytes bs s).platform
      = s.platform := rfl
@[simp] theorem emitBytes_grain (bs : List Byte) (s : State) :
    (emitBytes bs s).grain
      = s.grain := rfl
@[simp] theorem emitBytes_inbox (bs : List Byte) (s : State) :
    (emitBytes bs s).inbox
      = s.inbox := rfl
@[simp] theorem emitBytes_reply (bs : List Byte) (s : State) :
    (emitBytes bs s).reply
      = s.reply := rfl
@[simp] theorem emitBytes_dirty (bs : List Byte) (s : State) :
    (emitBytes bs s).dirty
      = s.dirty := rfl
@[simp] theorem emitBytes_stale (bs : List Byte) (s : State) :
    (emitBytes bs s).stale
      = s.stale := rfl
@[simp] theorem emitBytes_others (bs : List Byte) (s : State) :
    (emitBytes bs s).others
      = s.others := rfl
@[simp] theorem emitBytes_tick (bs : List Byte) (s : State) : (emitBytes bs s).tick = s.tick := rfl

/-! ## outElems: elements put out (R232) -/

@[simp] theorem outElems_ie (es : List Word) (s : State) : (outElems es s).ie = s.ie := rfl
@[simp] theorem outElems_done (es : List Word) (s : State) : (outElems es s).done = s.done := rfl
@[simp] theorem outElems_drop (es : List Word) (s : State) : (outElems es s).drop = s.drop := rfl
@[simp] theorem outElems_err (es : List Word) (s : State) : (outElems es s).err = s.err := rfl
@[simp] theorem outElems_src (es : List Word) (s : State) : (outElems es s).src = s.src := rfl
@[simp] theorem outElems_srcLen (es : List Word) (s : State) :
    (outElems es s).srcLen
      = s.srcLen := rfl
@[simp] theorem outElems_dst (es : List Word) (s : State) : (outElems es s).dst = s.dst := rfl
@[simp] theorem outElems_dstCap (es : List Word) (s : State) :
    (outElems es s).dstCap
      = s.dstCap := rfl
@[simp] theorem outElems_count (es : List Word) (s : State) : (outElems es s).count = s.count := rfl
@[simp] theorem outElems_result (es : List Word) (s : State) :
    (outElems es s).result
      = s.result := rfl
@[simp] theorem outElems_phase (es : List Word) (s : State) : (outElems es s).phase = s.phase := rfl
@[simp] theorem outElems_latch (es : List Word) (s : State) : (outElems es s).latch = s.latch := rfl
@[simp] theorem outElems_enc (es : List Word) (s : State) : (outElems es s).enc = s.enc := rfl
@[simp] theorem outElems_dec (es : List Word) (s : State) :
    (outElems es s).dec
      = { s.dec with k := s.dec.k + es.length, prev := es.getLastD s.dec.prev, hasPrev := s.dec.hasPrev || !es.isEmpty } := rfl
@[simp] theorem outElems_lanes (es : List Word) (s : State) : (outElems es s).lanes = s.lanes := rfl
@[simp] theorem outElems_mem (es : List Word) (s : State) :
    (outElems es s).mem
      = portWrite s.platform s.mem (s.latch.dst.toNat + 8 * s.dec.k) (elemBytes es) := rfl
@[simp] theorem outElems_platform (es : List Word) (s : State) :
    (outElems es s).platform
      = s.platform := rfl
@[simp] theorem outElems_grain (es : List Word) (s : State) : (outElems es s).grain = s.grain := rfl
@[simp] theorem outElems_inbox (es : List Word) (s : State) : (outElems es s).inbox = s.inbox := rfl
@[simp] theorem outElems_reply (es : List Word) (s : State) : (outElems es s).reply = s.reply := rfl
@[simp] theorem outElems_dirty (es : List Word) (s : State) : (outElems es s).dirty = s.dirty := rfl
@[simp] theorem outElems_stale (es : List Word) (s : State) : (outElems es s).stale = s.stale := rfl
@[simp] theorem outElems_others (es : List Word) (s : State) :
    (outElems es s).others
      = s.others := rfl
@[simp] theorem outElems_tick (es : List Word) (s : State) : (outElems es s).tick = s.tick := rfl

end Sys2Proof.Laws
end

