-- ==== Sys2Proof/Laws/Memory.lean ====
section
/-! SUPPORT. The laws of memory: what a read gives after a write, what a write leaves alone, and that
every memory operation keeps the canonical form. -/

namespace Sys2Proof.Laws

open Sys2Proof.Machine

/-! ## The canonical form -/

theorem wfFrom_cons {lo a : Nat} {b : Byte} {m : Memory} :
    Memory.wfFrom lo ((a, b) :: m) = true ↔
      lo ≤ a ∧ a < Config.addressSpace ∧ b ≠ unlistedByte ∧ Memory.wfFrom (a + 1) m = true := by
  simp [Memory.wfFrom, and_assoc]

theorem wfFrom_mono {lo lo' : Nat} {m : Memory} (h : lo' ≤ lo) (hm : Memory.wfFrom lo m = true) :
    Memory.wfFrom lo' m = true := by
  cases m with
  | nil => rfl
  | cons c m =>
    obtain ⟨a, b⟩ := c
    rw [wfFrom_cons] at hm ⊢
    exact ⟨h.trans hm.1, hm.2⟩

/-- Below its first address a canonical memory lists nothing. -/
theorem readByte_below {lo a : Nat} {m : Memory} (hm : Memory.wfFrom lo m = true) (h : a < lo) :
    readByte m a = unlistedByte := by
  induction m generalizing lo with
  | nil => rfl
  | cons c m ih =>
    obtain ⟨k, b⟩ := c
    rw [wfFrom_cons] at hm
    have hk : k ≠ a := by omega
    simp only [readByte, hk, if_false]
    exact ih hm.2.2.2 (by omega)

theorem insertByte_wfFrom {lo a : Nat} {b : Byte} {m : Memory} (hm : Memory.wfFrom lo m = true)
    (hlo : lo ≤ a) (ha : a < Config.addressSpace) :
    Memory.wfFrom lo (insertByte m a b) = true := by
  induction m generalizing lo with
  | nil =>
    by_cases hb : b = unlistedByte
    · simp [insertByte, hb, Memory.wfFrom]
    · simp [insertByte, hb, hlo, ha, Memory.wfFrom]
  | cons c m ih =>
    obtain ⟨k, e⟩ := c
    have hm' := wfFrom_cons.mp hm
    unfold insertByte
    split
    · split
      · exact hm
      · rename_i hak hb
        rw [wfFrom_cons]
        exact ⟨hlo, ha, hb, wfFrom_cons.mpr ⟨by omega, hm'.2⟩⟩
    · split
      · split
        · exact wfFrom_mono (by omega) hm'.2.2.2
        · rename_i hka hb
          rw [wfFrom_cons]
          subst hka
          exact ⟨hlo, ha, hb, hm'.2.2.2⟩
      · rw [wfFrom_cons]
        exact ⟨hm'.1, hm'.2.1, hm'.2.2.1, ih hm'.2.2.2 (by omega)⟩

/-- One byte written keeps the canonical form. -/
theorem writeByte_wf {m : Memory} (hm : m.wf = true) (a : Nat) (b : Byte) :
    (writeByte m a b).wf = true := by
  unfold writeByte
  split
  · exact insertByte_wfFrom hm (Nat.zero_le a) ‹_›
  · exact hm

/-- A run of bytes written keeps the canonical form. -/
theorem writeBytes_wf {m : Memory} (hm : m.wf = true) (a : Nat) (bs : List Byte) :
    (writeBytes m a bs).wf = true := by
  induction bs generalizing m a with
  | nil => exact hm
  | cons b bs ih => exact ih (writeByte_wf hm a b) (a + 1)

/-- What the memory port writes keeps the canonical form. -/
theorem portWrite_wf (p : Platform) {m : Memory} (hm : m.wf = true) (a : Nat) (bs : List Byte) :
    (portWrite p m a bs).wf = true := by
  induction bs generalizing m a with
  | nil => exact hm
  | cons b bs ih =>
    unfold portWrite
    split
    · exact ih (writeByte_wf hm a b) (a + 1)
    · exact ih hm (a + 1)

theorem scrambleFrom_wf (free : Nat → Bool) (t : Nat) {m : Memory} (hm : m.wf = true)
    (a len : Nat) : (scrambleFrom free t m a len).wf = true := by
  induction len generalizing m a with
  | zero => exact hm
  | succ len ih =>
    unfold scrambleFrom
    split
    · exact ih (writeByte_wf hm a _) (a + 1)
    · exact ih hm (a + 1)

/-- Free bytes keep the canonical form. -/
theorem scramble_wf (t : Nat) {m : Memory} (hm : m.wf = true) (r : Region) :
    (scramble t m r).wf = true :=
  scrambleFrom_wf _ t hm r.base r.len

theorem scrambleAdmitted_wf (p : Platform) (t : Nat) {m : Memory} (hm : m.wf = true) (r : Region) :
    (scrambleAdmitted p t m r).wf = true :=
  scrambleFrom_wf _ t hm r.base r.len

/-! ## Reads after writes -/

theorem readByte_insertByte {lo : Nat} {m : Memory} (hm : Memory.wfFrom lo m = true) (a : Nat)
    (b : Byte) (c : Nat) :
    readByte (insertByte m a b) c = if c = a then b else readByte m c := by
  induction m generalizing lo with
  | nil =>
    by_cases hb : b = unlistedByte <;> simp [insertByte, readByte, hb, eq_comm]
  | cons d m ih =>
    obtain ⟨k, e⟩ := d
    have hm' := wfFrom_cons.mp hm
    unfold insertByte
    by_cases hak : a < k
    · have hbelow : ∀ x, x ≤ a → readByte ((k, e) :: m) x = unlistedByte := fun x hx =>
        readByte_below (lo := k) (wfFrom_cons.mpr ⟨le_refl k, hm'.2⟩) (by omega)
      by_cases hb : b = unlistedByte
      · by_cases hc : c = a
        · simp [hak, hb, hc, hbelow a (le_refl a)]
        · simp [hak, hb, hc]
      · by_cases hc : c = a
        · simp [hak, hb, hc, readByte]
        · simp [hak, hb, hc, readByte, Ne.symm hc]
    · by_cases hka : a = k
      · subst hka
        by_cases hb : b = unlistedByte
        · by_cases hc : c = a
          · simp [hb, hc, readByte_below (a := a) hm'.2.2.2 (by omega)]
          · simp [hb, hc, readByte, Ne.symm hc]
        · by_cases hc : c = a
          · simp [hb, hc, readByte]
          · simp [hb, hc, readByte, Ne.symm hc]
      · by_cases hck : c = k
        · have hca : ¬ c = a := fun h => hka (h ▸ hck)
          simp [hak, hka, readByte, hck, Ne.symm hka]
        · simp [hak, hka, readByte, Ne.symm hck, ih hm'.2.2.2]

/-- A read after a write of one byte: the byte written at its address, the old one elsewhere. -/
theorem readByte_writeByte {m : Memory} (hm : m.wf = true) {a : Nat}
    (ha : a < Config.addressSpace) (b : Byte) (c : Nat) :
    readByte (writeByte m a b) c = if c = a then b else readByte m c := by
  unfold writeByte
  rw [if_pos ha]
  exact readByte_insertByte hm a b c

/-- A write of one byte leaves every other address alone. -/
theorem readByte_writeByte_ne {m : Memory} (hm : m.wf = true) {a c : Nat} (b : Byte) (h : c ≠ a) :
    readByte (writeByte m a b) c = readByte m c := by
  unfold writeByte
  split
  · rw [readByte_insertByte hm, if_neg h]
  · rfl

/-- A run of bytes written leaves every address outside it alone (R71). -/
theorem readByte_writeBytes_outside {m : Memory} (hm : m.wf = true) {a c : Nat} {bs : List Byte}
    (h : c < a ∨ a + bs.length ≤ c) : readByte (writeBytes m a bs) c = readByte m c := by
  induction bs generalizing m a with
  | nil => rfl
  | cons b bs ih =>
    have hl : (b :: bs).length = bs.length + 1 := rfl
    unfold writeBytes
    rw [ih (writeByte_wf hm a b) (by omega)]
    exact readByte_writeByte_ne hm b (by omega)

/-- A run of bytes written reads back byte for byte. -/
theorem readByte_writeBytes_inside {m : Memory} (hm : m.wf = true) {a : Nat} {bs : List Byte}
    (ha : a + bs.length ≤ Config.addressSpace) {i : Nat} (hi : i < bs.length) :
    readByte (writeBytes m a bs) (a + i) = bs[i] := by
  induction bs generalizing m a i with
  | nil => simp at hi
  | cons b bs ih =>
    have hl : (b :: bs).length = bs.length + 1 := rfl
    unfold writeBytes
    cases i with
    | zero =>
      rw [readByte_writeBytes_outside (writeByte_wf hm a b) (by omega),
        readByte_writeByte hm (by omega)]
      simp
    | succ i =>
      have := ih (m := writeByte m a b) (a := a + 1) (i := i) (writeByte_wf hm a b) (by omega)
        (by omega)
      rw [show a + (i + 1) = a + 1 + i by omega, this]
      rfl

theorem readBytes_congr {m m' : Memory} {a n : Nat}
    (h : ∀ c, a ≤ c → c < a + n → readByte m c = readByte m' c) :
    readBytes m a n = readBytes m' a n := by
  induction n generalizing a with
  | zero => rfl
  | succ n ih =>
    unfold readBytes
    rw [h a (le_refl a) (by omega), ih fun c h1 h2 => h c (by omega) (by omega)]

@[simp] theorem readBytes_length (m : Memory) (a n : Nat) : (readBytes m a n).length = n := by
  induction n generalizing a with
  | zero => rfl
  | succ n ih => simp [readBytes, ih]

theorem readBytes_getElem (m : Memory) {a n i : Nat} (hi : i < (readBytes m a n).length) :
    (readBytes m a n)[i] = readByte m (a + i) := by
  induction n generalizing a i with
  | zero => simp [readBytes] at hi
  | succ n ih =>
    cases i with
    | zero => simp [readBytes]
    | succ i =>
      simp only [readBytes, List.getElem_cons_succ]
      rw [ih]
      congr 1
      omega

/-- What is written is read (R198, R234). -/
theorem readBytes_writeBytes {m : Memory} (hm : m.wf = true) {a : Nat} {bs : List Byte}
    (ha : a + bs.length ≤ Config.addressSpace) :
    readBytes (writeBytes m a bs) a bs.length = bs := by
  apply List.ext_getElem (by simp)
  intro i h1 h2
  rw [readBytes_getElem]
  exact readByte_writeBytes_inside hm ha h2

/-- A write leaves the bytes of a disjoint range alone. -/
theorem readBytes_writeBytes_disjoint {m : Memory} (hm : m.wf = true) {a c n : Nat}
    {bs : List Byte} (h : c + n ≤ a ∨ a + bs.length ≤ c) :
    readBytes (writeBytes m a bs) c n = readBytes m c n :=
  readBytes_congr fun x h1 h2 => readByte_writeBytes_outside hm (by omega)

theorem writeBytes_append (m : Memory) (a : Nat) (xs ys : List Byte) :
    writeBytes m a (xs ++ ys) = writeBytes (writeBytes m a xs) (a + xs.length) ys := by
  induction xs generalizing m a with
  | nil => rfl
  | cons x xs ih =>
    simp only [List.cons_append, writeBytes, List.length_cons]
    rw [ih, show a + (xs.length + 1) = a + 1 + xs.length by omega]

theorem readBytes_append (m : Memory) (a n k : Nat) :
    readBytes m a (n + k) = readBytes m a n ++ readBytes m (a + n) k := by
  induction n generalizing a with
  | zero => simp [readBytes]
  | succ n ih =>
    rw [show n + 1 + k = (n + k) + 1 by omega]
    simp only [readBytes, List.cons_append]
    rw [ih, show a + 1 + n = a + (n + 1) by omega]

theorem scrambleFrom_outside (free : Nat → Bool) (t : Nat) {m : Memory} (hm : m.wf = true)
    {a len c : Nat} (h : c < a ∨ a + len ≤ c) :
    readByte (scrambleFrom free t m a len) c = readByte m c := by
  induction len generalizing m a with
  | zero => rfl
  | succ len ih =>
    unfold scrambleFrom
    split
    · rw [ih (writeByte_wf hm a _) (by omega)]
      exact readByte_writeByte_ne hm _ (by omega)
    · exact ih hm (by omega)

/-- A byte that is not freed keeps its value. -/
theorem scrambleFrom_kept {free : Nat → Bool} (t : Nat) {m : Memory} (hm : m.wf = true)
    (a len : Nat) {c : Nat} (h : free c = false) :
    readByte (scrambleFrom free t m a len) c = readByte m c := by
  induction len generalizing m a with
  | zero => rfl
  | succ len ih =>
    unfold scrambleFrom
    split
    · rename_i ha
      rw [ih (writeByte_wf hm a _)]
      exact readByte_writeByte_ne hm _ (by rintro rfl; simp [h] at ha)
    · exact ih hm (a + 1)

theorem outside_of_not_contains {r : Region} {c : Nat} (h : r.contains c = false) :
    c < r.base ∨ r.base + r.len ≤ c := by
  simp only [Region.contains, Bool.and_eq_false_iff, decide_eq_false_iff_not] at h
  omega

/-- Free bytes leave every address outside their region alone (R199, R235). -/
theorem scramble_outside (t : Nat) {m : Memory} (hm : m.wf = true) {r : Region} {c : Nat}
    (h : r.contains c = false) : readByte (scramble t m r) c = readByte m c :=
  scrambleFrom_outside _ t hm (outside_of_not_contains h)

/-- So do those of a reset (R360). -/
theorem scrambleAdmitted_outside (p : Platform) (t : Nat) {m : Memory} (hm : m.wf = true)
    {r : Region} {c : Nat} (h : r.contains c = false) :
    readByte (scrambleAdmitted p t m r) c = readByte m c :=
  scrambleFrom_outside _ t hm (outside_of_not_contains h)

/-- A byte the platform refuses for writing keeps its value at a reset (R360). -/
theorem scrambleAdmitted_refused (p : Platform) (t : Nat) {m : Memory} (hm : m.wf = true)
    (r : Region) {c : Nat} (h : memAdmits p .write c = false) :
    readByte (scrambleAdmitted p t m r) c = readByte m c :=
  scrambleFrom_kept t hm _ _ h

/-! ## The memory port (R13, R67) -/

/-- A MemWrite leaves every address outside it alone. -/
theorem portWrite_outside (p : Platform) {m : Memory} (hm : m.wf = true) {a c : Nat}
    {bs : List Byte} (h : c < a ∨ a + bs.length ≤ c) :
    readByte (portWrite p m a bs) c = readByte m c := by
  induction bs generalizing m a with
  | nil => rfl
  | cons b bs ih =>
    have hl : (b :: bs).length = bs.length + 1 := rfl
    unfold portWrite
    split
    · rw [ih (writeByte_wf hm a b) (by omega)]
      exact readByte_writeByte_ne hm b (by omega)
    · exact ih hm (by omega)

/-- A refused access performs nothing (R67). -/
theorem portWrite_refused (p : Platform) {m : Memory} (hm : m.wf = true) (a : Nat)
    (bs : List Byte) {c : Nat} (h : memAdmits p .write c = false) :
    readByte (portWrite p m a bs) c = readByte m c := by
  induction bs generalizing m a with
  | nil => rfl
  | cons b bs ih =>
    unfold portWrite
    split
    · rename_i ha
      rw [ih (writeByte_wf hm a b)]
      exact readByte_writeByte_ne hm b (by rintro rfl; simp [h] at ha)
    · exact ih hm (a + 1)

/-- Where every byte is admitted, a MemWrite replaces them all. -/
theorem portWrite_admitted (p : Platform) (m : Memory) (a : Nat) (bs : List Byte)
    (h : ∀ c, a ≤ c → c < a + bs.length → memAdmits p .write c = true) :
    portWrite p m a bs = writeBytes m a bs := by
  induction bs generalizing m a with
  | nil => rfl
  | cons b bs ih =>
    have hl : (b :: bs).length = bs.length + 1 := rfl
    unfold portWrite writeBytes
    rw [if_pos (h a (le_refl a) (by omega))]
    exact ih _ _ fun c h1 h2 => h c (by omega) (by omega)

theorem portWrite_append (p : Platform) (m : Memory) (a : Nat) (xs ys : List Byte) :
    portWrite p m a (xs ++ ys) = portWrite p (portWrite p m a xs) (a + xs.length) ys := by
  induction xs generalizing m a with
  | nil => rfl
  | cons x xs ih =>
    simp only [List.cons_append, portWrite, List.length_cons]
    rw [ih, show a + (xs.length + 1) = a + 1 + xs.length by omega]

/-- An array of elements reads from the bytes of its range alone (R63). -/
theorem readElems_congr {m m' : Memory} {a n : Nat}
    (h : ∀ c, a ≤ c → c < a + 8 * n → readByte m c = readByte m' c) :
    readElems m a n = readElems m' a n := by
  induction n generalizing a with
  | zero => rfl
  | succ n ih =>
    unfold readElems readElem
    rw [readBytes_congr fun c h1 h2 => h c h1 (by omega), ih fun c h1 h2 => h c (by omega) (by omega)]

@[simp] theorem readElems_length (m : Memory) (a n : Nat) : (readElems m a n).length = n := by
  induction n generalizing a with
  | zero => rfl
  | succ n ih => simp [readElems, ih]

theorem readElems_getElem (m : Memory) {a n i : Nat} (hi : i < (readElems m a n).length) :
    (readElems m a n)[i] = readElem m (a + 8 * i) := by
  induction n generalizing a i with
  | zero => simp [readElems] at hi
  | succ n ih =>
    cases i with
    | zero => simp [readElems]
    | succ i =>
      simp only [readElems, List.getElem_cons_succ]
      rw [ih]
      congr 1
      omega

/-! ## The platform's admission (R67, R326) -/

/-- A region is admitted exactly when each of its bytes is. -/
theorem admitsRegion_iff (p : Platform) (acc : Access) (r : Region) :
    admitsRegion p acc r = true ↔ ∀ a, r.contains a = true → memAdmits p acc a = true := by
  simp only [admitsRegion, memAdmits, Bool.not_eq_true', List.any_eq_false, Bool.and_eq_true,
    decide_eq_true_eq, not_and, Region.contains, Region.overlaps]
  constructor
  · intro h a ha x hx hacc
    have := h x hx hacc
    omega
  · intro h x hx hacc
    by_contra hc
    have := h (max r.base x.region.base) (by omega) x hx hacc
    omega

end Sys2Proof.Laws
end

