-- ==== Sys2Proof/Laws/Codec.lean ====
section
/-! SUPPORT. The small lemmas of the byte order (R12), of the decoders and the encoder
(30_encoding.md), and of the wire-format primitives (40_primitives.md). -/

namespace Sys2Proof.Laws

open Sys2Proof.Machine

/-! ## Byte order -/

@[simp] theorem leBytes_length (n v : Nat) : (leBytes n v).length = n := by
  induction n generalizing v with
  | zero => rfl
  | succ n ih => simp [leBytes, ih]

/-- Reading back a little-endian field (R12). -/
theorem rdLE_leBytes (n v : Nat) : rdLE (leBytes n v) = v % 256 ^ n := by
  induction n generalizing v with
  | zero => simp [leBytes, rdLE, Nat.mod_one]
  | succ n ih =>
    simp only [leBytes, rdLE, ih, BitVec.toNat_ofNat]
    rw [show (2 : Nat) ^ 8 = 256 from rfl, pow_succ, Nat.mul_comm (256 ^ n) 256, Nat.mod_mul]

theorem rdLE_lt (bs : List Byte) : rdLE bs < 256 ^ bs.length := by
  induction bs with
  | nil => simp [rdLE]
  | cons b bs ih =>
    have hb := b.isLt
    simp only [rdLE, List.length_cons, pow_succ]
    omega

/-- Writing back a little-endian field (R12). -/
theorem leBytes_rdLE (bs : List Byte) : leBytes bs.length (rdLE bs) = bs := by
  induction bs with
  | nil => rfl
  | cons b bs ih =>
    have hb := b.isLt
    have h1 : BitVec.ofNat 8 (b.toNat + 256 * rdLE bs) = b := by
      apply BitVec.eq_of_toNat_eq
      simp only [BitVec.toNat_ofNat]
      omega
    have h2 : (b.toNat + 256 * rdLE bs) / 256 = rdLE bs := by omega
    simp only [rdLE, List.length_cons, leBytes, h1, h2, ih]

/-- A word read back from its eight bytes (R61). -/
@[simp] theorem rdWord_leBytes (v : Word) : rdWord (leBytes 8 v.toNat) = v := by
  apply BitVec.eq_of_toNat_eq
  have := v.isLt
  simp only [rdWord, rdLE_leBytes, BitVec.toNat_ofNat]
  omega

/-- A field that fits its class, read back from its bytes (R138, R139). -/
theorem rdWord_leBytes_fits {w : WidthCode} {z : Word} (h : fieldFits w z = true) :
    rdWord (leBytes (bytesOf w) z.toNat) = z := by
  apply BitVec.eq_of_toNat_eq
  have hz := z.isLt
  simp only [fieldFits, decide_eq_true_eq] at h
  simp only [rdWord, rdLE_leBytes, BitVec.toNat_ofNat, bytesOf, Nat.mod_eq_of_lt h]
  exact Nat.mod_eq_of_lt hz

/-! ## Lengths -/

@[simp] theorem encodeFields_length (w : WidthCode) (zs : List Word) :
    (encodeFields w zs).length = zs.length * bytesOf w := by
  induction zs with
  | nil => simp [encodeFields]
  | cons z zs ih =>
    simp only [encodeFields, List.flatMap_cons, List.length_append, leBytes_length] at ih ⊢
    rw [ih, List.length_cons]
    ring

@[simp] theorem encodeHeader_length (k : BlockKind) (w : WidthCode) (c : BlockCount) :
    (encodeHeader k w c).length = hdrLen c := by
  unfold encodeHeader hdrLen
  split <;> simp

@[simp] theorem decodeFields_length (w : WidthCode) (m : Nat) (bs : List Byte) :
    (decodeFields w m bs).length = m := by
  induction m generalizing bs with
  | zero => rfl
  | succ m ih => simp [decodeFields, ih]

@[simp] theorem elemBytes_length (xs : List Word) : (elemBytes xs).length = 8 * xs.length := by
  induction xs with
  | nil => rfl
  | cons x xs ih =>
    simp only [elemBytes, List.flatMap_cons, List.length_append, leBytes_length,
      List.length_cons] at ih ⊢
    omega

theorem elemBytes_append (xs ys : List Word) :
    elemBytes (xs ++ ys) = elemBytes xs ++ elemBytes ys := by
  simp [elemBytes]

theorem bytesOf_pos (w : WidthCode) : 0 < bytesOf w := Nat.two_pow_pos _

theorem bytesOf_le (w : WidthCode) : bytesOf w ≤ 8 := by
  revert w; decide

/-! ## Elements of a block -/

@[simp] theorem reconstructAll_length (r : Word) (zs : List Word) :
    (reconstructAll r zs).length = zs.length := by
  induction zs generalizing r with
  | nil => rfl
  | cons z zs ih => simp [reconstructAll, ih]

theorem reconstructAll_append (r : Word) (xs ys : List Word) :
    reconstructAll r (xs ++ ys)
      = reconstructAll r xs ++ reconstructAll ((reconstructAll r xs).getLastD r) ys := by
  induction xs generalizing r with
  | nil => rfl
  | cons x xs ih =>
    simp only [List.cons_append, reconstructAll, ih]
    cases h : reconstructAll (reconstruct r x) xs with
    | nil => simp
    | cons a as => simp [List.getLast?_cons]

theorem foldl_add_start (a : Word) (ds : List Word) :
    ds.foldl (· + ·) a = a + ds.foldl (· + ·) 0#64 := by
  induction ds generalizing a with
  | nil => simp
  | cons d ds ih =>
    simp only [List.foldl_cons]
    rw [ih (a + d), ih (0#64 + d)]
    simp [BitVec.add_assoc]

/-- The prefix sums of a lane group are its scalar reconstructions (R271). -/
theorem prefixSums_unzz (r : Word) (zs : List Word) :
    prefixSums r (zs.map unzz) = reconstructAll r zs := by
  induction zs generalizing r with
  | nil => rfl
  | cons z zs ih =>
    have h := ih (reconstruct r z)
    simp only [prefixSums, List.map_cons, List.length_cons, List.range_succ_eq_map, List.map_map,
      reconstructAll] at h ⊢
    rw [← h]
    congr 1
    · simp [reconstruct]
    · apply List.map_congr_left
      intro k _
      simp only [Function.comp, List.take_succ_cons, List.foldl_cons, reconstruct]
      rw [foldl_add_start (0#64 + unzz z)]
      simp [BitVec.add_assoc]

/-- A delta block's fields give the same elements in lane groups as one by one (R271, R273). -/
theorem vecReconstruct_elems {lanes : Nat} (fuel : Nat) (r : Word) (zs : List Word)
    (g : LaneRegs) : (vecReconstruct lanes fuel r zs g).elems = reconstructAll r zs := by
  induction fuel generalizing r zs g with
  | zero => rfl
  | succ fuel ih =>
    unfold vecReconstruct
    split
    · simp only [ih, prefixSums_unzz]
      rw [← reconstructAll_append, List.take_append_drop]
    · rfl

/-- A block has the same elements on both engines (R275). -/
theorem vecBlockElems_elems (lanes : Nat) (prev : Word) (g : LaneRegs) (i : Instr) :
    (vecBlockElems lanes prev g i).elems = blockElems prev i := by
  cases i <;> simp [vecBlockElems, blockElems, vecReconstruct_elems]

/-- A well-formed block has as many elements as its count says (R94). -/
theorem blockElems_length {i : Instr} (h : i.wf = true) (prev : Word) :
    (blockElems prev i).length = blockCount i := by
  cases i <;> simp_all [Instr.wf, blockElems, blockCount]

end Sys2Proof.Laws
end

