-- ==== Sys2Proof/Laws/Ops.lean ====
section
/-! SUPPORT. One lemma per shared operation that says everything it can do: later proofs cite it and
do not unfold the operation. -/

namespace Sys2Proof.Laws

open Sys2Proof.Machine

/-! ## Outcomes and the step -/

/-- What a step adds to its mover's own effect. -/
theorem advance_eq_next {o : Host.Outcome State Fault Refusal} {t : State}
    (h : advance o = .next t) : ∃ u, o = .next u ∧ t = { u with tick := u.tick + 1 } := by
  cases o with
  | next u => exact ⟨u, rfl, by simpa [advance] using h.symm⟩
  | fault r => simp [advance] at h
  | refused r => simp [advance] at h

/-- A step is nobody's, the outside's or the engine's. -/
theorem step_cases {s t : State} (h : step s = .next t) :
    (mover s = .nobody ∧ t = s)
      ∨ (mover s = .outside ∧ ∃ u, hostStep s = .next u ∧ t = { u with tick := u.tick + 1 })
      ∨ (mover s = .engine ∧ ∃ u, engineStep s = .next u ∧ t = { u with tick := u.tick + 1 }) := by
  unfold step at h
  cases hm : mover s <;> simp only [hm] at h
  · exact .inl ⟨rfl, by simpa using h.symm⟩
  · exact .inr (.inl ⟨rfl, advance_eq_next h⟩)
  · exact .inr (.inr ⟨rfl, advance_eq_next h⟩)

/-- The engine moves only while it is not IDLE. -/
theorem mover_engine_busy {s : State} (h : mover s = .engine) : s.phase ≠ .idle := by
  intro hp
  unfold mover at h
  cases hi : s.inbox <;> simp [State.busy, hp, hi] at h

/-- What one step of the engine runs (R32, R237, R296). -/
theorem engineStep_cases {s t : State} (h : engineStep s = .next t) :
    (s.phase = .idle ∧ t = s)
      ∨ (s.phase = .mark ∧ s.latch.srcLen.toNat < Config.footerBytes ∧ t = shortBuffer s)
      ∨ (s.phase = .mark ∧ Config.footerBytes ≤ s.latch.srcLen.toNat
          ∧ ∃ r, decodeFooter (footerBytesAt s) = .error r
            ∧ t = s.raiseDirty (rejectCode s.dec.hasPrev r))
      ∨ (s.phase = .mark ∧ Config.footerBytes ≤ s.latch.srcLen.toNat
          ∧ ∃ i, decodeFooter (footerBytesAt s) = .ok i ∧ exec i s = .next t)
      ∨ (atBlock s = true ∧ ∃ r, decodeBlock (blockBytesAt s) = .error r
            ∧ t = s.raiseDirty (rejectCode s.dec.hasPrev r))
      ∨ (atBlock s = true ∧ ∃ i rest, decodeBlock (blockBytesAt s) = .ok (i, rest)
            ∧ exec i s = .next t)
      ∨ (s.phase ≠ .idle ∧ s.phase ≠ .mark ∧ atBlock s = false
          ∧ ∃ r, decodeCommand s.latch.cmd = .error r ∧ t = s.raise .badCommand)
      ∨ (s.phase ≠ .idle ∧ s.phase ≠ .mark ∧ atBlock s = false
          ∧ ∃ i, decodeCommand s.latch.cmd = .ok i ∧ exec i s = .next t) := by
  unfold engineStep at h
  split at h
  · rename_i hi
    exact .inl ⟨hi, by simpa using h.symm⟩
  rename_i hi
  refine .inr ?_
  split at h
  · rename_i hk
    unfold stepFooter at h
    split at h
    · rename_i hs
      exact .inl ⟨hk, hs, by simpa using h.symm⟩
    · rename_i hs
      have hs' : Config.footerBytes ≤ s.latch.srcLen.toNat := Nat.le_of_not_lt hs
      split at h
      · rename_i i hd
        exact .inr (.inr (.inl ⟨hk, hs', i, hd, h⟩))
      · rename_i r hd
        exact .inr (.inl ⟨hk, hs', r, hd, by simpa using h.symm⟩)
  rename_i hk
  refine .inr (.inr (.inr ?_))
  split at h
  · rename_i hb
    unfold stepBlock at h
    split at h
    · rename_i i rest hd
      exact .inr (.inl ⟨hb, i, rest, hd, h⟩)
    · rename_i r hd
      exact .inl ⟨hb, r, hd, by simpa using h.symm⟩
  · rename_i hb
    have hb' : atBlock s = false := by simpa using hb
    refine .inr (.inr ?_)
    unfold stepCommand at h
    split at h
    · rename_i i hd
      exact .inr ⟨hi, hk, hb', i, hd, h⟩
    · rename_i r hd
      exact .inl ⟨hi, hk, hb', r, hd, by simpa using h.symm⟩

/-! ## The meanings, by phase -/

/-- Everything MAXSIZE can do (R212). -/
theorem execMaxsize_cases {e : EngineSel} {k : ElemKind} {s t : State}
    (h : execMaxsize e k s = .next t) :
    s.phase = .check
      ∧ ((argsOk .maxsize s.latch = true
            ∧ t = s.complete (BitVec.ofNat 64 (maxCompressedSize s.latch.n.toNat)))
        ∨ (argsOk .maxsize s.latch = false ∧ t = s.raise .badCommand)) := by
  unfold execMaxsize at h
  split at h
  · simp at h
  · rename_i hp
    refine ⟨not_not.mp hp, ?_⟩
    split at h
    · rename_i ha
      exact .inl ⟨ha, by simpa using h.symm⟩
    · rename_i ha
      exact .inr ⟨by simpa using ha, by simpa using h.symm⟩

/-- A command that goes on step by step has no refused byte (R67, R326). -/
theorem not_runsAtOnce {s : State} {r w : Region} (h : ¬ runsAtOnce s r w = true) :
    s.grain ≠ .command ∧ accessesAdmitted s r w = true := by
  simpa [runsAtOnce] using h

/-- Everything the CHECK phase of COMPRESS can do (R180, R181, R297, R326). -/
theorem compressCheck_cases (bytes : List Byte) (first : Phase) (s : State) :
    (argsOk .compress s.latch = false ∧ compressCheck bytes first s = s.raise .badCommand)
      ∨ (argsOk .compress s.latch = true
          ∧ s.latch.cap.toNat < maxCompressedSize s.latch.n.toNat
          ∧ compressCheck bytes first s = s.raise .bufferTooSmall)
      ∨ (argsOk .compress s.latch = true
          ∧ maxCompressedSize s.latch.n.toNat ≤ s.latch.cap.toNat
          ∧ accessesAdmitted s (readRegion s.latch) ⟨s.latch.dst.toNat, bytes.length⟩ = false
          ∧ compressCheck bytes first s = s.raiseDirty .busError)
      ∨ (argsOk .compress s.latch = true
          ∧ maxCompressedSize s.latch.n.toNat ≤ s.latch.cap.toNat
          ∧ runsAtOnce s (readRegion s.latch) ⟨s.latch.dst.toNat, bytes.length⟩ = true
          ∧ compressCheck bytes first s
              = completeCompress bytes.length
                  { s with mem := writeBytes s.mem s.latch.dst.toNat bytes })
      ∨ (argsOk .compress s.latch = true
          ∧ maxCompressedSize s.latch.n.toNat ≤ s.latch.cap.toNat ∧ s.grain ≠ .command
          ∧ accessesAdmitted s (readRegion s.latch) ⟨s.latch.dst.toNat, bytes.length⟩ = true
          ∧ compressCheck bytes first s = { s with phase := first }) := by
  unfold compressCheck
  split
  · rename_i ha
    exact .inl ⟨by simpa using ha, rfl⟩
  rename_i ha
  have ha' : argsOk .compress s.latch = true := by simpa using ha
  refine .inr ?_
  split
  · rename_i hc
    exact .inl ⟨ha', hc, rfl⟩
  rename_i hc
  have hc' := Nat.le_of_not_lt hc
  refine .inr ?_
  split
  · rename_i hb
    simp only [drawsBusError, Bool.and_eq_true, Bool.not_eq_true'] at hb
    exact .inl ⟨ha', hc', hb.1, rfl⟩
  refine .inr ?_
  split
  · rename_i hg
    exact .inl ⟨ha', hc', hg, rfl⟩
  · rename_i hg
    obtain ⟨h1, h2⟩ := not_runsAtOnce hg
    exact .inr ⟨ha', hc', h1, h2, rfl⟩

/-- Everything COMPRESS.S can do, by phase (R180, R200). -/
theorem execCompressS_cases {k : ElemKind} {s t : State} (h : execCompressS k s = .next t) :
    (s.phase = .check ∧ t = compressCheck (encodeSeq (inputElems s)) .scan s)
      ∨ (s.phase = .scan ∧ t = scanStep s)
      ∨ (s.phase = .encFooter ∧ t = closeStream s) := by
  unfold execCompressS at h
  repeat' split at h
  all_goals simp_all

/-- Everything COMPRESS.V can do, by phase (R260, R269). -/
theorem execCompressV_cases {k : ElemKind} {s t : State} (h : execCompressV k s = .next t) :
    (s.phase = .check
        ∧ t = compressCheck (encodeSeqVec Config.lanes Config.maxBlock (inputElems s)) .vOpen s)
      ∨ (s.phase = .vOpen ∧ t = vecOpenStep s)
      ∨ (s.phase = .vLane ∧ t = vecLaneStep s)
      ∨ (s.phase = .vTail ∧ t = vecTailStep s)
      ∨ (s.phase = .vEmit ∧ t = vecEmitStep s)
      ∨ (s.phase = .vFoot ∧ t = closeStream s) := by
  unfold execCompressV at h
  repeat' split at h
  all_goals simp_all

/-- Everything the CHECK phase of DECOMPRESS can do (R221, R297, R326). -/
theorem decompressCheck_cases (result : Except ErrCode (List Word)) (s : State) :
    (argsOk .decompress s.latch = false ∧ decompressCheck result s = s.raise .badCommand)
      ∨ (argsOk .decompress s.latch = true
          ∧ accessesAdmitted s (readRegion s.latch) (errorRegion s.latch) = false
          ∧ decompressCheck result s = s.raiseDirty .busError)
      ∨ (argsOk .decompress s.latch = true
          ∧ runsAtOnce s (readRegion s.latch) (errorRegion s.latch) = true
          ∧ ∃ xs, result = .ok xs
            ∧ decompressCheck result s
                = completeDecompress
                    { s with mem := writeBytes s.mem s.latch.dst.toNat (elemBytes xs) })
      ∨ (argsOk .decompress s.latch = true
          ∧ runsAtOnce s (readRegion s.latch) (errorRegion s.latch) = true
          ∧ ∃ e, result = .error e ∧ decompressCheck result s = s.raiseDirty e)
      ∨ (argsOk .decompress s.latch = true ∧ s.grain ≠ .command
          ∧ accessesAdmitted s (readRegion s.latch) (errorRegion s.latch) = true
          ∧ decompressCheck result s = { s with phase := .mark }) := by
  unfold decompressCheck
  split
  · rename_i ha
    exact .inl ⟨by simpa using ha, rfl⟩
  rename_i ha
  have ha' : argsOk .decompress s.latch = true := by simpa using ha
  refine .inr ?_
  split
  · rename_i hb
    simp only [drawsBusError, Bool.and_eq_true, Bool.not_eq_true'] at hb
    exact .inl ⟨ha', hb.1, rfl⟩
  refine .inr ?_
  split
  · rename_i hg
    cases result with
    | ok xs => exact .inl ⟨ha', hg, xs, rfl, rfl⟩
    | error e => exact .inr (.inl ⟨ha', hg, e, rfl, rfl⟩)
  · rename_i hg
    obtain ⟨h1, h2⟩ := not_runsAtOnce hg
    exact .inr (.inr ⟨ha', h1, h2, rfl⟩)

/-- Everything DECOMPRESS.S can do, by phase (R221, R237). -/
theorem execDecompressS_cases {k : ElemKind} {s t : State} (h : execDecompressS k s = .next t) :
    (s.phase = .check ∧ t = decompressCheck (decodeBuf (inputBytes s) s.latch.n.toNat) s)
      ∨ (s.phase = .hdr ∧ t = headerStep s)
      ∨ (s.phase = .elem ∧ t = elemStep s)
      ∨ (s.phase = .fin ∧ t = finishStep s) := by
  unfold execDecompressS at h
  repeat' split at h
  all_goals simp_all

/-- Everything DECOMPRESS.V can do, by phase (R270, R276). -/
theorem execDecompressV_cases {k : ElemKind} {s t : State} (h : execDecompressV k s = .next t) :
    (s.phase = .check
        ∧ t = decompressCheck (decodeBufVec Config.lanes (inputBytes s) s.latch.n.toNat) s)
      ∨ (s.phase = .hdr ∧ t = headerStep s)
      ∨ (s.phase = .dLane ∧ t = laneStep s)
      ∨ (s.phase = .dTail ∧ t = elemStep s)
      ∨ (s.phase = .fin ∧ t = finishStep s) := by
  unfold execDecompressV at h
  repeat' split at h
  all_goals simp_all

/-- Everything a block form can do (R229, R150, R155, R160). -/
theorem execBlock_cases {i : Instr} {s t : State} (h : execBlock i s = .next t) :
    s.phase = .hdr
      ∧ ((∃ e, blockError i s = some e ∧ t = s.raiseDirty e)
        ∨ (blockError i s = none ∧ t = runBlock i s)) := by
  unfold execBlock at h
  split at h
  · simp at h
  · rename_i hp
    refine ⟨not_not.mp hp, ?_⟩
    split at h
    · rename_i e he
      exact .inl ⟨e, he, by simpa using h.symm⟩
    · rename_i he
      exact .inr ⟨he, by simpa using h.symm⟩

/-- Everything FOOTER can do (R165, R222, R223). -/
theorem execFooter_cases {s t : State} (h : execFooter s = .next t) :
    s.phase = .mark
      ∧ ((s.latch.srcLen.toNat < Config.footerBytes ∧ t = shortBuffer s)
        ∨ (Config.footerBytes ≤ s.latch.srcLen.toNat ∧ t = s.raiseDirty .unsupportedFormat)
        ∨ (Config.footerBytes ≤ s.latch.srcLen.toNat
            ∧ t = { s with
                phase := .hdr, dec := { s.dec with endOff := footerOffset s.latch } })) := by
  unfold execFooter at h
  split at h
  · simp at h
  rename_i hp
  refine ⟨not_not.mp hp, ?_⟩
  split at h
  · rename_i hs
    exact .inl ⟨hs, by simpa using h.symm⟩
  rename_i hs
  have hs' := Nat.le_of_not_lt hs
  split at h
  · exact .inr (.inl ⟨hs', by simpa using h.symm⟩)
  · exact .inr (.inr ⟨hs', by simpa using h.symm⟩)

/-- The three block forms share one meaning. -/
theorem exec_block {i : Instr} (h : i.isBlock = true) (s : State) : exec i s = execBlock i s := by
  cases i <;> simp [Instr.isBlock] at h <;> rfl

/-- No meaning refuses: only the host's actions are refused (R348, R370). -/
theorem exec_not_refused (i : Instr) (s : State) (r : Refusal) : exec i s ≠ .refused r := by
  cases i <;>
    simp only [exec, execMaxsize, execCompressS, execCompressV, execDecompressS, execDecompressV,
      execRepeatBlock, execDeltaE, execDeltaI, execBlock, execFooter] <;>
    repeat' split
  all_goals simp

/-! ## Buffers too short for a footer -/

/-- Everything R222 can do. -/
theorem shortBuffer_cases (s : State) :
    (s.latch.srcLen = 0#64 ∧ s.latch.n = 0#64
        ∧ shortBuffer s = (s.wrote (errorRegion s.latch)).complete 0#64)
      ∨ (s.latch.srcLen = 0#64 ∧ s.latch.n ≠ 0#64 ∧ shortBuffer s = s.raiseDirty .lengthMismatch)
      ∨ (s.latch.srcLen ≠ 0#64 ∧ shortBuffer s = s.raiseDirty .truncatedInput) := by
  unfold shortBuffer
  by_cases h1 : s.latch.srcLen = 0#64 <;> by_cases h2 : s.latch.n = 0#64 <;> simp [h1, h2]

/-! ## Regions of a command whose arguments passed the checks -/

/-- The arguments of a COMPRESS that passed (R297), as facts on numbers. -/
theorem argsOk_compress {l : Latches} (h : argsOk .compress l = true) :
    l.src.toNat % 8 = 0
      ∧ l.src.toNat + 8 * l.n.toNat ≤ Config.addressSpace
      ∧ l.dst.toNat + l.cap.toNat ≤ Config.addressSpace
      ∧ (l.n.toNat = 0 ∨ l.cap.toNat = 0 ∨ l.dst.toNat + l.cap.toNat ≤ l.src.toNat
          ∨ l.src.toNat + 8 * l.n.toNat ≤ l.dst.toNat) := by
  simp only [argsOk, Region.overlaps, Bool.and_eq_true, decide_eq_true_eq, Bool.not_eq_true',
    Bool.and_eq_false_iff, decide_eq_false_iff_not] at h
  omega

/-- The arguments of a DECOMPRESS that passed (R297), as facts on numbers. -/
theorem argsOk_decompress {l : Latches} (h : argsOk .decompress l = true) :
    l.dst.toNat % 8 = 0
      ∧ l.dst.toNat + 8 * l.n.toNat ≤ Config.addressSpace
      ∧ l.src.toNat + l.srcLen.toNat ≤ Config.addressSpace
      ∧ (l.n.toNat = 0 ∨ l.srcLen.toNat = 0 ∨ l.dst.toNat + 8 * l.n.toNat ≤ l.src.toNat
          ∨ l.src.toNat + l.srcLen.toNat ≤ l.dst.toNat) := by
  simp only [argsOk, Region.overlaps, Bool.and_eq_true, decide_eq_true_eq, Bool.not_eq_true',
    Bool.and_eq_false_iff, decide_eq_false_iff_not] at h
  omega

/-- The error region of a COMPRESS with enough capacity is not cut (R199). -/
theorem errorRegion_compress {l : Latches} (hop : latchedOp l = some .compress)
    (h : argsOk .compress l = true) (hc : maxCompressedSize l.n.toNat ≤ l.cap.toNat) :
    errorRegion l = ⟨l.dst.toNat, maxCompressedSize l.n.toNat⟩ := by
  have := argsOk_compress h
  simp only [errorRegion, hop, Region.cut, Region.mk.injEq, true_and]
  omega

/-- The error region of a DECOMPRESS whose arguments passed is not cut (R235). -/
theorem errorRegion_decompress {l : Latches} (hop : latchedOp l = some .decompress)
    (h : argsOk .decompress l = true) : errorRegion l = ⟨l.dst.toNat, 8 * l.n.toNat⟩ := by
  have := argsOk_decompress h
  simp only [errorRegion, hop, Region.cut, Region.mk.injEq, true_and]
  omega

/-! ## Completion -/

/-- A completion with an error and free bytes: what it leaves alone (R199, R235, R326, R335). -/
theorem raiseDirty_memory {s : State} (hm : s.mem.wf = true) (e : ErrCode) {c : Nat}
    (h : (errorRegion s.latch).contains c = false) :
    readByte (s.raiseDirty e).mem c = readByte s.mem c := by
  simp only [raiseDirty_mem]
  exact scramble_outside _ hm h

theorem raiseDirty_wf {s : State} (hm : s.mem.wf = true) (e : ErrCode) :
    (s.raiseDirty e).mem.wf = true := by
  simp only [raiseDirty_mem]
  exact scramble_wf _ hm _

end Sys2Proof.Laws
end

