-- ==== Sys2Proof/Laws/Host.lean ====
section
/-! SUPPORT. Everything the host's side can do: one lemma per operation of HostPort.lean. -/

namespace Sys2Proof.Laws

open Sys2Proof.Machine

/-- Everything a start can do (R293, R370 (d), (e)). -/
theorem startCommand_cases {v : Word} {s t : State} (h : startCommand v s = .next t) :
    t = s.start v
      ∧ s.others.any (conflicts (regionsOf (latchesFor v s))) = false
      ∧ (!s.platform.coherent && s.dirty.any (readRegion (latchesFor v s)).overlaps) = false := by
  unfold startCommand at h
  split at h
  · simp at h
  rename_i ho
  split at h
  · simp at h
  rename_i hc
  exact ⟨by simpa using h.symm, by simpa using ho, by simpa using hc⟩

/-- Everything a write of CMD can do (R292, R293, R294). -/
theorem writeCmd_cases {v : Word} {s t : State} (h : writeCmd v s = .next t) :
    (s.busy = true ∧ t = { s with drop := true }) ∨ (s.busy = false ∧ t = s.start v) := by
  unfold writeCmd at h
  split at h
  · rename_i hb
    exact .inl ⟨hb, by simpa using h.symm⟩
  · rename_i hb
    exact .inr ⟨by simpa using hb, (startCommand_cases h).1⟩

/-- Everything RegWrite can do (R290). -/
theorem regWrite_cases {off : Nat} {v : Word} {s t : State} (h : regWrite off v s = .next t) :
    (off = 0x08 ∧ t = writeCtrl v s)
      ∨ (off = 0x10 ∧ t = writeStatus v s)
      ∨ (off = 0x18 ∧ writeCmd v s = .next t)
      ∨ (off = 0x20 ∧ t = { s with src := v })
      ∨ (off = 0x28 ∧ t = { s with srcLen := v })
      ∨ (off = 0x30 ∧ t = { s with dst := v })
      ∨ (off = 0x38 ∧ t = { s with dstCap := v })
      ∨ (off = 0x40 ∧ t = { s with count := v })
      ∨ t = s := by
  unfold regWrite at h
  repeat' split at h
  all_goals simp_all

/-- What a read leaves: the reply of a master, and nothing else (R69). -/
theorem replyTo_cases (who : Master) (v : Reply) (s : State) :
    ∃ r, replyTo who v s = { s with reply := r } := by
  cases who
  · exact ⟨v, rfl⟩
  · exact ⟨s.reply, rfl⟩

/-- Everything a bus read can do: the reply, and nothing else (R69). -/
theorem busLoad_cases {who : Master} {addr n : Nat} {s t : State}
    (h : busLoad who addr n s = .next t) : ∃ r, t = { s with reply := r } := by
  unfold busLoad at h
  repeat' split at h
  all_goals first
    | simp at h; done
    | (obtain ⟨r, hr⟩ := replyTo_cases who _ s
       exact ⟨r, by rw [← hr]; simpa using h.symm⟩)

/-- What a write of memory leaves: the bytes, and the host's duties to its caches (R80). -/
theorem storeBytes_cases (who : Master) (addr : Nat) (bs : List Byte) (s : State) :
    ∃ d st, storeBytes who addr bs s
      = { s with mem := writeBytes s.mem addr bs, dirty := d, stale := st } := by
  unfold storeBytes
  split
  · exact ⟨_, _, rfl⟩
  · exact ⟨s.dirty, s.stale, rfl⟩

/-- Everything a bus write can do (R290, R302, R370). -/
theorem busStore_cases {who : Master} {addr : Nat} {bs : List Byte} {s t : State}
    (h : busStore who addr bs s = .next t) :
    (∃ off, who = .host ∧ targetOf s.platform addr bs.length = .register off
        ∧ regWrite off (rdWord bs) s = .next t)
      ∨ (targetOf s.platform addr bs.length = .memory
          ∧ touchesRunning s .write ⟨addr, bs.length⟩ = false ∧ t = storeBytes who addr bs s) := by
  unfold busStore at h
  split at h
  · simp at h
  · rename_i off ho
    split at h
    · rename_i hw
      exact .inl ⟨off, hw, ho, h⟩
    · simp at h
  · simp at h
  · rename_i hm
    split at h
    · simp at h
    · rename_i ht
      exact .inr ⟨hm, by simpa using ht, by simpa using h.symm⟩

/-- A host that waits changes only what it last read. -/
theorem whileWaiting_cases (a : Action) (s : State) :
    ∃ r, whileWaiting a s = { s with reply := r } := by
  cases a <;> exact ⟨_, rfl⟩

/-- Everything one action of the agents outside the block can do (R381). -/
theorem act_cases {a : Action} {s t : State} (h : act a s = .next t) :
    (∃ r, t = { s with reply := r })
      ∨ (∃ off v, registerWritten s a = some (off, v) ∧ regWrite off v s = .next t)
      ∨ (∃ who addr bs, touchesRunning s .write ⟨addr, bs.length⟩ = false
          ∧ t = storeBytes who addr bs s)
      ∨ (a = .reset ∧ t = s.resetEvent)
      ∨ (∃ d st o, t = { s with dirty := d, stale := st, others := o }) := by
  cases a with
  | load who addr n => exact .inl (busLoad_cases h)
  | store who addr bs =>
    rcases busStore_cases h with ⟨off, rfl, ho, hw⟩ | ⟨-, ht, hs⟩
    · exact .inr (.inl ⟨off, _, by simp [registerWritten, ho], hw⟩)
    · exact .inr (.inr (.inl ⟨who, _, bs, ht, hs⟩))
  | storeReply addr =>
    rcases busStore_cases h with ⟨off, -, ho, hw⟩ | ⟨-, ht, hs⟩
    · exact .inr (.inl ⟨off, _, by simp [registerWritten, ho], hw⟩)
    · exact .inr (.inr (.inl ⟨.host, _, _, ht, hs⟩))
  | reset => exact .inr (.inr (.inr (.inl ⟨rfl, by simpa [act] using h.symm⟩)))
  | cacheClean r =>
    exact .inr (.inr (.inr (.inr ⟨_, s.stale, s.others, by simpa [act] using h.symm⟩)))
  | cacheInvalidate r =>
    exact .inr (.inr (.inr (.inr ⟨s.dirty, _, s.others, by simpa [act] using h.symm⟩)))
  | otherStarts run =>
    simp only [act, otherStarts] at h
    split at h
    · simp at h
    · exact .inr (.inr (.inr (.inr ⟨s.dirty, s.stale, run :: s.others, by simpa using h.symm⟩)))
  | otherEnds run =>
    exact .inr (.inr (.inr (.inr
      ⟨s.dirty, s.stale, s.others.erase run, by simpa [act] using h.symm⟩)))
  | waitDone => exact .inl ⟨_, by simpa [act, whileWaiting, pollStatus] using h.symm⟩
  | waitIdle => exact .inl ⟨_, by simpa [act, whileWaiting, pollStatus] using h.symm⟩
  | waitIrq => exact .inl ⟨s.reply, by simpa [act, whileWaiting] using h.symm⟩

/-! ## Ranges to clean and to invalidate (R80) -/

/-- The parts of a range outside another hold exactly its addresses outside it. -/
theorem without_contains (r t : Region) (c : Nat) :
    (r.without t).any (·.contains c) = (r.contains c && !t.contains c) := by
  rw [Bool.eq_iff_iff]
  simp only [Region.without, List.any_filter, List.any_cons, List.any_nil, Bool.or_false,
    Region.contains, Bool.or_eq_true, Bool.and_eq_true, decide_eq_true_eq, Bool.not_eq_true',
    Bool.and_eq_false_iff, decide_eq_false_iff_not]
  omega

/-- A clean or an invalidation over a range clears that range and no more. -/
theorem clearRange_contains (t : Region) (rs : List Region) (c : Nat) :
    (clearRange t rs).any (·.contains c) = (rs.any (·.contains c) && !t.contains c) := by
  induction rs with
  | nil => rfl
  | cons r rs ih =>
    simp only [clearRange, List.flatMap_cons, List.any_append, List.any_cons] at ih ⊢
    rw [ih, without_contains, Bool.and_or_distrib_right]

/-- Everything a move of the outside can do: an empty inbox changes nothing, a wait that cannot end
changes at most the reply, else the first action leaves the inbox and acts. -/
theorem hostStep_cases {s t : State} (h : hostStep s = .next t) :
    (s.inbox = [] ∧ t = s)
      ∨ (∃ a rest, s.inbox = a :: rest ∧ waitOver a s = false ∧ t = whileWaiting a s)
      ∨ (∃ a rest, s.inbox = a :: rest ∧ waitOver a s = true
          ∧ act a { s with inbox := rest } = .next t) := by
  unfold hostStep at h
  cases hi : s.inbox with
  | nil =>
    rw [hi] at h
    exact .inl ⟨rfl, by simpa using h.symm⟩
  | cons a rest =>
    rw [hi] at h
    by_cases hw : waitOver a s = true
    · simp only [hw, if_true] at h
      exact .inr (.inr ⟨a, rest, rfl, hw, h⟩)
    · simp only [hw] at h
      exact .inr (.inl ⟨a, rest, rfl, by simpa using hw, by simpa using h.symm⟩)

/-- The reset event from a running command and from an idle block (R360). -/
theorem resetEvent_memory {s : State} (hm : s.mem.wf = true) {c : Nat}
    (h : s.busy = false ∨ (errorRegion s.latch).contains c = false) :
    readByte s.resetEvent.mem c = readByte s.mem c := by
  unfold State.resetEvent
  by_cases hb : s.busy = true
  · have h' : (errorRegion s.latch).contains c = false := by simpa [hb] using h
    simp only [hb, if_true, wrote_mem]
    exact scrambleAdmitted_outside _ _ hm h'
  · simp [hb]

theorem resetEvent_wf {s : State} (hm : s.mem.wf = true) : s.resetEvent.mem.wf = true := by
  unfold State.resetEvent
  by_cases hb : s.busy = true
  · simp only [hb, if_true, wrote_mem]
    exact scrambleAdmitted_wf _ _ hm _
  · simpa [hb] using hm

end Sys2Proof.Laws
end

