-- ==== Sys2Proof/Laws/PerInstr.lean ====
section
/-! SUPPORT. The family of statements about every instruction as syntax: the length of its encoding
(R97, R100, R115). -/

namespace Sys2Proof.Laws.EncodedLength

/-- The encoding of a well-formed instruction is as long as the spec says. -/
def Statement (i : Instr) : Prop := i.wf = true → (encode i).length = i.byteLen

theorem maxsize (eng : EngineSel) (kind : ElemKind) : Statement (.maxsize eng kind) :=
  fun _ => Laws.leBytes_length 8 _

theorem compressS (kind : ElemKind) : Statement (.compressS kind) :=
  fun _ => Laws.leBytes_length 8 _

theorem compressV (kind : ElemKind) : Statement (.compressV kind) :=
  fun _ => Laws.leBytes_length 8 _

theorem decompressS (kind : ElemKind) : Statement (.decompressS kind) :=
  fun _ => Laws.leBytes_length 8 _

theorem decompressV (kind : ElemKind) : Statement (.decompressV kind) :=
  fun _ => Laws.leBytes_length 8 _

theorem repeatBlock (cnt : BlockCount) (v : Word) : Statement (.repeatBlock cnt v) := by
  intro _
  simp [encode, Instr.byteLen, payLen]

theorem deltaE (cnt : BlockCount) (w : WidthCode) (ref : Word) (zs : List Word) :
    Statement (.deltaE cnt w ref zs) := by
  intro h
  have hn : zs.length = cnt.n - 1 := by
    simp only [Instr.wf, Bool.and_eq_true, decide_eq_true_eq] at h
    omega
  simp [encode, Instr.byteLen, payLen, hn]

theorem deltaI (cnt : BlockCount) (w : WidthCode) (zs : List Word) :
    Statement (.deltaI cnt w zs) := by
  intro h
  have hn : zs.length = cnt.n := by
    simp only [Instr.wf, Bool.and_eq_true, decide_eq_true_eq] at h
    omega
  simp [encode, Instr.byteLen, payLen, hn]

theorem footer : Statement .footer := fun _ => rfl

end Sys2Proof.Laws.EncodedLength
end

