-- ==== Sys2Proof/Tests/Slice0.lean ====
section
/-! SUPPORT. Tests: expected results from spec/95_test_vectors.md and the worked examples of the
rules; and for every statement with hypotheses a witness that meets them, clause by clause. -/

namespace Sys2Proof.Tests

open Sys2Proof.Machine

set_option Elab.async false

/-! ## Helpers -/

/-- Bytes from their numbers. -/
def hex (ns : List Nat) : List Byte := ns.map (BitVec.ofNat 8)

/-- Elements from signed numbers. -/
def ints (vs : List Int) : List Word := vs.map (BitVec.ofInt 64)

/-- The footer F of 95_test_vectors.md. -/
def ftr : List Byte := hex [0x4D, 0, 0, 0, 0, 0, 0]

/-- INT64_MAX and INT64_MIN. -/
def big : Int := 9223372036854775807
def small : Int := -9223372036854775808

/-- Whether a step's next state has a property. -/
def after (o : Host.Outcome State Fault Refusal) (f : State → Bool) : Bool :=
  match o with
  | .next t => f t
  | .fault _ => false
  | .refused _ => false

/-- Whether an outcome is a next state. -/
def isNext (o : Host.Outcome State Fault Refusal) : Bool := after o fun _ => true

/-- Whether an outcome is this refusal. -/
def isRefused (r : Refusal) (o : Host.Outcome State Fault Refusal) : Bool :=
  match o with
  | .next _ => false
  | .fault _ => false
  | .refused q => decide (q = r)

/-- Whether decoding failed with this code. -/
def isErr (e : ErrCode) (r : Except ErrCode (List Word)) : Bool :=
  match r with
  | .ok _ => false
  | .error d => decide (d = e)

/-- Whether decoding gave these elements. -/
def isOk (xs : List Word) (r : Except ErrCode (List Word)) : Bool :=
  match r with
  | .ok ys => decide (ys = xs)
  | .error _ => false

/-- A command latched over a memory, in a phase. -/
def running (l : Latches) (ph : Phase) (mem : Memory) : State :=
  { State.reset with latch := l, phase := ph, mem := mem }

/-- The bytes placed at an address of an empty memory. -/
def at' (a : Nat) (bs : List Byte) : Memory := writeBytes [] a bs

/-- COMPRESS of the elements of E13 at 0x1000 to 0x2000, with a capacity of 34. -/
def squeeze (word : Nat) (ph : Phase) : State :=
  running ⟨BitVec.ofNat 64 word, 0x1000#64, 0#64, 0x2000#64, 34#64, 3#64⟩ ph
    (at' 0x1000 (elemBytes (ints [3, 3, 9])))

/-- The bytes of E13. -/
def e13 : List Byte := hex [0x81, 3, 0, 0, 0, 0, 0, 0, 0, 0x00, 0x0C] ++ ftr

/-- DECOMPRESS of a buffer at 0x1000 to 0x2000, for `n` elements. -/
def expand (word : Nat) (buf : List Byte) (n : Nat) (ph : Phase) : State :=
  running ⟨BitVec.ofNat 64 word, 0x1000#64, BitVec.ofNat 64 buf.length, 0x2000#64, 0#64,
    BitVec.ofNat 64 n⟩ ph (at' 0x1000 buf)

/-- The same, at the head of its block region with `k` elements out. -/
def inBlocks (word : Nat) (buf : List Byte) (n p k : Nat) (grain : Grain) : State :=
  { expand word buf n .hdr with
    grain := grain
    dec := { DecRegs.reset with
      p := p, k := k, prev := 3#64, hasPrev := decide (0 < k), endOff := buf.length - 7 } }

/-! ## WellFormed: each check refuses an ill-formed term -/

theorem test_wf_accepts :
    (Instr.repeatBlock ⟨1, true⟩ 5#64).wf = true ∧ (Instr.repeatBlock ⟨15, false⟩ 5#64).wf = true
      ∧ (Instr.repeatBlock ⟨4294967295, true⟩ 5#64).wf = true
      ∧ (Instr.deltaE ⟨2, false⟩ 0 7#64 [255#64]).wf = true
      ∧ (Instr.deltaI ⟨1, false⟩ 3 [0xFFFFFFFFFFFFFFFF#64]).wf = true := by decide +kernel

theorem test_wf_refuses :
    (Instr.repeatBlock ⟨0, true⟩ 5#64).wf = false
      ∧ (Instr.repeatBlock ⟨16, false⟩ 5#64).wf = false
      ∧ (Instr.repeatBlock ⟨4294967296, true⟩ 5#64).wf = false
      ∧ (Instr.deltaE ⟨2, false⟩ 0 7#64 []).wf = false
      ∧ (Instr.deltaE ⟨2, false⟩ 0 7#64 [256#64]).wf = false
      ∧ (Instr.deltaI ⟨2, false⟩ 1 [1#64]).wf = false
      ∧ (Instr.deltaI ⟨1, false⟩ 1 [65536#64]).wf = false := by decide +kernel

/-! ## Decoding: words written bit by bit from 30_encoding.md -/

/-- R110, R111: RSVD, KIND, ENG, OP. -/
theorem test_decode_commands :
    decodeCommand (0#58 ++ 0b1#1 ++ 0b0#1 ++ 0b0001#4) = .ok (.maxsize .scalar .f64)
      ∧ decodeCommand (0#58 ++ 0b0#1 ++ 0b1#1 ++ 0b0001#4) = .ok (.maxsize .vector .i64)
      ∧ decodeCommand (0#58 ++ 0b0#1 ++ 0b0#1 ++ 0b0010#4) = .ok (.compressS .i64)
      ∧ decodeCommand (0#58 ++ 0b1#1 ++ 0b1#1 ++ 0b0010#4) = .ok (.compressV .f64)
      ∧ decodeCommand (0#58 ++ 0b1#1 ++ 0b0#1 ++ 0b0011#4) = .ok (.decompressS .f64)
      ∧ decodeCommand (0#58 ++ 0b0#1 ++ 0b1#1 ++ 0b0011#4) = .ok (.decompressV .i64) := by decide

/-- R114: OP 0, 4 and 15, bit 6 and bit 63. -/
theorem test_decode_reserved_commands :
    ([0x0#64, 0x4#64, 0xF#64, 0x41#64, 0x8000000000000001#64].all fun v =>
      decide (decodeCommand v = .error .reservedCommand)) = true := by decide

/-- R92 to R95: K, W, C, the count field, the fields. -/
theorem test_decode_blocks :
    decodeBlock ((0b10#2 ++ 0b00#2 ++ 0b1111#4) :: hex [0x10, 0, 0, 0, 5, 0, 0, 0, 0, 0, 0, 0])
        = .ok (.repeatBlock ⟨16, true⟩ 5#64, [])
      ∧ decodeBlock ((0b01#2 ++ 0b11#2 ++ 0b0000#4) :: hex [10, 0, 0, 0, 0, 0, 0, 0, 7])
        = .ok (.deltaE ⟨1, false⟩ 3 10#64 [], hex [7])
      ∧ decodeBlock ((0b00#2 ++ 0b01#2 ++ 0b0001#4) :: hex [0x46, 2, 2, 0])
        = .ok (.deltaI ⟨2, false⟩ 1 [0x246#64, 2#64], []) := by decide

/-- R104, R227, R230: each refusal by its name. -/
theorem test_decode_refuses :
    decodeBlock [] = .error .noSelector
      ∧ decodeBlock (hex [0x90]) = .error .reservedSelector
      ∧ decodeBlock (hex [0xC0]) = .error .reservedSelector
      ∧ decodeBlock (hex [0x8F, 1, 0, 0]) = .error (.truncatedCount .repeatRun)
      ∧ decodeBlock (hex [0x0F, 0, 0, 0, 0]) = .error (.zeroCount .deltaI)
      ∧ decodeBlock (hex [0x41, 1, 2, 3]) = .error (.truncatedPayload .deltaE)
      ∧ decodeFooter (hex [0x4E, 0, 0, 0, 0, 0, 0]) = .error (.unknownMarker 0x4E#8)
      ∧ decodeFooter (hex [0x4D, 0, 0, 0, 0, 0]) = .error .truncatedFooter := by decide

/-- R100, R102: the marker decides, the padding does not. -/
theorem test_decode_footer :
    decodeFooter (0b01001101#8 :: hex [0, 0, 0, 0, 0, 0]) = .ok .footer
      ∧ decodeFooter (0b01001101#8 :: hex [255, 255, 255, 255, 255, 255]) = .ok .footer := by decide

/-- Every constructor's encoding, from the tables of R94, R100 and R111. -/
theorem test_encode :
    encode (.maxsize .vector .f64) = hex [0x31, 0, 0, 0, 0, 0, 0, 0]
      ∧ encode (.compressS .f64) = hex [0x22, 0, 0, 0, 0, 0, 0, 0]
      ∧ encode (.compressV .i64) = hex [0x12, 0, 0, 0, 0, 0, 0, 0]
      ∧ encode (.decompressS .i64) = hex [0x03, 0, 0, 0, 0, 0, 0, 0]
      ∧ encode (.decompressV .f64) = hex [0x33, 0, 0, 0, 0, 0, 0, 0]
      ∧ encode (.repeatBlock ⟨2, true⟩ 9#64)
        = hex [0x8F, 2, 0, 0, 0, 9, 0, 0, 0, 0, 0, 0, 0]
      ∧ encode (.deltaE ⟨2, false⟩ 0 100#64 [3#64]) = hex [0x41, 100, 0, 0, 0, 0, 0, 0, 0, 3]
      ∧ encode (.deltaI ⟨1, false⟩ 2 [139989#64]) = hex [0x20, 0xD5, 0x22, 2, 0]
      ∧ encode .footer = ftr := by decide

/-- Each row of the opcode table, as its table word. -/
theorem test_table_words :
    decodeTableWord 64 0x1 = some (.maxsize .scalar .i64)
      ∧ decodeTableWord 64 0x2 = some (.compressS .i64)
      ∧ decodeTableWord 64 0x12 = some (.compressV .i64)
      ∧ decodeTableWord 64 0x3 = some (.decompressS .i64)
      ∧ decodeTableWord 64 0x13 = some (.decompressV .i64)
      ∧ decodeTableWord 8 0x80 = some (.repeatBlock ⟨1, false⟩ 0#64)
      ∧ decodeTableWord 8 0x40 = some (.deltaE ⟨1, false⟩ 0 0#64 [])
      ∧ decodeTableWord 8 0x00 = some (.deltaI ⟨1, false⟩ 0 [0#64])
      ∧ decodeTableWord 8 0x4D = some .footer := by decide +kernel

/-! ## Primitives: the tables of 95_test_vectors.md section 2 -/

theorem test_zigzag_table :
    ((ints [0, -1, 1, -2, 64, 128, -129, 32768, big, small]).map fun d => ((zz d).toNat, (wc (zz d)).val))
      = [(0, 0), (1, 0), (2, 0), (3, 0), (0x80, 0), (0x100, 1), (0x101, 1), (0x10000, 2),
        (0xFFFFFFFFFFFFFFFE, 3), (0xFFFFFFFFFFFFFFFF, 3)] := by decide +kernel

theorem test_width_class_bounds :
    ([0xFF#64, 0x100#64, 0xFFFF#64, 0x10000#64, 0xFFFFFFFF#64, 0x100000000#64].map
      fun z => (wc z).val) = [0, 1, 1, 2, 2, 3] := by decide

theorem test_modular_delta :
    delta (BitVec.ofInt 64 big) (BitVec.ofInt 64 small) = BitVec.ofInt 64 (-1)
      ∧ delta (BitVec.ofInt 64 small) (BitVec.ofInt 64 big) = 1#64
      ∧ unzz 0x101#64 = BitVec.ofInt 64 (-129) := by decide +kernel

/-! ## Encoder vectors (95_test_vectors.md section 3) -/

/-- The input of E1. -/
def x1 : List Word := ints [1, 3, 4, 2, 1, 3, 7, 5, 16, 8, 8, 3, 7, 5, 16, 8, 8, 3]

/-- The bytes of E1. -/
def e1 : List Byte :=
  hex [0x4F, 0x12, 0, 0, 0, 1, 0, 0, 0, 0, 0, 0, 0, 4, 2, 3, 1, 4, 8, 3, 0x16, 0x0F, 0, 9, 8, 3,
    0x16, 0x0F, 0, 9] ++ ftr

/-- The input of E10. -/
def x10 : List Word := ints [7, 7, 7, 8, 9, 300, 301, 70000, 70000, 70000, 5]

/-- The bytes of E10. -/
def e10 : List Byte :=
  hex [0x82, 7, 0, 0, 0, 0, 0, 0, 0, 1, 2, 2, 0x11, 0x46, 2, 2, 0, 0x82, 0x70, 0x11, 1, 0, 0, 0, 0,
    0, 0x20, 0xD5, 0x22, 2, 0] ++ ftr

theorem test_encode_E1 : encodeSeq x1 = e1 := by decide +kernel

theorem test_encode_E11 :
    encodeSeq (ints [0, 1, 300, 70000, 1099511627776, 5])
      = hex [0x41, 0, 0, 0, 0, 0, 0, 0, 0, 2, 0x10, 0x56, 2, 0x20, 0x88, 0x20, 2, 0, 0x31, 0x20,
        0xDD, 0xFD, 0xFF, 0xFF, 1, 0, 0, 0xF5, 0xFF, 0xFF, 0xFF, 0xFF, 1, 0, 0] ++ ftr := by
  decide +kernel

/-- E4, E5, E6: no element, one element, and the modular jump from MIN to MAX. -/
theorem test_encode_edges :
    encodeSeq [] = ftr
      ∧ encodeSeq (ints [big]) = hex [0x80, 255, 255, 255, 255, 255, 255, 255, 0x7F] ++ ftr
      ∧ encodeSeq (ints [small, big]) = hex [0x41, 0, 0, 0, 0, 0, 0, 0, 0x80, 1] ++ ftr := by
  decide +kernel

/-- E15: a block's width does not shrink. E16, E17: the largest short and the smallest long count. -/
theorem test_encode_widths_and_counts :
    encodeSeq (ints [0, 1000, 1001, 1000])
        = hex [0x53, 0, 0, 0, 0, 0, 0, 0, 0, 0xD0, 7, 2, 0, 1, 0] ++ ftr
      ∧ encodeSeq (List.replicate 15 5#64) = hex [0x8E, 5, 0, 0, 0, 0, 0, 0, 0] ++ ftr
      ∧ encodeSeq (List.replicate 16 5#64)
        = hex [0x8F, 0x10, 0, 0, 0, 5, 0, 0, 0, 0, 0, 0, 0] ++ ftr := by decide +kernel

/-- R278: the bytes of E10 with LANES = 4, and the vector engine's own 8 on E1. -/
theorem test_vector_encode :
    encodeSeqVec 4 Config.maxBlock x10 = e10 ∧ encodeSeqVec 8 Config.maxBlock x1 = e1 := by
  decide +kernel

/-- R186, R279: seven fives with MAX_BLOCK = 3, on the scalar engine and with LANES = 4. -/
theorem test_block_cap :
    encodeSeqWith 3 (List.replicate 7 5#64)
        = hex [0x82, 5, 0, 0, 0, 0, 0, 0, 0, 0x82, 5, 0, 0, 0, 0, 0, 0, 0, 0, 0] ++ ftr
      ∧ encodeSeqVec 4 3 (List.replicate 7 5#64) = encodeSeqWith 3 (List.replicate 7 5#64) := by
  decide +kernel

/-- R278 (b): P = [1, 0, 1, 0] with LANES = 4; the true lane after the first false one is lost. -/
theorem test_lane_predicates :
    (lanePreds 4 Config.maxBlock (elemAt x10) .deltaI 3 0 1).toList = [true, false, true, false]
      ∧ leadingTrue [true, false, true, false] = 1 := by decide +kernel

/-! ## Decoder vectors (95_test_vectors.md section 5) -/

/-- DV20, DV21, DV22 on both engines. -/
theorem test_decode_E1 :
    isOk x1 (decodeBuf e1 18) = true ∧ isOk x1 (decodeBufVec 8 e1 18) = true
      ∧ isErr .lengthMismatch (decodeBuf e1 17) = true
      ∧ isErr .lengthMismatch (decodeBufVec 8 e1 19) = true := by decide +kernel

/-- DV13, DV14, DV15: a reserved selector, a DELTA.I first, a long count of 0. -/
theorem test_decode_unsupported :
    isErr .unsupportedFormat (decodeBuf (hex [0x90, 0, 0, 0, 0, 0, 0, 0, 0] ++ ftr) 1) = true
      ∧ isErr .unsupportedFormat (decodeBuf (hex [0, 5] ++ ftr) 1) = true
      ∧ isErr .unsupportedFormat
        (decodeBuf (hex [0x8F, 0, 0, 0, 0, 5, 0, 0, 0, 0, 0, 0, 0] ++ ftr) 1) = true := by
  decide +kernel

/-- DV16, DV18, DV25: a count field, a payload and a delta field cut short. -/
theorem test_decode_truncated :
    isErr .truncatedInput (decodeBuf (hex [0x8F, 1, 0] ++ ftr) 1) = true
      ∧ isErr .truncatedInput (decodeBuf (hex [0x80, 1, 2, 3] ++ ftr) 1) = true
      ∧ isErr .truncatedInput
        (decodeBuf (hex [0x80, 4, 0, 0, 0, 0, 0, 0, 0, 1, 2] ++ ftr) 3) = true := by
  decide +kernel

/-- DV23, DV24, DV34: DELTA.E in mid-stream, DELTA.I inherits, a sum that wraps. -/
theorem test_decode_sums :
    isOk (ints [4, 100, 98])
        (decodeBuf (hex [0x80, 4, 0, 0, 0, 0, 0, 0, 0, 0x41, 0x64, 0, 0, 0, 0, 0, 0, 0, 3] ++ ftr) 3)
        = true
      ∧ isOk (ints [4, 4, 5])
        (decodeBuf (hex [0x80, 4, 0, 0, 0, 0, 0, 0, 0, 1, 0, 2] ++ ftr) 3) = true
      ∧ isOk (ints [5, -9223372036854775803])
        (decodeBuf (hex [0x80, 5, 0, 0, 0, 0, 0, 0, 0, 0x30, 255, 255, 255, 255, 255, 255, 255, 255]
          ++ ftr) 2) = true := by decide +kernel

/-- DV10, DV26, DV30, DV31: elements left, a trailing byte, the marker before truncation, padding. -/
theorem test_decode_ends :
    isErr .lengthMismatch
        (decodeBuf (hex [0x80, 255, 255, 255, 255, 255, 255, 255, 0x7F] ++ ftr) 0) = true
      ∧ isErr .lengthMismatch
        (decodeBuf (hex [0x80, 255, 255, 255, 255, 255, 255, 255, 0x7F, 0] ++ ftr) 1) = true
      ∧ isErr .unsupportedFormat (decodeBuf (hex [0x80, 1, 0x4E, 0, 0, 0, 0, 0, 0]) 1) = true
      ∧ isOk (ints [5]) (decodeBuf (hex [0x80, 5, 0, 0, 0, 0, 0, 0, 0, 0x4D, 255, 255, 255, 255, 255,
          255]) 1) = true := by decide +kernel

/-! ## Steps -/

/-- The sizing vectors: 18 gives 169; the limit; one more is BadCommand. -/
theorem test_maxsize :
    ([(18#64, 0xA9#64, ErrCode.none), (2049638230412172400#64, 0xFFFFFFFFFFFFFFF7#64, ErrCode.none),
      (2049638230412172401#64, 0#64, ErrCode.badCommand)].all fun r =>
        after (exec (.maxsize .scalar .i64)
          (running ⟨0x1#64, 0#64, 0#64, 0#64, 0#64, r.1⟩ .check []))
          fun t => decide (t.result = r.2.1) && decide (t.err = r.2.2) && t.done && !t.busy) = true := by
  decide +kernel

/-- R180 on E13, both engines: the bytes, RESULT, and the byte after them. -/
theorem test_compress :
    ([(Instr.compressS .i64, 0x2), (Instr.compressV .f64, 0x32)].all fun r =>
      after (exec r.1 (squeeze r.2 .check)) fun t =>
        decide (readBytes t.mem 0x2000 18 = e13) && decide (t.result = 18#64)
          && decide (readByte t.mem 0x2012 = 0#8) && decide (statusWord t = 0x02#64)) = true := by
  decide +kernel

/-- H8, H9, H11: overlap, past 2^64, a short capacity. -/
theorem test_compress_checks :
    ([(⟨0x2#64, 0x1000#64, 0#64, 0x1008#64, 25#64, 2#64⟩, 0x52#64),
      (⟨0x2#64, 0xFFFFFFFFFFFFFFF8#64, 0#64, 0x2000#64, 25#64, 2#64⟩, 0x52#64),
      (⟨0x2#64, 0x1000#64, 0#64, 0x2000#64, 24#64, 2#64⟩, 0x12#64)].all fun r =>
        after (exec (.compressS .i64) (running r.1 .check [])) fun t =>
          decide (statusWord t = r.2) && decide (t.result = 0#64) && decide (t.mem = [])) = true := by
  decide +kernel

/-- H10: an input that ends exactly at 2^64. -/
theorem test_compress_top_of_memory :
    after (exec (.compressS .i64)
        (running ⟨0x2#64, 0xFFFFFFFFFFFFFFF8#64, 0#64, 0x2000#64, 16#64, 1#64⟩ .check
          (at' 0xFFFFFFFFFFFFFFF8 (elemBytes [5#64]))))
      (fun t => decide (statusWord t = 0x02#64) && decide (t.result = 16#64)
        && decide (readBytes t.mem 0x2000 9 = hex [0x80, 5, 0, 0, 0, 0, 0, 0, 0])) = true := by
  decide +kernel

/-- R221 on E13, both engines. -/
theorem test_decompress :
    ([(Instr.decompressS .i64, 0x3), (Instr.decompressV .i64, 0x13)].all fun r =>
      after (exec r.1 (expand r.2 e13 3 .check)) fun t =>
        decide (readElems t.mem 0x2000 3 = ints [3, 3, 9]) && decide (t.result = 3#64)
          && decide (statusWord t = 0x02#64)) = true := by decide +kernel

/-- H12: no byte and no element. DV3: a buffer of three bytes. -/
theorem test_decompress_empty :
    after (exec (.decompressS .i64) (expand 0x3 [] 0 .check))
        (fun t => decide (statusWord t = 0x02#64) && decide (t.result = 0#64)) = true
      ∧ after (exec (.decompressS .i64) (expand 0x3 (hex [0x4D, 0, 0]) 0 .check))
        (fun t => decide (statusWord t = 0x32#64)) = true := by decide +kernel

/-- A table word placed by withFetchWord is what the next step runs: the commands. -/
theorem test_fetch_commands :
    after (step (State.reset.withFetchWord 64 0x1)) (fun t => decide (t.result = 7#64)) = true
      ∧ ([0x2, 0x12].all fun v =>
        after (step (State.reset.withFetchWord 64 v)) fun t => decide (statusWord t = 0x12#64)) = true
      ∧ ([0x3, 0x13].all fun v =>
        after (step (State.reset.withFetchWord 64 v)) fun t => decide (statusWord t = 0x02#64)) = true := by
  decide +kernel

/-- The same for the stream forms: one element out, or the block region open. -/
theorem test_fetch_stream :
    ([0x80, 0x40, 0x00].all fun v =>
      after (step (State.reset.withFetchWord 8 v)) fun t => decide (t.dec.k = 2) && t.busy) = true
      ∧ after (step (State.reset.withFetchWord 8 0x4D)) (fun t => decide (t.phase = .hdr)) = true := by
  decide +kernel

/-- H1, H2: ID, STATUS and CTRL after reset; CTRL keeps its low bit. -/
theorem test_registers :
    regRead State.reset 0x00 = 0x7084D#64 ∧ regRead State.reset 0x10 = 0#64
      ∧ after (regWrite 0x08 0xFFFF#64 State.reset) (fun t => decide (regRead t 0x08 = 1#64))
        = true := by decide +kernel

/-- H13, H14, H15, H16: the W1C bits, and the interrupt line. -/
theorem test_status_writes :
    after (regWrite 0x10 0x1#64 { State.reset with done := true, drop := true })
        (fun t => decide (statusWord t = 0x06#64)) = true
      ∧ after (regWrite 0x10 0x6#64 { State.reset with done := true, drop := true })
        (fun t => decide (statusWord t = 0#64)) = true
      ∧ after (regWrite 0x08 1#64 { State.reset with done := true, err := .lengthMismatch })
        (fun t => t.irq) = true
      ∧ after (regWrite 0x10 0x2#64 { State.reset with done := true, err := .lengthMismatch, ie := true })
        (fun t => decide (statusWord t = 0x40#64) && !t.irq) = true := by decide +kernel

/-- R60: a bus access past the top of the address space faults. -/
theorem test_bus_past_top :
    act (.load .host 0xFFFFFFFFFFFFFFFF#64 2) State.reset = .fault .pastTopOfMemory := by
  rfl

/-- R80: without coherence a host read of a region the engine wrote, and the host has not
invalidated, is the cache's answer; after the invalidation it is memory's. -/
theorem test_stale_reads :
    let s : State := { State.reset with
      platform := { Platform.reset with coherent := false }, stale := [⟨0x2000, 1⟩] }
    busByte s .host 0x2000 = Config.staleByte 0 0x2000
      ∧ after (act (.cacheInvalidate ⟨0x2000, 1⟩) s) (fun t => decide (busByte t .host 0x2000 = 0#8)) = true := by
  exact ⟨rfl, by decide +kernel⟩

/-! ## Witnesses: for every statement with hypotheses, states and operands that meet them -/

/-- EncodedInstructionsDecodeBack: a command, a block, the footer. -/
theorem test_witness_encode :
    ((Instr.compressV .f64).wf && (Instr.compressV .f64).isCommand
      && (Instr.deltaI ⟨1, true⟩ 0 [0xFF#64]).wf && (Instr.deltaI ⟨1, true⟩ 0 [0xFF#64]).isBlock
      && Instr.footer.wf) = true := by decide +kernel

/-- DecodedBlocksEncodeBack: the largest short count and the smallest long one. -/
theorem test_witness_decoded_block :
    decodeBlock (hex [0x8E, 1, 0, 0, 0, 0, 0, 0, 0, 7])
        = .ok (.repeatBlock ⟨15, false⟩ 1#64, hex [7])
      ∧ decodeBlock (hex [0x8F, 1, 0, 0, 0, 1, 0, 0, 0, 0, 0, 0, 0])
        = .ok (.repeatBlock ⟨1, true⟩ 1#64, []) := by decide

/-- SelectorMap: the selectors where its ranges meet. -/
theorem test_witness_selectors :
    decodeSelector 0x3F#8 = some (.deltaI, 3, 15) ∧ decodeSelector 0x40#8 = some (.deltaE, 0, 0)
      ∧ decodeSelector 0x7F#8 = some (.deltaE, 3, 15)
      ∧ decodeSelector 0x80#8 = some (.repeatRun, 0, 0)
      ∧ decodeSelector 0x8F#8 = some (.repeatRun, 0, 15) ∧ decodeSelector 0x90#8 = none := by decide

/-- ReservedCommandWordsAreBadCommand: a word with bit 6 set, and OP 4, latched in CHECK. -/
theorem test_witness_reserved_word :
    ([0x41, 0x04].all fun v =>
      decide ((squeeze v .check).latch.cmd = BitVec.ofNat 64 v)
        && decide ((squeeze v .check).phase = .check)
        && (decide (v / 64 ≠ 0) || !decide (v % 16 = 1 ∨ v % 16 = 2 ∨ v % 16 = 3))
        && after (engineStep (squeeze v .check)) fun t => decide (statusWord t = 0x52#64))
      = true := by decide +kernel

/-- ReconstructionIsExact: the first and a later field of a block. -/
theorem test_witness_reconstruct :
    reconstructAll 10#64 [2#64, 1#64] = [11#64, 10#64] ∧ 1 < [2#64, 1#64].length := by decide +kernel

/-- LengthAndMarkerAreCheckedFirst: lengths 0, 1, 6 and 7, and both counts. -/
theorem test_witness_lengths :
    isOk [] (decodeBuf [] 0) = true ∧ isErr .lengthMismatch (decodeBuf [] 1) = true
      ∧ isErr .truncatedInput (decodeBuf (hex [0x4D]) 0) = true
      ∧ isErr .truncatedInput (decodeBuf (hex [0x4D, 0, 0, 0, 0, 0]) 0) = true
      ∧ isErr .unsupportedFormat (decodeBuf (hex [0x4E, 0, 0, 0, 0, 0, 0]) 0) = true := by
  decide +kernel

/-- MaxsizeGivesTheBound: COUNT at the limit and one above it. -/
theorem test_witness_maxsize :
    ∃ s t : State, s.phase = .check ∧ s.latch.n.toNat ≤ 2049638230412172400
      ∧ t.phase = .check ∧ 2049638230412172400 < t.latch.n.toNat :=
  ⟨running ⟨0x1#64, 0#64, 0#64, 0#64, 0#64, 2049638230412172400#64⟩ .check [],
    running ⟨0x1#64, 0#64, 0#64, 0#64, 0#64, 2049638230412172401#64⟩ .check [], by decide +kernel⟩

/-- ChecksComeBeforeAnyAccess: a misaligned source, a capacity one short, a misaligned output. -/
theorem test_witness_checks :
    argsOk .compress ⟨0x2#64, 0x1004#64, 0#64, 0x2000#64, 16#64, 1#64⟩ = false
      ∧ argsOk .compress ⟨0x2#64, 0x1000#64, 0#64, 0x2000#64, 24#64, 2#64⟩ = true
      ∧ (24#64 : Word).toNat < 9 * (2#64 : Word).toNat + 7
      ∧ argsOk .decompress ⟨0x3#64, 0x1001#64, 7#64, 0x2004#64, 0#64, 1#64⟩ = false := by
  decide +kernel

/-- CompressScalarWritesEncodeSeq, CompressVectorWritesItsBytes, EnginesAgreeOnWholeCommands. -/
theorem test_witness_compress :
    ([0x2, 0x12].all fun v =>
      let s := squeeze v .check
      decide (s.phase = .check) && decide (s.grain = .command) && argsOk .compress s.latch
        && decide (9 * s.latch.n.toNat + 7 ≤ s.latch.cap.toNat) && s.mem.wf
        && accessesAdmitted s (readRegion s.latch) ⟨s.latch.dst.toNat, 18⟩) = true
      ∧ encodeSeq (readElems (squeeze 0x2 .check).mem 0x1000 3) = e13
      ∧ encodeSeqVec 8 4294967295 (readElems (squeeze 0x12 .check).mem 0x1000 3) = e13 := by
  decide +kernel

/-- The scalar encoder's first steps on E13. -/
def scanning (e : EncRegs) : State := { squeeze 0x2 .scan with grain := .element, enc := e }

/-- A COMPRESS.S of these elements in SCAN. -/
def scanningOn (xs : List Word) (e : EncRegs) : State :=
  { running ⟨0x2#64, 0x1000#64, 0#64, 0x2000#64, BitVec.ofNat 64 (9 * xs.length + 7),
      BitVec.ofNat 64 xs.length⟩ .scan (at' 0x1000 (elemBytes xs)) with
    grain := .element, enc := e }

/-- ScalarEncoderSteps: the end of the input; a REPEAT opened for its second element, and for the
only element; a DELTA.E (E14); a DELTA.I at the last element. -/
theorem test_witness_scalar_opens :
    after (exec (.compressS .i64) (scanning ⟨3, 2, .deltaI, 0, 1, 11, false⟩))
        (fun t => decide (t.phase = .encFooter)) = true
      ∧ ([ints [3, 3, 9], ints [big]].all fun xs =>
        after (exec (.compressS .i64) (scanningOn xs EncRegs.reset)) fun t =>
          decide (t.enc = ⟨0, 0, .repeatMode, 0, 1, 0, true⟩)) = true
      ∧ after (exec (.compressS .i64) (scanningOn (ints [-1, -2, -3]) EncRegs.reset))
        (fun t => decide (t.enc = ⟨0, 0, .deltaE, 0, 2, 0, true⟩)) = true
      ∧ after (exec (.compressS .i64) (scanning ⟨2, 0, .repeatMode, 0, 2, 9, false⟩))
        (fun t => decide (t.enc = ⟨2, 2, .deltaI, 0, 1, 9, true⟩)) = true := by decide +kernel

/-- ScalarEncoderSteps: an open block that grows; one that closes at another element, at the end of
the input, and at MAX_BLOCK; the footer. -/
theorem test_witness_scalar_steps :
    after (exec (.compressS .i64) (scanning ⟨0, 0, .repeatMode, 0, 1, 0, true⟩))
        (fun t => decide (t.enc.nb = 2)) = true
      ∧ after (exec (.compressS .i64) (scanning ⟨0, 0, .repeatMode, 0, 2, 0, true⟩))
        (fun t => decide (readBytes t.mem 0x2000 9 = e13.take 9) && decide (t.enc.o = 9)) = true
      ∧ after (exec (.compressS .i64) (scanning ⟨2, 2, .deltaI, 0, 1, 9, true⟩))
        (fun t => decide (readBytes t.mem 0x2009 2 = (e13.drop 9).take 2)
          && decide (t.enc.i = 3)) = true
      ∧ after (exec (.compressS .i64)
          { running ⟨0x2#64, 0x1000#64, 0#64, 0#64, 0#64, 0x200000000#64⟩ .scan [] with
            enc := ⟨0, 0, .repeatMode, 0, 2 ^ 32 - 1, 0, true⟩ })
        (fun t => !t.enc.isOpen && decide (t.enc.i = 2 ^ 32 - 1)) = true
      ∧ after (exec (.compressS .i64)
          { scanning ⟨3, 2, .deltaI, 0, 1, 11, false⟩ with phase := .encFooter })
        (fun t => decide (t.result = 18#64) && !t.busy) = true := by decide +kernel

/-- The vector encoder on twenty fives: REPEAT open with one element (V3 of 95_test_vectors.md). -/
def lanesOfFives (nb : Nat) (ph : Phase) : State :=
  { running ⟨0x12#64, 0x1000#64, 0#64, 0x2000#64, 187#64, 20#64⟩ ph
      (at' 0x1000 (elemBytes (List.replicate 20 5#64))) with
    grain := .element, enc := ⟨0, 0, .repeatMode, 0, nb, 0, true⟩ }

/-- EncoderLaneStepCommitsThePrefix: all eight lanes commit, and the block goes on by lanes, as a
tail, or (nine elements) closes; element 5 set to 6 stops the prefix at four. -/
theorem test_witness_lane_step :
    after (exec (.compressV .i64) (lanesOfFives 1 .vLane))
        (fun t => decide (t.lanes.m = 8) && decide (t.enc.nb = 9) && decide (t.phase = .vLane)) = true
      ∧ after (exec (.compressV .i64) (lanesOfFives 9 .vLane))
        (fun t => decide (t.enc.nb = 17) && decide (t.phase = .vTail)) = true
      ∧ after (exec (.compressV .i64)
          (let s := lanesOfFives 1 .vLane; { s with latch := { s.latch with n := 9#64 } }))
        (fun t => decide (t.enc.nb = 9) && decide (t.phase = .vEmit)) = true
      ∧ after (exec (.compressV .i64)
          (let s := lanesOfFives 1 .vLane; { s with mem := writeByte s.mem 0x1028 6#8 }))
        (fun t => decide (t.lanes.m = 4) && decide (t.enc.nb = 5) && decide (t.phase = .vEmit)) = true
      ∧ after (exec (.compressV .i64) (lanesOfFives 19 .vTail))
        (fun t => decide (t.enc.nb = 20) && decide (t.phase = .vEmit)) = true := by decide +kernel

/-- DecompressScalarWritesDecodeBuf, DecompressVectorWritesItsElements,
DecompressReportsTheDecodersError: E13 with its count, and with one more. -/
theorem test_witness_decompress :
    ([0x3, 0x13].all fun v => [3, 4].all fun n =>
      let s := expand v e13 n .check
      decide (s.phase = .check) && decide (s.grain = .command) && argsOk .decompress s.latch
        && s.mem.wf && accessesAdmitted s (readRegion s.latch) (errorRegion s.latch)) = true
      ∧ isOk (ints [3, 3, 9]) (decodeBuf (readBytes (expand 0x3 e13 3 .check).mem 0x1000 18) 3) = true
      ∧ isOk (ints [3, 3, 9])
        (decodeBufVec 8 (readBytes (expand 0x13 e13 3 .check).mem 0x1000 18) 3) = true
      ∧ isErr .lengthMismatch
        (decodeBuf (readBytes (expand 0x3 e13 4 .check).mem 0x1000 18) 4) = true
      ∧ decodeCommand 0x3#64 = .ok (.decompressS .i64)
      ∧ decodeCommand 0x13#64 = .ok (.decompressV .i64) := by decide +kernel

/-- A platform that refuses writes at one byte of the output. -/
def refusing (s : State) : State :=
  { s with platform := { s.platform with holes := [⟨.write, ⟨0x2001, 1⟩⟩] } }

/-- CommandsOnRefusedBytes: both commands with one output byte refused, and a buffer that does not
decode. -/
theorem test_witness_refused_bytes :
    accessesAdmitted (refusing (squeeze 0x2 .check)) (readRegion (squeeze 0x2 .check).latch)
        ⟨0x2000, 18⟩ = false
      ∧ ([(e13, 3), (hex [0xC0] ++ ftr, 1)].all fun r =>
        let s := refusing (expand 0x3 r.1 r.2 .check);
        s.mem.wf && argsOk .decompress s.latch
          && !accessesAdmitted s (readRegion s.latch) (errorRegion s.latch)) = true
      ∧ isErr .unsupportedFormat (decodeBuf (hex [0xC0] ++ ftr) 1) = true
      ∧ memAdmits (refusing (squeeze 0x2 .check)).platform .write 0x2001 = false
      ∧ memAdmits (refusing (squeeze 0x2 .check)).platform .write 0x2002 = true := by decide +kernel

/-- R67: the memory port leaves a refused byte alone and writes the bytes beside it. R326: a command
with a refused byte is one step, whatever its grain. -/
theorem test_refused_byte :
    (let s := refusing (squeeze 0x2 .check);
      readBytes (portWrite s.platform (at' 0x2001 (hex [7])) 0x2000 (hex [1, 2, 3])) 0x2000 3
        = hex [1, 7, 3])
      ∧ runsAtOnce { refusing (squeeze 0x2 .check) with grain := .element }
        (readRegion (squeeze 0x2 .check).latch) ⟨0x2000, 18⟩ = true
      ∧ runsAtOnce { squeeze 0x2 .check with grain := .element }
        (readRegion (squeeze 0x2 .check).latch) ⟨0x2000, 18⟩ = false := by decide +kernel

/-- RepeatWritesItsCopies, DeltaExplicitWritesItsSums, DeltaInheritedWritesItsSums: the output of
inBlocks is admitted, and with one byte refused it is not. -/
theorem test_witness_admitted_output :
    admitsRegion (inBlocks 0x3 e13 3 0 0 .block).platform .write ⟨0x2000, 24⟩ = true
      ∧ 0x2000 + 24 ≤ 2 ^ 64
      ∧ admitsRegion (refusing (inBlocks 0x3 e13 3 0 0 .block)).platform .write ⟨0x2000, 24⟩
        = false := by decide +kernel

/-- RepeatWritesItsCopies: a block that ends exactly at the end of the region, both engines. -/
theorem test_witness_repeat :
    ([0x3, 0x13].all fun v =>
      after (exec (.repeatBlock ⟨2, false⟩ 3#64) (inBlocks v (e13.take 9 ++ ftr) 2 0 0 .block)) fun t =>
        decide (readElems t.mem 0x2000 2 = ints [3, 3]) && decide (t.dec.p = 9)
          && decide (t.dec.prev = 3#64) && t.dec.hasPrev) = true := by decide +kernel

/-- DeltaExplicitWritesItsSums: E14, and a block of one element with no field (DV28). -/
theorem test_witness_deltaE :
    after (exec (.deltaE ⟨3, false⟩ 0 (BitVec.ofInt 64 (-1)) [1#64, 1#64])
        (inBlocks 0x3 (hex [0x42, 255, 255, 255, 255, 255, 255, 255, 255, 1, 1] ++ ftr) 3 0 0 .block))
        (fun t => decide (readElems t.mem 0x2000 3 = ints [-1, -2, -3]) && decide (t.dec.p = 11)) = true
      ∧ after (exec (.deltaE ⟨1, false⟩ 3 10#64 [])
        (inBlocks 0x13 (hex [0x70, 10, 0, 0, 0, 0, 0, 0, 0] ++ ftr) 1 0 0 .block))
        (fun t => decide (readElem t.mem 0x2000 = 10#64) && decide (t.dec.k = 1)) = true := by
  decide +kernel

/-- DeltaInheritedWritesItsSums: the last block of E13. -/
theorem test_witness_deltaI :
    ([0x3, 0x13].all fun v =>
      after (exec (.deltaI ⟨1, false⟩ 0 [12#64]) (inBlocks v e13 3 9 2 .block)) fun t =>
        decide (readElem t.mem 0x2010 = 9#64) && decide (t.dec.p = 11) && decide (t.dec.k = 3))
      = true := by decide +kernel

/-- BlocksFailInTheOrderOfTheChecks: no reference; one byte short; one element too many. -/
theorem test_witness_block_errors :
    ([(Instr.deltaI ⟨1, false⟩ 0 [12#64], 0, 0, ErrCode.unsupportedFormat),
      (Instr.deltaI ⟨3, false⟩ 0 [12#64, 0#64, 0#64], 9, 2, ErrCode.truncatedInput),
      (Instr.deltaI ⟨2, false⟩ 0 [12#64, 0#64], 8, 2, ErrCode.lengthMismatch)].all fun r =>
        r.1.isBlock && after (exec r.1 (inBlocks 0x3 e13 3 r.2.1 r.2.2.1 .block)) fun t =>
          decide (t.err = r.2.2.2) && !t.busy) = true := by decide +kernel

/-- FooterOpensTheBlockRegion: a good marker, a bad one, 6 bytes, no byte with and without a count. -/
theorem test_witness_footer :
    after (exec .footer (expand 0x3 ftr 0 .mark)) (fun t => decide (t.phase = .hdr)) = true
      ∧ ([(hex [0x4E, 0, 0, 0, 0, 0, 0], 0, ErrCode.unsupportedFormat),
        (hex [0x4D, 0, 0, 0, 0, 0], 0, ErrCode.truncatedInput), ([], 1, ErrCode.lengthMismatch),
        ([], 0, ErrCode.none)].all fun r =>
          after (exec .footer (expand 0x3 r.1 r.2.1 .mark)) fun t =>
            decide (t.err = r.2.2) && t.done) = true := by decide +kernel

/-- HeaderChecksAgreeWithDecoding: a block that passes, one that is refused, one cut short. -/
theorem test_witness_headers :
    ([(e13, 3), (hex [0xC0] ++ ftr, 1), (hex [0x80, 1] ++ ftr, 1)].all fun r =>
      let s := inBlocks 0x3 r.1 r.2 0 0 .element
      decide (s.dec.p < s.dec.endOff)) = true
      ∧ headerAt (inBlocks 0x3 e13 3 0 0 .element) = .ok ⟨.repeatRun, 0, 2, 1⟩
      ∧ headerAt (inBlocks 0x3 (hex [0xC0] ++ ftr) 1 0 0 .element) = .error .unsupportedFormat
      ∧ headerAt (inBlocks 0x3 (hex [0x80, 1] ++ ftr) 1 0 0 .element) = .error .truncatedInput := by
  decide +kernel

/-- DecoderHeaderAndEndSteps: all elements out; the stream used up; a block to open; a header that
is refused; both ends. -/
theorem test_witness_decoder_steps :
    after (exec (.decompressS .i64) (inBlocks 0x3 e13 3 11 3 .element))
        (fun t => decide (t.phase = .fin)) = true
      ∧ after (exec (.decompressS .i64) (inBlocks 0x3 e13 4 11 3 .element))
        (fun t => decide (t.err = .lengthMismatch)) = true
      ∧ after (exec (.decompressS .i64) (inBlocks 0x3 e13 3 9 2 .element))
        (fun t => decide (t.phase = .elem) && decide (t.dec.q = 10)
          && decide (runningEngine t = .scalar)) = true
      ∧ after (exec (.decompressS .i64) (inBlocks 0x3 (hex [0xC0] ++ ftr) 1 0 0 .element))
        (fun t => decide (t.err = .unsupportedFormat) && !t.busy) = true
      ∧ after (exec (.decompressS .i64) { inBlocks 0x3 e13 3 11 3 .element with phase := .fin })
        (fun t => decide (t.result = 3#64) && decide (t.err = .none)) = true
      ∧ after (exec (.decompressS .i64) { inBlocks 0x3 e13 3 9 3 .element with phase := .fin })
        (fun t => decide (t.err = .lengthMismatch)) = true := by decide +kernel

/-- The vector decoder on E1 after the explicit reference (V6 of 95_test_vectors.md). -/
def laneOfE1 : State :=
  { expand 0x13 e1 18 .dLane with
    grain := .element
    dec := ⟨0, 1, 1#64, true, 30, .deltaE, 0, 18, 5, 1, 13⟩ }

/-- DecoderLaneStepIsLanesScalarSteps: the state is sound, and the lane step writes elements 1 to 8. -/
theorem test_witness_decoder_lane :
    laneOfE1.sound = true ∧ laneOfE1.phase = .dLane ∧ laneOfE1.dec.kind ≠ .repeatRun
      ∧ runningEngine laneOfE1 = .vector
      ∧ readElems (deltaLaneStep laneOfE1).mem 0x2008 8 = (x1.drop 1).take 8 := by decide +kernel

/-- StepRunsTheDecodedInstruction: the footer in MARK, a block in HDR, the command elsewhere. -/
theorem test_witness_step :
    (let s := expand 0x3 e13 3 .mark;
      mover s = .engine ∧ 7 ≤ s.latch.srcLen.toNat ∧ decodeFooter (footerBytesAt s) = .ok .footer)
      ∧ (let s := inBlocks 0x3 e13 3 9 2 .block;
        mover s = .engine ∧ s.dec.k ≠ s.latch.n.toNat ∧ s.dec.p ≠ s.dec.endOff
          ∧ decodeBlock (blockBytesAt s) = .ok (.deltaI ⟨1, false⟩ 0 [12#64], []))
      ∧ (let s := inBlocks 0x3 e13 3 9 2 .element;
        mover s = .engine ∧ s.phase = .hdr ∧ s.grain = .element)
      ∧ (let s := squeeze 0x2 .check;
        mover s = .engine ∧ s.phase ≠ .mark ∧ s.phase ≠ .hdr
          ∧ decodeCommand s.latch.cmd = .ok (.compressS .i64)) := by decide +kernel

/-- ResetEventRestoresTheRegisters: a running COMPRESS; bytes before and after its error region. -/
theorem test_witness_reset_event :
    (squeeze 0x2 .scan).mem.wf = true ∧ (squeeze 0x2 .scan).busy = true
      ∧ (errorRegion (squeeze 0x2 .scan).latch).contains 0x1FFF = false
      ∧ (errorRegion (squeeze 0x2 .scan).latch).contains 0x2000 = true
      ∧ (errorRegion (squeeze 0x2 .scan).latch).contains 0x2021 = true
      ∧ (errorRegion (squeeze 0x2 .scan).latch).contains 0x2022 = false := by decide +kernel

/-- An encoder and a decoder in the middle of a command. -/
def midEncode : State := scanning ⟨0, 0, .repeatMode, 0, 2, 0, true⟩
def midDecode : State := inBlocks 0x3 e13 3 9 2 .element

/-- MemoryStaysCanonical, StepKeepsSoundness, EngineNeverStops, EngineWritesOnlyItsRegion,
EngineWritesOnlyTheCompletionRecord, RunningShowsOnlyBusy, EveryCommandCompletes: sound states, one
that writes memory, and one whose step completes. -/
theorem test_witness_sound :
    ([squeeze 0x2 .check, midEncode, midDecode, lanesOfFives 1 .vLane, laneOfE1,
      { scanning ⟨3, 2, .deltaI, 0, 1, 11, false⟩ with phase := .encFooter }].all fun s =>
        s.sound && s.mem.wf && s.busy && !s.done && decide (s.err = .none)
          && decide (s.result = 0#64) && isNext (step s) && isNext (engineStep s)) = true
      ∧ (errorRegion midEncode.latch).contains 0x1000 = false
      ∧ after (engineStep { scanning ⟨3, 2, .deltaI, 0, 1, 11, false⟩ with phase := .encFooter })
        (fun t => t.done && !t.busy) = true := by decide +kernel

/-- EngineWritesOnlyItsRegion: a block written over a refused byte, which keeps its value. -/
theorem test_witness_refused_step :
    let s := refusing { midEncode with mem := writeByte midEncode.mem 0x2001 7#8 }
    s.sound = true ∧ s.phase ≠ .check
      ∧ after (engineStep s) (fun t => t.busy
        && decide (readBytes t.mem 0x2000 3 = hex [0x81, 7, 0])) = true := by decide +kernel

/-- OnlyResetAbandonsACommand: the reset event on a running MAXSIZE. -/
theorem test_witness_reset_abandons :
    let s : State := { running ⟨0x1#64, 0#64, 0#64, 0#64, 0#64, 5#64⟩ .check [] with inbox := [.reset] }
    s.busy = true ∧ after (hostStep s) (fun t => !t.busy) = true := by decide +kernel

/-- InterruptLineFollowsItsEvents: it rises at a completion with IE = 1 and by CTRL. -/
theorem test_witness_irq_rises :
    (let s : State := { running ⟨0x1#64, 0#64, 0#64, 0#64, 0#64, 5#64⟩ .check [] with ie := true };
      s.irq = false ∧ mover s = .engine ∧ after (step s) (fun t => t.irq && !t.busy) = true)
      ∧ (let s : State := { State.reset with done := true, inbox := [wr Platform.reset 0x08 1#64] };
        s.irq = false ∧ mover s = .outside
          ∧ registerWritten s (wr Platform.reset 0x08 1#64) = some (0x08, 1#64)
          ∧ after (step s) (·.irq) = true) := by decide +kernel

/-- InterruptLineFollowsItsEvents: it falls by STATUS, by CTRL, at a command start and at reset, and
stays at a read. -/
theorem test_witness_irq_falls :
    ([ack Platform.reset, wr Platform.reset 0x08 0#64, wr Platform.reset 0x18 0x1#64, .reset,
      rd Platform.reset 0x10].map fun a =>
        let s : State := { State.reset with done := true, ie := true, inbox := [a] };
        s.irq && decide (mover s = .outside) && after (step s) (·.irq))
      = [false, false, false, false, true]
      ∧ ([0x10, 0x08, 0x18].all fun off =>
        decide (registerWritten State.reset (wr Platform.reset off 2#64) = some (off, 2#64)))
        = true := by decide +kernel

/-- StepwiseCompressEqualsWhole, StepwiseDecompressEqualsWhole: commands about to run on each engine
and in each grain, and their whole run. -/
theorem test_witness_refinement :
    ([Grain.block, .element].all fun g =>
      ([(Instr.compressS .i64, squeeze 0x2 .check), (Instr.compressV .i64, squeeze 0x12 .check),
        (Instr.decompressS .i64, expand 0x3 e13 3 .check),
        (Instr.decompressV .i64, expand 0x13 e13 3 .check)].all fun r =>
          let s : State := { r.2 with grain := g };
          s.sound && decide (s.phase = .check) && decide (s.grain ≠ .command)
            && decide (decodeCommand s.latch.cmd = .ok r.1)
            && isNext (exec r.1 { s with grain := .command }))) = true := by decide +kernel

/-- ResultDependsOnTheReadRegionAlone: another memory that differs outside the read region. -/
theorem test_witness_noninterference :
    let s := squeeze 0x2 .check
    let m := writeByte s.mem 0x3000 7#8
    readRegion s.latch = ⟨0x1000, 24⟩ ∧ readBytes m 0x1000 24 = readBytes s.mem 0x1000 24
      ∧ m ≠ s.mem ∧ isNext (exec (.compressS .i64) s) = true
      ∧ isNext (exec (.compressS .i64) { s with mem := m }) = true := by decide +kernel

/-- ArgumentWritesMissTheRunningCommand: COUNT written while COMPRESS runs. -/
theorem test_witness_argument_write :
    isNext (engineStep midEncode) = true
      ∧ after (regWrite 0x40 99#64 midEncode) (fun t => decide (t.count = 99#64)
        && decide (t.latch.n = 3#64)) = true := by decide +kernel

/-- CommandWhileBusyIsDropped: the second write of P4. -/
theorem test_witness_drop :
    (squeeze 0x2 .scan).busy = true
      ∧ after (regWrite 0x18 0x1#64 (squeeze 0x2 .scan)) (fun t => t.drop && t.busy) = true := by
  decide +kernel

/-- CommandStartLatchesTheArguments: with coherence, and without it and a dirty range elsewhere. -/
theorem test_witness_start :
    (let s : State := { State.reset with src := 0x1000#64, count := 2#64 };
      s.phase = .idle ∧ s.others.any (conflicts (regionsOf (latchesFor 0x2#64 s))) = false
        ∧ s.platform.coherent = true)
      ∧ (let s : State := { State.reset with
          src := 0x1000#64, count := 2#64
          platform := { Platform.reset with coherent := false }, dirty := [⟨0x1010, 8⟩] };
        s.dirty.any (readRegion (latchesFor 0x2#64 s)).overlaps = false) := by decide +kernel

/-- BusAccessesReachTheirTarget: the last register offset; a memory range just above the block, while
a command runs. -/
theorem test_witness_bus :
    0xF8 % 8 = 0 ∧ 0xF8 < 0x100
      ∧ (registerBlock (squeeze 0x2 .scan).platform).overlaps ⟨0x100, 8⟩ = false
      ∧ (errorRegion (squeeze 0x2 .scan).latch).overlaps ⟨0x100, 8⟩ = false
      ∧ (readRegion (squeeze 0x2 .scan).latch).overlaps ⟨0x100, 8⟩ = false
      ∧ (squeeze 0x2 .scan).mem.wf = true ∧ (squeeze 0x2 .scan).platform.coherent = true
      ∧ isNext (act (.store .host 0x100#64 (hex [1, 2, 3, 4, 5, 6, 7, 8])) (squeeze 0x2 .scan)) = true := by
  decide +kernel

/-- BusAccessesReachTheirTarget: once the command has completed the host reads its output (R76), with
COHERENT = false after an invalidation of it, and refills its input. -/
theorem test_witness_bus_after_done :
    let s : State := { squeeze 0x2 .idle with
      done := true, mem := at' 0x2000 e13, stale := [⟨0x2000, 18⟩]
      platform := { Platform.reset with coherent := false } }
    s.busy = false ∧ (errorRegion s.latch).overlaps ⟨0x2000, 18⟩ = true
      ∧ after (act (.cacheInvalidate ⟨0x2000, 18⟩) s) (fun t =>
        !t.stale.any (·.overlaps ⟨0x2000, 18⟩)
          && after (act (.load .host 0x2000#64 18) t) fun u => decide (u.reply = .bytes e13)) = true
      ∧ (readRegion s.latch).overlaps ⟨0x1000, 2⟩ = true
      ∧ after (act (.store .host 0x1000#64 (hex [1, 2])) s)
        (fun t => decide (t.dirty = [⟨0x1000, 2⟩])) = true := by decide +kernel

/-- R80: a clean reaches its range alone; a host store is the host's to read at once. -/
theorem test_cache_ranges :
    let s : State := { State.reset with
      platform := { Platform.reset with coherent := false }
      dirty := [⟨0x1000, 8⟩, ⟨0x3000, 8⟩], stale := [⟨0x2000, 16⟩] }
    after (act (.cacheClean ⟨0x1000, 8⟩) s) (fun t => decide (t.dirty = [⟨0x3000, 8⟩])) = true
      ∧ after (act (.store .host 0x2004#64 (hex [1, 2])) s)
        (fun t => decide (t.stale = [⟨0x2000, 4⟩, ⟨0x2006, 10⟩])) = true := by decide +kernel

/-- R300: a host that takes the interrupt waits while its input is low and goes on once it is high. -/
theorem test_interrupt_wait :
    ([(true, true), (true, false), (false, true)].map fun r =>
      let s : State := { State.reset with ie := r.1, done := r.2, inbox := [.waitIrq] };
      after (step s) fun t => t.inbox.isEmpty) = [true, false, false] := by decide +kernel

/-- R215: DST_CAP takes the size the host has read from RESULT. -/
theorem test_compress_simple :
    (compressSimple Platform.reset .vector .f64 0x1000#64 2#64 0x2000#64)[7]? = some (.storeReply 0x38#64)
      ∧ ([0x19#64, 0#64].all fun v =>
        after (step { State.reset with reply := .reg v, inbox := [.storeReply 0x38#64] }) fun t =>
          decide (t.dstCap = v)) = true := by decide +kernel

/-- RefusedActionsStopByName: one action for each of R370 (a) to (e), and another master's access to
STATUS and to CMD. -/
theorem test_witness_refusals :
    isRefused .registerAccess (act (.load .host 0x4#64 8) State.reset) = true
      ∧ isRefused .registerAccess (act (.store .host 0x0#64 (hex [1, 2, 3, 4])) State.reset) = true
      ∧ isRefused .masterTouchesRegister (act (.load .other 0x10#64 8) State.reset) = true
      ∧ isRefused .masterTouchesRegister
        (act (.store .other 0x18#64 (hex [1, 0, 0, 0, 0, 0, 0, 0])) State.reset) = true
      ∧ isRefused .hostTouchesRegion (act (.load .host 0x2021#64 1) (squeeze 0x2 .scan)) = true
      ∧ isRefused .masterTouchesRegion (act (.store .other 0x1017#64 (hex [0])) (squeeze 0x2 .scan)) = true
      ∧ isRefused .instancesOverlap
        (act (.otherStarts ⟨⟨0x2000, 1⟩, ⟨0x9000, 1⟩⟩) (squeeze 0x2 .scan)) = true
      ∧ isRefused .instancesOverlap (regWrite 0x18 0x2#64
        { State.reset with count := 1#64, others := [⟨⟨0, 0⟩, ⟨0, 8⟩⟩] }) = true
      ∧ isRefused .cacheMaintenance (regWrite 0x18 0x2#64
        { State.reset with
          src := 0x1000#64, count := 1#64, dirty := [⟨0x1007, 1⟩]
          platform := { Platform.reset with coherent := false } }) = true := by decide +kernel

/-- MeaningsStopOutsideTheirPhases: a phase of another instruction for each meaning, and IDLE. -/
theorem test_witness_other_phases :
    Phase.scan ≠ .check ∧ Phase.vLane ∉ [Phase.check, .scan, .encFooter]
      ∧ Phase.scan ∉ [Phase.check, .vOpen, .vLane, .vTail, .vEmit, .vFoot]
      ∧ Phase.dLane ∉ [Phase.check, .hdr, .elem, .fin]
      ∧ Phase.elem ∉ [Phase.check, .hdr, .dLane, .dTail, .fin]
      ∧ Phase.mark ≠ .hdr ∧ Phase.hdr ≠ .mark ∧ State.reset.phase = .idle
      ∧ (Instr.repeatBlock ⟨1, false⟩ 0#64).isBlock = true := by decide

/-- VectorEncoderWritesTheSameBytes, VectorDecoderGivesTheSameResult: the smallest LANES. -/
theorem test_witness_one_lane :
    encodeSeqVec 1 Config.maxBlock x10 = e10 ∧ isOk x10 (decodeBufVec 1 e10 11) = true := by
  decide +kernel

end Sys2Proof.Tests
end

namespace Sys2Proof.Proofs

open Sys2Proof.Machine Sys2Proof.Laws

/-! The register map (R23, R25, R31, R290): what a write of an offset leaves, and what each offset
then reads. -/

/-! ## Where a write goes -/

@[simp] theorem regWrite_ctrl (v : Word) (s : State) :
    regWrite 0x08 v s = .next (writeCtrl v s) := rfl
@[simp] theorem regWrite_src (v : Word) (s : State) :
    regWrite 0x20 v s = .next { s with src := v } := rfl
@[simp] theorem regWrite_srcLen (v : Word) (s : State) :
    regWrite 0x28 v s = .next { s with srcLen := v } := rfl
@[simp] theorem regWrite_dst (v : Word) (s : State) :
    regWrite 0x30 v s = .next { s with dst := v } := rfl
@[simp] theorem regWrite_dstCap (v : Word) (s : State) :
    regWrite 0x38 v s = .next { s with dstCap := v } := rfl
@[simp] theorem regWrite_count (v : Word) (s : State) :
    regWrite 0x40 v s = .next { s with count := v } := rfl

/-- The write map names only offsets from 0x08 to 0x40: ID, RESULT and the reserved offsets lie
outside it (R23, R30, R31). -/
theorem regWrite_ignored {off : Nat} (h : off = 0x00 ∨ off = 0x48 ∨ 0x50 ≤ off) (v : Word)
    (s : State) : regWrite off v s = .next s := by
  have named : ∀ n, 0x08 ≤ n → n ≤ 0x40 → off ≠ n := by omega
  simp [regWrite, named]

/-! ## What an offset reads -/

/-- Past RESULT, the last register of the map, an offset reads 0 (R31). -/
theorem regRead_reserved {off : Nat} (h : 0x50 ≤ off) (s : State) : regRead s off = 0#64 := by
  have named : ∀ n, n ≤ 0x48 → off ≠ n := by omega
  simp [regRead, named]

/-- CTRL reads bit 0 of what was written (R26). -/
@[simp] theorem ctrlWord_writeCtrl (v : Word) (s : State) :
    ctrlWord (writeCtrl v s) = v &&& 1#64 := by
  have bit : (v.getLsbD 0).toNat = v.toNat % 2 := by
    rw [BitVec.getLsbD, Nat.toNat_testBit, pow_zero, Nat.div_one]
  apply BitVec.eq_of_toNat_eq
  rw [ctrlWord, writeCtrl_ie, bit, BitVec.toNat_ofNat, BitVec.toNat_and, BitVec.toNat_ofNat,
    Nat.one_mod, Nat.and_one_is_mod]
  omega

/-- A register write other than a command changes only what its own offset reads (R290). -/
theorem regRead_regWrite_ne {off off' : Nat} {v : Word} {s t : State}
    (h : regWrite off v s = .next t) (hcmd : off ≠ 0x18) (hne : off' ≠ off) :
    regRead t off' = regRead s off' := by
  rcases regWrite_cases h with ⟨rfl, rfl⟩ | ⟨rfl, rfl⟩ | ⟨rfl, -⟩ | ⟨rfl, rfl⟩ | ⟨rfl, rfl⟩
    | ⟨rfl, rfl⟩ | ⟨rfl, rfl⟩ | ⟨rfl, rfl⟩ | rfl
  on_goal 9 => rfl
  on_goal 3 => exact absurd rfl hcmd
  -- the other writes change one field, which only the branch of their own offset reads
  all_goals
    unfold regRead
    simp only [if_neg hne]
    rfl

/-! ## The clauses of the register map -/

/-- An argument register reads back what was written, and the write reaches nothing else (R29). -/
theorem regWrite_argument {off : Nat}
    (h : off = 0x20 ∨ off = 0x28 ∨ off = 0x30 ∨ off = 0x38 ∨ off = 0x40) (v : Word) (s : State) :
    ∃ t, regWrite off v s = .next t ∧ regRead t off = v
      ∧ (∀ off', off' ≠ off → regRead t off' = regRead s off')
      ∧ t.latch = s.latch ∧ t.phase = s.phase ∧ t.mem = s.mem := by
  have frame {t : State} (ht : regWrite off v s = .next t) :
      ∀ off', off' ≠ off → regRead t off' = regRead s off' :=
    fun _ => regRead_regWrite_ne ht (by omega)
  rcases h with rfl | rfl | rfl | rfl | rfl
  · exact ⟨_, regWrite_src v s, rfl, frame (regWrite_src v s), rfl, rfl, rfl⟩
  · exact ⟨_, regWrite_srcLen v s, rfl, frame (regWrite_srcLen v s), rfl, rfl, rfl⟩
  · exact ⟨_, regWrite_dst v s, rfl, frame (regWrite_dst v s), rfl, rfl, rfl⟩
  · exact ⟨_, regWrite_dstCap v s, rfl, frame (regWrite_dstCap v s), rfl, rfl, rfl⟩
  · exact ⟨_, regWrite_count v s, rfl, frame (regWrite_count v s), rfl, rfl, rfl⟩

/-- Settles O54: the clauses above, with the offsets that read one fixed thing by definition. -/
theorem registersReadAndWriteAsMapped : Obligations.RegistersReadAndWriteAsMapped := by
  intro s v
  refine ⟨fun off h => regWrite_argument h v s, ?ctrl, fun off h => regWrite_ignored h v s,
    ?zero, rfl, rfl⟩
  case ctrl =>
    exact ⟨writeCtrl v s, regWrite_ctrl v s, rfl, ctrlWord_writeCtrl v s,
      fun _ => regRead_regWrite_ne (regWrite_ctrl v s) (by decide)⟩
  case zero =>
    rintro off (rfl | h)
    · rfl
    · exact regRead_reserved h s

end Sys2Proof.Proofs

namespace Sys2Proof.Proofs

open Sys2Proof.Machine Sys2Proof.Laws

/-! Command words (R111, R114, R296): which words the decoder refuses, and what CHECK does with a
refused one. -/

/-- OP, the low four bits of a command word, names a command (R111). -/
def NamesCommand (v : Word) : Prop :=
  v.toNat % 16 = 1 ∨ v.toNat % 16 = 2 ∨ v.toNat % 16 = 3

/-- With bits 63:6 clear and a named OP, KIND and ENG are free: every such word decodes (R111). -/
theorem decodeCommand_ok {v : Word} (hhigh : v.toNat / 64 = 0) (hop : NamesCommand v) :
    ∃ i, decodeCommand v = .ok i := by
  rw [decodeCommand, if_neg (not_not.mpr hhigh)]
  rcases hop with op | op | op <;> rw [op] <;> cases decodeEngine v <;> exact ⟨_, rfl⟩

/-- The reserved words of R114 are refused by name. -/
theorem decodeCommand_reserved {v : Word} (h : v.toNat / 64 ≠ 0 ∨ ¬ NamesCommand v) :
    decodeCommand v = .error .reservedCommand := by
  rw [decodeCommand]
  split
  case isTrue => rfl
  case isFalse hhigh =>
    have hop : ¬ NamesCommand v := h.resolve_left hhigh
    -- each arm that names a command contradicts `hop`
    split
    case h_6 => rfl
    all_goals exact absurd (by simp [NamesCommand, *]) hop

theorem decodeCommand_eq_reserved_iff (v : Word) :
    decodeCommand v = .error .reservedCommand ↔ v.toNat / 64 ≠ 0 ∨ ¬ NamesCommand v := by
  refine ⟨fun refused => ?_, decodeCommand_reserved⟩
  by_contra defined
  obtain ⟨hhigh, hop⟩ := not_or.mp defined
  obtain ⟨i, accepted⟩ := decodeCommand_ok (not_not.mp hhigh) (not_not.mp hop)
  rw [accepted] at refused
  cases refused

/-- In CHECK the engine runs the latched command word (R296). -/
theorem engineStep_check {s : State} (h : s.phase = .check) : engineStep s = stepCommand s := by
  simp [engineStep, atBlock, h]

/-- A latched word that the decoder refuses completes with BadCommand (R296). -/
theorem stepCommand_refused {s : State} {r : Reject} (h : decodeCommand s.latch.cmd = .error r) :
    stepCommand s = .next (s.raise .badCommand) := by
  rw [stepCommand, h]

/-- Settles O5: the decoder's refusals are the reserved words, and the step that runs one raises
BadCommand. -/
theorem reservedCommandWordsAreBadCommand : Obligations.ReservedCommandWordsAreBadCommand := by
  intro v
  refine ⟨decodeCommand_eq_reserved_iff v, ?_⟩
  rintro s rfl hcheck reserved
  rw [engineStep_check hcheck, stepCommand_refused (decodeCommand_reserved reserved), State.raise]

end Sys2Proof.Proofs

namespace Sys2Proof.Proofs

open Sys2Proof.Machine Sys2Proof.Laws

/-! The wire-format primitives (R131 to R137): the zig-zag fold and its inverse as arithmetic on
the sign and on the parity, the bound a width class stands for, and the running sum. -/

/-- A pattern without the sign bit folds to twice itself (R131). -/
theorem toNat_zz_of_nonneg {d : Word} (h : d.msb = false) : (zz d).toNat = 2 * d.toNat := by
  have hlt : 2 * d.toNat < 2 ^ 64 := BitVec.msb_eq_false_iff_two_mul_lt.mp h
  rw [BitVec.msb_eq_getLsbD_last] at h
  simp only [zz, h, Bool.false_eq_true, if_false, BitVec.xor_zero, BitVec.toNat_shiftLeft,
    Nat.shiftLeft_eq]
  omega

/-- A pattern with the sign bit folds to the complement of its double (R131). -/
theorem toNat_zz_of_neg {d : Word} (h : d.msb = true) :
    (zz d).toNat = 2 ^ 65 - 1 - 2 * d.toNat := by
  have hge : 2 ^ 64 ≤ 2 * d.toNat := BitVec.msb_eq_true_iff_two_mul_ge.mp h
  have hlt : d.toNat < 2 ^ 64 := d.isLt
  rw [BitVec.msb_eq_getLsbD_last] at h
  simp only [zz, h, if_true, BitVec.xor_allOnes, BitVec.toNat_not, BitVec.toNat_shiftLeft,
    Nat.shiftLeft_eq]
  omega

theorem and_one_eq_mod_two (z : Word) : z &&& 1#64 = BitVec.ofNat 64 (z.toNat % 2) := by
  apply BitVec.eq_of_toNat_eq
  rw [BitVec.toNat_and, BitVec.toNat_ofNat, BitVec.toNat_ofNat, Nat.and_one_is_mod]
  omega

/-- An even field unfolds to its half (R132). -/
theorem toNat_unzz_of_even {z : Word} (h : z.toNat % 2 = 0) : (unzz z).toNat = z.toNat / 2 := by
  simp [unzz, and_one_eq_mod_two, h, Nat.shiftRight_eq_div_pow]

/-- An odd field unfolds to the complement of its half (R132). -/
theorem toNat_unzz_of_odd {z : Word} (h : z.toNat % 2 = 1) :
    (unzz z).toNat = 2 ^ 64 - 1 - z.toNat / 2 := by
  have mask : 0#64 - 1#64 = BitVec.allOnes 64 := rfl
  simp only [unzz, and_one_eq_mod_two, h, mask, BitVec.xor_allOnes, BitVec.toNat_not,
    BitVec.toNat_ushiftRight, Nat.shiftRight_eq_div_pow, pow_one]

@[simp] theorem unzz_zz (d : Word) : unzz (zz d) = d := by
  apply BitVec.eq_of_toNat_eq
  have hd := d.isLt
  cases h : d.msb with
  | false =>
    have fold := toNat_zz_of_nonneg h
    rw [toNat_unzz_of_even] <;> omega
  | true =>
    have fold := toNat_zz_of_neg h
    have hge := BitVec.msb_eq_true_iff_two_mul_ge.mp h
    rw [toNat_unzz_of_odd] <;> omega

@[simp] theorem zz_unzz (z : Word) : zz (unzz z) = z := by
  apply BitVec.eq_of_toNat_eq
  have hz := z.isLt
  rcases Nat.mod_two_eq_zero_or_one z.toNat with even | odd
  · have unfolded := toNat_unzz_of_even even
    rw [toNat_zz_of_nonneg (BitVec.msb_eq_false_iff_two_mul_lt.mpr (by omega))]
    omega
  · have unfolded := toNat_unzz_of_odd odd
    rw [toNat_zz_of_neg (BitVec.msb_eq_true_iff_two_mul_ge.mpr (by omega))]
    omega

theorem toNat_zz (d : Word) :
    ((zz d).toNat : Int) = if 0 ≤ d.toInt then 2 * d.toInt else -2 * d.toInt - 1 := by
  have hd := d.isLt
  cases h : d.msb with
  | false =>
    rw [if_pos (BitVec.toInt_nonneg_of_msb_false h), toNat_zz_of_nonneg h,
      BitVec.toInt_eq_toNat_of_msb h]
    omega
  | true =>
    have hneg : d.toInt < 0 := BitVec.toInt_neg_of_msb_true h
    rw [if_neg (not_le.mpr hneg), toNat_zz_of_neg h, BitVec.toInt_eq_msb_cond, if_pos h]
    omega

/-- Settles O6: the fold is read off the sign bit, its inverse off the parity. -/
theorem zigzagFoldsSignedValues : Obligations.ZigzagFoldsSignedValues :=
  ⟨toNat_zz, unzz_zz, zz_unzz⟩

/-- The class codes are in the order of the bounds 2^8, 2^16, 2^32 and 2^64 of their classes
(R134, R135). -/
theorem wc_le_iff (z : Word) (w : WidthCode) : wc z ≤ w ↔ z.toNat < 256 ^ bytesOf w := by
  rw [wc]
  fin_cases w
  · change _ ↔ z.toNat < 2 ^ 8
    split_ifs <;> simp <;> omega
  · change _ ↔ z.toNat < 2 ^ 16
    split_ifs <;> simp <;> omega
  · change _ ↔ z.toNat < 2 ^ 32
    split_ifs <;> simp <;> omega
  · change _ ↔ z.toNat < 2 ^ 64
    exact iff_of_true (Fin.le_last _) z.isLt

/-- Settles O7: comparing codes is comparing the bounds of their classes. -/
theorem widthClassCovers : Obligations.WidthClassCovers :=
  fun w z => ⟨rfl, (wc_le_iff z w).symm⟩

/-- A field folded against the reference gives its element back (R137). -/
theorem reconstruct_zz_delta (a b : Word) : reconstruct b (zz (delta a b)) = a := by
  rw [reconstruct, unzz_zz, delta, BitVec.add_comm, BitVec.sub_add_cancel]

/-- The running sum one place at a time; the reference stands before place 0 (R155, R160). -/
theorem reconstructAll_getD (r : Word) (zs : List Word) (j : Nat) (hj : j < zs.length) :
    (reconstructAll r zs).getD j 0#64
      = (if j = 0 then r else (reconstructAll r zs).getD (j - 1) 0#64)
        + unzz (zs.getD j 0#64) := by
  induction zs generalizing r j with
  | nil => simp at hj
  | cons z zs ih =>
    cases j with
    | zero => rfl
    | succ j =>
      have tail := ih (reconstruct r z) j (Nat.lt_of_succ_lt_succ hj)
      cases j <;> exact tail

/-- Settles O8, from the inverse of the fold and the running sum over a block's fields. -/
theorem reconstructionIsExact : Obligations.ReconstructionIsExact :=
  ⟨fun _ _ => rfl, reconstruct_zz_delta, reconstructAll_getD⟩

end Sys2Proof.Proofs

namespace Sys2Proof.Proofs

open Sys2Proof.Machine Sys2Proof.Laws

/-! The encoder's stream (R189, R190, R195): the encoded blocks and the footer at its end. -/

theorem streamBytes_length (blocks : List Instr) :
    (streamBytes blocks).length = (blocks.flatMap encode).length + Config.footerBytes := by
  rw [streamBytes, List.length_append]
  rfl

theorem streamBytes_marker (blocks : List Instr) :
    (streamBytes blocks).getD ((streamBytes blocks).length - Config.footerBytes) 0#8
      = Config.formatMarker := by
  rw [streamBytes_length, Nat.add_sub_cancel, streamBytes, List.getD_append_right _ _ _ _ le_rfl,
    Nat.sub_self]
  rfl

/-- The block region is what stands before the footer. -/
theorem take_streamBytes (blocks : List Instr) :
    (streamBytes blocks).take ((streamBytes blocks).length - Config.footerBytes)
      = blocks.flatMap encode := by
  rw [streamBytes_length, Nat.add_sub_cancel, streamBytes, List.take_left]

/-- Settles O12: every stream ends with the footer, whose first byte is the marker. -/
theorem footerMarkerStandsSevenFromTheEnd : Obligations.FooterMarkerStandsSevenFromTheEnd :=
  fun _ => ⟨(streamBytes_length _).symm ▸ Nat.le_add_left _ _, streamBytes_marker _⟩

end Sys2Proof.Proofs

namespace Sys2Proof.Proofs

open Sys2Proof.Machine Sys2Proof.Laws

/-! A block decodes back from its encoding, whatever bytes follow it (R92 to R99). -/

theorem blockCount_wf_iff (c : BlockCount) : c.wf = true
    ↔ 1 ≤ c.n ∧ c.n ≤ Config.maxBlock ∧ (c.long = true ∨ c.n ≤ Config.shortMax) := by
  simp [BlockCount.wf, and_assoc]

theorem deltaE_wf_iff (c : BlockCount) (w : WidthCode) (r : Word) (zs : List Word) :
    (Instr.deltaE c w r zs).wf = true
      ↔ c.wf = true ∧ zs.length + 1 = c.n ∧ zs.all (fieldFits w) = true := by
  simp only [Instr.wf, Bool.and_eq_true, decide_eq_true_eq, and_assoc]

theorem deltaI_wf_iff (c : BlockCount) (w : WidthCode) (zs : List Word) :
    (Instr.deltaI c w zs).wf = true
      ↔ c.wf = true ∧ zs.length = c.n ∧ zs.all (fieldFits w) = true := by
  simp only [Instr.wf, Bool.and_eq_true, decide_eq_true_eq, and_assoc]

/-- The selector's fields are read back, for the selectors that R104 does not reserve. -/
theorem decodeSelector_selectorByte {k : BlockKind} {w : WidthCode} {c : Nat} (hc : c < 16)
    (hw : k = .repeatRun → w = 0) : decodeSelector (selectorByte k w c) = some (k, w, c) := by
  have hw4 := w.isLt
  have hk : kindCode k ≤ 2 := by cases k <;> decide
  have value : (selectorByte k w c).toNat = kindCode k * 64 + w.val * 16 + c := by
    rw [selectorByte, BitVec.toNat_ofNat]
    omega
  have kind : (kindCode k * 64 + w.val * 16 + c) / 64 = kindCode k := by omega
  have width : (Fin.ofNat 4 ((kindCode k * 64 + w.val * 16 + c) / 16) : WidthCode) = w := by
    apply Fin.ext
    rw [Fin.val_ofNat]
    omega
  have code : (kindCode k * 64 + w.val * 16 + c) % 16 = c := by omega
  rw [decodeSelector, value, kind, width, code]
  cases k with
  | deltaI => rfl
  | deltaE => rfl
  | repeatRun => rw [hw rfl]; rfl

/-- A well-formed count is read back in the spelling it was written in (R95, R99). -/
theorem decodeCount_encodeHeader (k : BlockKind) (w : WidthCode) {cnt : BlockCount}
    (h : cnt.wf = true) (body : List Byte) :
    ∃ c bs, c < 16 ∧ encodeHeader k w cnt ++ body = selectorByte k w c :: bs
      ∧ decodeCount k c bs = .ok (cnt, body) := by
  obtain ⟨n, long⟩ := cnt
  obtain ⟨positive, bounded, spelling⟩ := (blockCount_wf_iff _).mp h
  simp only [Config.maxBlock, Config.shortMax] at positive bounded spelling
  cases long with
  | true =>
    refine ⟨15, leBytes 4 n ++ body, by decide, rfl, ?_⟩
    have field : rdLE ((leBytes 4 n ++ body).take 4) = n := by
      rw [List.take_left' (leBytes_length 4 n), rdLE_leBytes]
      omega
    have fits : ¬ (leBytes 4 n ++ body).length < 4 := by simp
    rw [decodeCount, if_pos rfl, if_neg fits, field, if_neg (by omega),
      List.drop_left' (leBytes_length 4 n)]
  | false =>
    have short : n ≤ 15 := spelling.resolve_left Bool.false_ne_true
    refine ⟨n - 1, body, by omega, rfl, ?_⟩
    rw [decodeCount, if_neg (by omega), Nat.sub_add_cancel positive]

/-- Packed fields that fit their class are read back (R138, R139). -/
theorem decodeFields_encodeFields {w : WidthCode} {zs : List Word}
    (h : zs.all (fieldFits w) = true) (rest : List Byte) :
    decodeFields w zs.length (encodeFields w zs ++ rest) = zs := by
  induction zs with
  | nil => rfl
  | cons z zs ih =>
    obtain ⟨fits, fitsTail⟩ : fieldFits w z = true ∧ zs.all (fieldFits w) = true := by
      simpa using h
    have split : encodeFields w (z :: zs) ++ rest
        = leBytes (bytesOf w) z.toNat ++ (encodeFields w zs ++ rest) := by simp [encodeFields]
    rw [List.length_cons, decodeFields, split, List.take_left' (leBytes_length _ _),
      List.drop_left' (leBytes_length _ _), rdWord_leBytes_fits fits, ih fitsTail]

/-- A header with a payload of the length it announces decodes to that payload's operands, and the
bytes after the payload are left (R94). -/
theorem decodeBlock_encodeHeader {k : BlockKind} {w : WidthCode} {cnt : BlockCount}
    {payload : List Byte} (hwf : cnt.wf = true) (hw : k = .repeatRun → w = 0)
    (hlen : payload.length = payLen k w cnt.n) (rest : List Byte) :
    decodeBlock (encodeHeader k w cnt ++ (payload ++ rest))
      = .ok (decodePayload k w cnt (payload ++ rest), rest) := by
  obtain ⟨c, bs, hc, bytes, count⟩ := decodeCount_encodeHeader k w hwf (payload ++ rest)
  have fits : ¬ (payload ++ rest).length < payLen k w cnt.n := by simp [hlen]
  rw [bytes, decodeBlock, decodeSelector_selectorByte hc hw]
  simp only [count, if_neg fits, List.drop_left' hlen]

theorem decodeBlock_encode {i : Instr} (hwf : i.wf = true) (hblock : i.isBlock = true)
    (rest : List Byte) : decodeBlock (encode i ++ rest) = .ok (i, rest) := by
  cases i with
  | repeatBlock cnt v =>
    rw [encode, List.append_assoc,
      decodeBlock_encodeHeader hwf (fun _ => rfl) (leBytes_length 8 _) rest,
      decodePayload, List.take_left' (leBytes_length 8 _), rdWord_leBytes]
  | deltaE cnt w r zs =>
    obtain ⟨count, length, fit⟩ := (deltaE_wf_iff cnt w r zs).mp hwf
    have fields : cnt.n - 1 = zs.length := by omega
    have payload : (leBytes 8 r.toNat ++ encodeFields w zs).length = payLen .deltaE w cnt.n := by
      simp [payLen, fields]
    rw [encode, List.append_assoc, List.append_assoc, ← List.append_assoc (leBytes 8 _),
      decodeBlock_encodeHeader (k := .deltaE) count nofun payload rest, decodePayload,
      List.append_assoc,
      List.take_left' (leBytes_length 8 _), List.drop_left' (leBytes_length 8 _), rdWord_leBytes,
      fields, decodeFields_encodeFields fit]
  | deltaI cnt w zs =>
    obtain ⟨count, length, fit⟩ := (deltaI_wf_iff cnt w zs).mp hwf
    have payload : (encodeFields w zs).length = payLen .deltaI w cnt.n := by
      simp [payLen, length]
    rw [encode, List.append_assoc, decodeBlock_encodeHeader (k := .deltaI) count nofun payload rest,
      decodePayload, ← length, decodeFields_encodeFields fit]
  | _ => exact absurd hblock Bool.false_ne_true

theorem encode_length_pos (i : Instr) : 0 < (encode i).length := by
  cases i with
  | deltaI cnt =>
    have header : 0 < hdrLen cnt := by
      rw [hdrLen]
      split <;> decide
    simp [encode, header]
  | _ => simp [encode]

end Sys2Proof.Proofs

namespace Sys2Proof.Proofs

open Sys2Proof.Machine Sys2Proof.Laws

/-! The scan (R182 to R188): the block that opens at an index is well-formed and stands for the
elements it covers. -/

/-! ## Runs of a sequence -/

/-- The `m` elements of `x` from index `s` on. -/
def elemsFrom (x : Nat → Word) (s m : Nat) : List Word := (List.range' s m).map x

theorem elemsFrom_succ (x : Nat → Word) (s m : Nat) :
    elemsFrom x s (m + 1) = x s :: elemsFrom x (s + 1) m := by
  simp [elemsFrom, List.range'_succ]

theorem elemsFrom_append (x : Nat → Word) (s m l : Nat) :
    elemsFrom x s m ++ elemsFrom x (s + m) l = elemsFrom x s (m + l) := by
  rw [elemsFrom, elemsFrom, ← List.map_append, List.range'_append_1, elemsFrom]

theorem elemsFrom_getLast? (x : Nat → Word) {s m : Nat} (h : 0 < m) :
    (elemsFrom x s m).getLast? = some (x (s + m - 1)) := by
  obtain ⟨m, rfl⟩ := Nat.exists_eq_succ_of_ne_zero h.ne'
  simp [elemsFrom, List.range'_concat]

theorem elemsFrom_elemAt (xs : List Word) : elemsFrom (elemAt xs) 0 xs.length = xs := by
  apply List.ext_getElem
  · simp [elemsFrom]
  · intro j _ hj
    simp [elemsFrom, elemAt, hj]

/-! ## The greedy extension -/

/-- The elements an extension adds stand in the sequence, keep the block within MAX_BLOCK and
continue it (R183). -/
theorem extend_spec (maxB : Nat) (x : Nat → Word) (n : Nat) (mode : Mode) (s : Nat)
    (w : WidthCode) (fuel nb : Nat) (hn : s + nb ≤ n) (hmax : nb ≤ maxB) :
    nb ≤ extend maxB x n mode s w fuel nb
      ∧ s + extend maxB x n mode s w fuel nb ≤ n
      ∧ extend maxB x n mode s w fuel nb ≤ maxB
      ∧ ∀ j, s + nb ≤ j → j < s + extend maxB x n mode s w fuel nb →
          cont x mode s w j = true := by
  induction fuel generalizing nb with
  | zero => exact ⟨le_rfl, hn, hmax, fun j hlo hhi => absurd hlo (Nat.not_le.mpr hhi)⟩
  | succ fuel ih =>
    rw [extend]
    split
    case isTrue h =>
      obtain ⟨inside, room, continues⟩ := h
      obtain ⟨grows, ends, bounded, added⟩ := ih (nb + 1) inside room
      refine ⟨Nat.le_of_succ_le grows, ends, bounded, fun j hlo hhi => ?_⟩
      rcases Nat.eq_or_lt_of_le hlo with rfl | hlt
      · exact continues
      · exact added j hlt hhi
    case isFalse =>
      exact ⟨le_rfl, hn, hmax, fun j hlo hhi => absurd hlo (Nat.not_le.mpr hhi)⟩

/-! ## Emitted blocks -/

theorem canonicalCount_wf {n : Nat} (h : 0 < n) (hmax : n ≤ Config.maxBlock) :
    (canonicalCount n).wf = true := by
  have spelling : decide (Config.shortMax < n) = true ∨ n ≤ Config.shortMax :=
    (Nat.lt_or_ge _ _).imp_left decide_eq_true
  exact (blockCount_wf_iff _).mpr ⟨h, hmax, spelling⟩

@[simp] theorem foldFields_length (x : Nat → Word) (j m : Nat) :
    (foldFields x j m).length = m := by
  induction m generalizing j with
  | zero => rfl
  | succ m ih => simp [foldFields, ih]

/-- Fields whose classes are covered fit (R135, R138). -/
theorem foldFields_fit {x : Nat → Word} {w : WidthCode} {j m : Nat}
    (h : ∀ k, j ≤ k → k < j + m → wc (foldDelta (x k) (x (k - 1))) ≤ w) :
    (foldFields x j m).all (fieldFits w) = true := by
  induction m generalizing j with
  | zero => rfl
  | succ m ih =>
    have head : fieldFits w (foldDelta (x j) (x (j - 1))) = true :=
      decide_eq_true ((wc_le_iff _ w).mp (h j le_rfl (by omega)))
    rw [foldFields, List.all_cons, head, Bool.true_and]
    exact ih fun k hlo hhi => h k (by omega) (by omega)

/-- The fields of a run give its elements back from the element before it (R137). -/
theorem reconstructAll_foldFields (x : Nat → Word) (j m : Nat) :
    reconstructAll (x (j - 1)) (foldFields x j m) = elemsFrom x j m := by
  induction m generalizing j with
  | zero => rfl
  | succ m ih =>
    rw [foldFields, reconstructAll, foldDelta, reconstruct_zz_delta, elemsFrom_succ, ← ih (j + 1),
      Nat.add_sub_cancel]

/-- The running reference before element `i`: none at the start (R168). -/
def referenceAt (x : Nat → Word) (i : Nat) : Option Word :=
  if i = 0 then none else some (x (i - 1))

theorem referenceAt_of_ne_zero (x : Nat → Word) {i : Nat} (h : i ≠ 0) :
    referenceAt x i = some (x (i - 1)) := if_neg h

/-- What the decoder needs of a block that covers `nb` elements from `s` on. -/
structure Covers (x : Nat → Word) (s nb : Nat) (i : Instr) : Prop where
  wf : i.wf = true
  isBlock : i.isBlock = true
  count : blockCount i = nb
  reference : needsReference i = true → (referenceAt x s).isSome = true
  elems : blockElems ((referenceAt x s).getD 0#64) i = elemsFrom x s nb

theorem covers_emitRepeat {x : Nat → Word} {s nb : Nat} {w : WidthCode} (hpos : 0 < nb)
    (hmax : nb ≤ Config.maxBlock) (hsame : ∀ j, s ≤ j → j < s + nb → x j = x s) :
    Covers x s nb (emitBlock x .repeatMode s nb w) where
  wf := canonicalCount_wf hpos hmax
  isBlock := rfl
  count := rfl
  reference := nofun
  elems := by
    refine (List.eq_replicate_iff.mpr ⟨by simp [elemsFrom, canonicalCount], ?_⟩).symm
    simp only [elemsFrom, List.mem_map, List.mem_range'_1]
    rintro _ ⟨j, ⟨hlo, hhi⟩, rfl⟩
    exact hsame j hlo hhi

theorem covers_emitDeltaE {x : Nat → Word} {s nb : Nat} {w : WidthCode} (hpos : 0 < nb)
    (hmax : nb ≤ Config.maxBlock)
    (hclass : ∀ j, s + 1 ≤ j → j < s + nb → wc (foldDelta (x j) (x (j - 1))) ≤ w) :
    Covers x s nb (emitBlock x .deltaE s nb w) where
  wf := by
    have fit : (foldFields x (s + 1) (nb - 1)).all (fieldFits w) = true :=
      foldFields_fit fun j hlo hhi => hclass j hlo (by omega)
    have length : (foldFields x (s + 1) (nb - 1)).length + 1 = nb := by
      rw [foldFields_length, Nat.sub_add_cancel hpos]
    exact (deltaE_wf_iff _ _ _ _).mpr ⟨canonicalCount_wf hpos hmax, length, fit⟩
  isBlock := rfl
  count := rfl
  reference := nofun
  elems := by
    rw [emitBlock, blockElems]
    obtain ⟨m, rfl⟩ := Nat.exists_eq_succ_of_ne_zero hpos.ne'
    rw [elemsFrom_succ, ← reconstructAll_foldFields, Nat.succ_sub_one, Nat.add_sub_cancel]

theorem covers_emitDeltaI {x : Nat → Word} {s nb : Nat} {w : WidthCode} (hpos : 0 < nb)
    (hmax : nb ≤ Config.maxBlock) (hs : s ≠ 0)
    (hclass : ∀ j, s ≤ j → j < s + nb → wc (foldDelta (x j) (x (j - 1))) ≤ w) :
    Covers x s nb (emitBlock x .deltaI s nb w) where
  wf := (deltaI_wf_iff _ _ _).mpr
    ⟨canonicalCount_wf hpos hmax, foldFields_length x s nb, foldFields_fit hclass⟩
  isBlock := rfl
  count := rfl
  reference := fun _ => by rw [referenceAt_of_ne_zero x hs, Option.isSome_some]
  elems := by
    rw [referenceAt_of_ne_zero x hs]
    exact reconstructAll_foldFields x s nb

/-! ## The block that opens at an index -/

/-- The elements in the block that opens at `i` (R183). -/
def scanSize (x : Nat → Word) (n i : Nat) : Nat :=
  extendScalar Config.maxBlock x n (openMode x n i) i (openWidth x (openMode x n i) i)
    (openSize (openMode x n i))

/-- The block that opens at `i` (R188). -/
def scanBlock (x : Nat → Word) (n i : Nat) : Instr :=
  emitBlock x (openMode x n i) i (scanSize x n i) (openWidth x (openMode x n i) i)

/-- The scan's blocks from index `i` on, at most `blocks` of them (R190). -/
def scanFrom (x : Nat → Word) (n blocks i : Nat) : List Instr :=
  blocksFrom (extendScalar Config.maxBlock x n) x n blocks i

theorem scanFrom_succ {x : Nat → Word} {n i : Nat} (blocks : Nat) (h : i < n) :
    scanFrom x n (blocks + 1) i = scanBlock x n i :: scanFrom x n blocks (i + scanSize x n i) := by
  rw [scanFrom, blocksFrom, if_pos h, scanBlock, scanSize, scanFrom]

theorem scanFrom_end (x : Nat → Word) (n blocks : Nat) : scanFrom x n blocks n = [] := by
  cases blocks with
  | zero => rfl
  | succ blocks => rw [scanFrom, blocksFrom, if_neg (lt_irrefl n)]

theorem encodeSeq_eq_streamBytes (xs : List Word) :
    encodeSeq xs = streamBytes (scanFrom (elemAt xs) xs.length xs.length 0) := rfl

/-- Everything R182 can choose: DELTA.E opens at index 0 only, with an element after it, and DELTA.I
never there. -/
theorem openMode_cases {x : Nat → Word} {n i : Nat} (h : i < n) :
    openMode x n i = .repeatMode ∨ (openMode x n i = .deltaE ∧ i = 0 ∧ 2 ≤ n)
      ∨ (openMode x n i = .deltaI ∧ i ≠ 0) := by
  rw [openMode]
  split
  case isTrue => exact .inl rfl
  case isFalse other =>
    split
    case isTrue first => exact .inr (.inl ⟨rfl, first, by omega⟩)
    case isFalse later => exact .inr (.inr ⟨rfl, later⟩)

theorem openSize_pos (mode : Mode) : 0 < openSize mode := by
  cases mode <;> decide

/-- A block opens with elements of the sequence (R182, R185). -/
theorem openSize_le {x : Nat → Word} {n i : Nat} (h : i < n) :
    i + openSize (openMode x n i) ≤ n := by
  rcases openMode_cases (x := x) h with mode | ⟨mode, first, two⟩ | ⟨mode, later⟩ <;>
    simp only [mode, openSize] <;> omega

/-- The last element a block opens with continues it: the width code is the class of its field
(R184). -/
theorem cont_lastOpened (x : Nat → Word) (mode : Mode) (s : Nat) :
    cont x mode s (openWidth x mode s) (s + openSize mode - 1) = true := by
  cases mode with
  | repeatMode => exact decide_eq_true rfl
  | deltaE => exact decide_eq_true le_rfl
  | deltaI => exact decide_eq_true le_rfl

/-- The block that opens at `i` has an element, ends in the sequence, keeps to MAX_BLOCK, and is
continued by every element from the last one it opened with on. -/
theorem scanSize_spec {x : Nat → Word} {n i : Nat} (h : i < n) :
    0 < scanSize x n i ∧ i + scanSize x n i ≤ n ∧ scanSize x n i ≤ Config.maxBlock
      ∧ ∀ j, i + openSize (openMode x n i) - 1 ≤ j → j < i + scanSize x n i →
          cont x (openMode x n i) i (openWidth x (openMode x n i) i) j = true := by
  have opened := openSize_pos (openMode x n i)
  have room : openSize (openMode x n i) ≤ Config.maxBlock := by
    cases openMode x n i <;> decide
  obtain ⟨grows, ends, bounded, added⟩ :=
    extend_spec Config.maxBlock x n (openMode x n i) i (openWidth x (openMode x n i) i)
      (n - (i + openSize (openMode x n i))) _ (openSize_le h) room
  refine ⟨opened.trans_le grows, ends, bounded, fun j hlo hhi => ?_⟩
  rcases Nat.eq_or_lt_of_le hlo with rfl | hlt
  · exact cont_lastOpened x _ i
  · exact added j (by omega) hhi

/-- R182 to R188: the scan's block covers its elements, since each continues it. -/
theorem scanBlock_covers {x : Nat → Word} {n i : Nat} (h : i < n) :
    Covers x i (scanSize x n i) (scanBlock x n i) := by
  obtain ⟨positive, _, bounded, continued⟩ := scanSize_spec (x := x) h
  rw [scanBlock]
  rcases openMode_cases (x := x) h with mode | ⟨mode, _, _⟩ | ⟨mode, later⟩ <;>
    rw [mode] at continued ⊢
  · exact covers_emitRepeat positive bounded fun j hlo hhi =>
      of_decide_eq_true (continued j hlo hhi)
  · exact covers_emitDeltaE positive bounded fun j hlo hhi =>
      of_decide_eq_true (continued j hlo hhi)
  · exact covers_emitDeltaI positive bounded later fun j hlo hhi =>
      of_decide_eq_true (continued j hlo hhi)

end Sys2Proof.Proofs

namespace Sys2Proof.Proofs

open Sys2Proof.Machine Sys2Proof.Laws

/-! The round trip (R196, R220): the decoder's loop takes the scan's blocks one by one, its running
reference the element before the next one. -/

/-- The loop takes a block that covers the next elements and goes on after them (R220). -/
theorem decodeLoop_covers {x : Nat → Word} {s nb m : Nat} {i : Instr} {rest : List Byte}
    {fuel : Nat} (hpos : 0 < nb) (hcov : Covers x s nb i)
    (hrest : decodeLoop blockElems fuel rest m (referenceAt x (s + nb))
      = .ok (elemsFrom x (s + nb) m)) :
    decodeLoop blockElems (fuel + 1) (encode i ++ rest) (nb + m) (referenceAt x s)
      = .ok (elemsFrom x s (nb + m)) := by
  have someBytes : (encode i ++ rest).isEmpty = false := by
    simp [List.ne_nil_of_length_pos (encode_length_pos i)]
  have hasReference : (needsReference i && !(referenceAt x s).isSome) = false := by
    cases needs : needsReference i with
    | false => rfl
    | true => simp [hcov.reference needs]
  have next : (elemsFrom x s nb).getLast? = referenceAt x (s + nb) := by
    rw [elemsFrom_getLast? x hpos, referenceAt_of_ne_zero x (by omega)]
  simp only [decodeLoop, someBytes, decodeBlock_encode hcov.wf hcov.isBlock, hasReference,
    hcov.count, hcov.elems, next, Bool.false_eq_true, if_false, Nat.add_sub_cancel_left, hrest,
    elemsFrom_append]
  rw [if_neg (by omega), if_neg (by omega)]

/-- The loop on the scan's blocks from `i` on gives the elements from `i` on. A block takes at least
one byte, so a bound above the bytes left is a bound above the blocks left. -/
theorem decodeLoop_scanFrom (x : Nat → Word) (n fuel : Nat) {blocks i : Nat} (hi : i ≤ n)
    (hblocks : n - i ≤ blocks)
    (hfuel : ((scanFrom x n blocks i).flatMap encode).length < fuel) :
    decodeLoop blockElems fuel ((scanFrom x n blocks i).flatMap encode) (n - i) (referenceAt x i)
      = .ok (elemsFrom x i (n - i)) := by
  induction fuel generalizing blocks i with
  | zero => exact absurd hfuel (Nat.not_lt_zero _)
  | succ fuel ih =>
    rcases Nat.eq_or_lt_of_le hi with rfl | hlt
    · rw [scanFrom_end, Nat.sub_self]
      rfl
    · obtain ⟨blocks, rfl⟩ : ∃ b, blocks = b + 1 := ⟨blocks - 1, by omega⟩
      obtain ⟨positive, ends, _⟩ := scanSize_spec (x := x) hlt
      have block := encode_length_pos (scanBlock x n i)
      have elements : n - i = scanSize x n i + (n - (i + scanSize x n i)) := by omega
      rw [scanFrom_succ blocks hlt, List.flatMap_cons] at hfuel ⊢
      rw [List.length_append] at hfuel
      rw [elements]
      exact decodeLoop_covers positive (scanBlock_covers hlt) (ih ends (by omega) (by omega))

/-- A stream with a footer passes the checks of R222 and R223, so decoding it is the loop on its
block region. -/
theorem decodeBuf_streamBytes (blocks : List Instr) (cnt : Nat) :
    decodeBuf (streamBytes blocks) cnt
      = decodeLoop blockElems ((streamBytes blocks).length + 1) (blocks.flatMap encode)
          cnt none := by
  have long : Config.footerBytes ≤ (streamBytes blocks).length := by
    rw [streamBytes_length]
    exact Nat.le_add_left _ _
  have notEmpty : (streamBytes blocks).length ≠ 0 := Nat.ne_zero_of_lt long
  rw [decodeBuf, decodeBufWith, if_neg notEmpty, if_neg (Nat.not_lt.mpr long), streamBytes_marker,
    take_streamBytes]
  rfl

/-- Settles O13: the scan covers the input from index 0, and the loop gives back what it covers. -/
theorem decodingUndoesEncoding : Obligations.DecodingUndoesEncoding := by
  intro xs
  have bound : ((scanFrom (elemAt xs) xs.length xs.length 0).flatMap encode).length
      < (encodeSeq xs).length + 1 := by
    rw [encodeSeq_eq_streamBytes, streamBytes_length]
    omega
  calc decodeBuf (encodeSeq xs) xs.length
      = decodeLoop blockElems ((encodeSeq xs).length + 1)
          ((scanFrom (elemAt xs) xs.length xs.length 0).flatMap encode) xs.length none :=
        decodeBuf_streamBytes _ _
    _ = .ok (elemsFrom (elemAt xs) 0 xs.length) :=
        decodeLoop_scanFrom (elemAt xs) xs.length _ (Nat.zero_le _) le_rfl bound
    _ = .ok xs := by rw [elemsFrom_elemAt]

end Sys2Proof.Proofs

namespace Sys2Proof.Proofs

open Sys2Proof.Machine Sys2Proof.Laws

/-! The bound on the encoder's output (R169, R194, R213): a block of `n` elements takes at most `n`
bytes of header and `8 n` bytes of payload, and the blocks cover the input once. -/

/-- The long header's five bytes are spent on blocks of at least 16 elements only (R95, R188). -/
theorem hdrLen_canonicalCount_le {n : Nat} (h : 0 < n) : hdrLen (canonicalCount n) ≤ n := by
  rcases Nat.lt_or_ge Config.shortMax n with long | short
  · calc hdrLen (canonicalCount n) = 5 := if_pos (decide_eq_true long)
      _ ≤ Config.shortMax := by decide
      _ ≤ n := long.le
  · calc hdrLen (canonicalCount n) = 1 := if_neg (by simpa [canonicalCount] using short)
      _ ≤ n := h

/-- A payload takes at most eight bytes per element: DELTA.E's reference stands for its first
(R97). -/
theorem payLen_le (k : BlockKind) (w : WidthCode) {n : Nat} (h : 0 < n) :
    payLen k w n ≤ 8 * n := by
  have width (m : Nat) : m * bytesOf w ≤ m * 8 := Nat.mul_le_mul_left m (bytesOf_le w)
  cases k with
  | repeatRun => exact Nat.le_mul_of_pos_right 8 h
  | deltaE =>
    have fields := width (n - 1)
    rw [payLen]
    omega
  | deltaI => exact (width n).trans_eq (Nat.mul_comm n 8)

/-- An emitted block is a header that spells its count canonically and the payload of some kind and
width (R97, R188). -/
theorem encode_emitBlock_length (x : Nat → Word) (mode : Mode) (s nb : Nat) (w : WidthCode) :
    ∃ k w', (encode (emitBlock x mode s nb w)).length
      = hdrLen (canonicalCount nb) + payLen k w' nb := by
  cases mode with
  | repeatMode => exact ⟨.repeatRun, 0, by simp [emitBlock, encode, payLen]⟩
  | deltaE => exact ⟨.deltaE, w, by simp [emitBlock, encode, payLen]⟩
  | deltaI => exact ⟨.deltaI, w, by simp [emitBlock, encode, payLen]⟩

/-- R169: a block takes at most nine bytes per element. -/
theorem encode_emitBlock_length_le (x : Nat → Word) (mode : Mode) (s : Nat) {nb : Nat}
    (w : WidthCode) (h : 0 < nb) : (encode (emitBlock x mode s nb w)).length ≤ 9 * nb := by
  obtain ⟨k, w', length⟩ := encode_emitBlock_length x mode s nb w
  have header := hdrLen_canonicalCount_le h
  have payload := payLen_le k w' h
  omega

/-- The blocks from index `i` on take at most nine bytes per element left, since each ends in the
sequence (R194). -/
theorem encode_scanFrom_length_le (x : Nat → Word) (n blocks : Nat) {i : Nat} (hi : i ≤ n) :
    ((scanFrom x n blocks i).flatMap encode).length ≤ 9 * (n - i) := by
  induction blocks generalizing i with
  | zero => exact Nat.zero_le _
  | succ blocks ih =>
    rcases Nat.eq_or_lt_of_le hi with rfl | hlt
    · rw [scanFrom_end]
      exact Nat.zero_le _
    · obtain ⟨positive, ends, _⟩ := scanSize_spec (x := x) hlt
      have block : (encode (scanBlock x n i)).length ≤ 9 * scanSize x n i :=
        encode_emitBlock_length_le x _ i _ positive
      have rest := ih ends
      rw [scanFrom_succ blocks hlt, List.flatMap_cons, List.length_append]
      omega

theorem encodeSeq_nil : encodeSeq [] = encode .footer := rfl

/-- One element is a REPEAT of count 1 (R182). -/
theorem encodeSeq_singleton (v : Word) :
    encodeSeq [v] = streamBytes [.repeatBlock (canonicalCount 1) v] := rfl

/-- Settles O11: the blocks take at most nine bytes per element and the footer seven; a lone REPEAT
takes nine. -/
theorem encoderOutputIsBounded : Obligations.EncoderOutputIsBounded := by
  refine ⟨fun xs => ?bound, ?empty, fun v => ?single⟩
  case bound =>
    rw [encodeSeq_eq_streamBytes, streamBytes_length, maxCompressedSize]
    exact Nat.add_le_add_right
      (encode_scanFrom_length_le (elemAt xs) xs.length xs.length (Nat.zero_le _)) _
  case empty =>
    rw [encodeSeq_nil]
    rfl
  case single =>
    rw [encodeSeq_singleton, streamBytes_length]
    rfl

end Sys2Proof.Proofs

namespace Sys2Proof.Proofs

open Sys2Proof.Machine

/-! The checks before the first block (R222, R223), on either engine: the blocks' elements do not
enter them. -/

section
variable {elems : Word → Instr → List Word} {bs : List Byte} {cnt : Nat}

/-- R101: version 1 recognizes one marker. -/
theorem contains_recognizedMarkers {m : Byte} :
    Config.recognizedMarkers.contains m = true ↔ m = Config.formatMarker := by
  rw [Config.recognizedMarkers, List.contains_iff_mem, List.mem_singleton, Config.formatMarker]

theorem decodeBufWith_of_length_zero (empty : bs.length = 0) :
    decodeBufWith elems bs cnt = if cnt = 0 then .ok [] else .error .lengthMismatch := by
  rw [decodeBufWith, if_pos empty]

theorem decodeBufWith_of_short (nonempty : bs.length ≠ 0)
    (short : bs.length < Config.footerBytes) :
    decodeBufWith elems bs cnt = .error .truncatedInput := by
  rw [decodeBufWith, if_neg nonempty, if_pos short]

theorem decodeBufWith_of_wrong_marker (long : Config.footerBytes ≤ bs.length)
    (wrong : bs.getD (bs.length - Config.footerBytes) 0#8 ≠ Config.formatMarker) :
    decodeBufWith elems bs cnt = .error .unsupportedFormat := by
  have notEmpty : bs.length ≠ 0 := Nat.ne_zero_of_lt long
  have unrecognized : Config.recognizedMarkers.contains
      (bs.getD (bs.length - Config.footerBytes) 0#8) = false :=
    Bool.eq_false_iff.mpr fun known => wrong (contains_recognizedMarkers.mp known)
  rw [decodeBufWith, if_neg notEmpty, if_neg (Nat.not_lt.mpr long), unrecognized]
  rfl

end

/-- Settles O16: each clause is one of the checks that come before the blocks. -/
theorem lengthAndMarkerAreCheckedFirst : Obligations.LengthAndMarkerAreCheckedFirst := by
  refine fun bs cnt => ⟨fun empty zero => ?noneAsked, fun empty nonzero => ?someAsked,
    fun nonempty short => ?truncated, fun long wrong => ?unsupported⟩
  case noneAsked => exact (decodeBufWith_of_length_zero empty).trans (if_pos zero)
  case someAsked => exact (decodeBufWith_of_length_zero empty).trans (if_neg nonzero)
  case truncated =>
    exact decodeBufWith_of_short (Nat.ne_zero_of_lt nonempty) (Nat.lt_succ_of_le short)
  case unsupported => exact decodeBufWith_of_wrong_marker long wrong

end Sys2Proof.Proofs

namespace Sys2Proof.Proofs

open Sys2Proof.Machine Sys2Proof.Laws

/-! STATUS (R27, R291, R320): the fields of its word, what a write of it leaves, and the dropped
write of CMD (R294). -/

/-! ## The fields of the word -/

theorem errNumber_le_six (e : ErrCode) : errNumber e ≤ 6 := by
  cases e <;> decide

/-- The word is BUSY, DONE, DROP and a 0 put below the error number (R27), which is too small for any
of it to be cut off. -/
theorem statusWord_toNat (s : State) :
    (statusWord s).toNat
      = Nat.bit s.busy (Nat.bit s.done (Nat.bit s.drop (Nat.bit false (errNumber s.err)))) := by
  have busyBit := Bool.toNat_le s.busy
  have doneBit := Bool.toNat_le s.done
  have dropBit := Bool.toNat_le s.drop
  have small := errNumber_le_six s.err
  simp only [statusWord, BitVec.toNat_ofNat, Nat.bit_val, Bool.toNat_false]
  omega

theorem statusWord_getLsbD_zero (s : State) : (statusWord s).getLsbD 0 = s.busy := by
  rw [BitVec.getLsbD, statusWord_toNat, Nat.testBit_bit_zero]

theorem statusWord_getLsbD_one (s : State) : (statusWord s).getLsbD 1 = s.done := by
  rw [BitVec.getLsbD, statusWord_toNat, Nat.testBit_bit_succ, Nat.testBit_bit_zero]

theorem statusWord_getLsbD_two (s : State) : (statusWord s).getLsbD 2 = s.drop := by
  rw [BitVec.getLsbD, statusWord_toNat, Nat.testBit_bit_succ, Nat.testBit_bit_succ,
    Nat.testBit_bit_zero]

theorem statusWord_getLsbD_three (s : State) : (statusWord s).getLsbD 3 = false := by
  rw [BitVec.getLsbD, statusWord_toNat, Nat.testBit_bit_succ, Nat.testBit_bit_succ,
    Nat.testBit_bit_succ, Nat.testBit_bit_zero]

theorem statusWord_toNat_div_sixteen (s : State) :
    (statusWord s).toNat / 16 = errNumber s.err := by
  have fourBits : 16 = 2 * 2 * 2 * 2 := rfl
  simp only [statusWord_toNat, fourBits, ← Nat.div_div_eq_div_mul, Nat.bit_div_two]

/-! ## Writes of STATUS and CMD -/

@[simp] theorem regWrite_status (v : Word) (s : State) :
    regWrite 0x10 v s = .next (writeStatus v s) := rfl
@[simp] theorem regWrite_cmd (v : Word) (s : State) : regWrite 0x18 v s = writeCmd v s := rfl

theorem writeCmd_of_busy {s : State} (busy : s.busy = true) (v : Word) :
    writeCmd v s = .next { s with drop := true } :=
  if_pos busy

theorem writeStatus_done_iff (v : Word) (s : State) :
    (writeStatus v s).done = true ↔ s.done = true ∧ v.getLsbD 1 = false := by
  rw [writeStatus_done, Bool.and_eq_true, Bool.not_eq_true']

theorem writeStatus_drop_iff (v : Word) (s : State) :
    (writeStatus v s).drop = true ↔ s.drop = true ∧ v.getLsbD 2 = false := by
  rw [writeStatus_drop, Bool.and_eq_true, Bool.not_eq_true']

/-- Clearing DONE takes the interrupt line down with it, whatever IE is (R330). -/
theorem irq_writeStatus_of_clear_done {v : Word} (clear : v.getLsbD 1 = true) (s : State) :
    (writeStatus v s).irq = false := by
  rw [State.irq, writeStatus_done, clear, Bool.not_true, Bool.and_false, Bool.and_false]

/-- Settles O55: the fields of the word, the codes by their definition, and the write. -/
theorem statusFieldsReadAndClear : Obligations.StatusFieldsReadAndClear := by
  refine fun s => ⟨?fields, rfl, fun v => ?write⟩
  case fields =>
    exact ⟨statusWord_getLsbD_zero s, statusWord_getLsbD_one s, statusWord_getLsbD_two s,
      statusWord_getLsbD_three s, statusWord_toNat_div_sixteen s, errNumber_le_six s.err, rfl⟩
  case write =>
    exact ⟨writeStatus v s, regWrite_status v s, rfl, writeStatus_done_iff v s,
      writeStatus_drop_iff v s, fun clear => irq_writeStatus_of_clear_done clear s⟩

/-- Settles O56: CMD is the register written, and BUSY makes its write a drop. -/
theorem commandWhileBusyIsDropped : Obligations.CommandWhileBusyIsDropped :=
  fun s v busy => (regWrite_cmd v s).trans (writeCmd_of_busy busy v)

end Sys2Proof.Proofs

namespace Sys2Proof.Proofs

open Sys2Proof.Machine Sys2Proof.Laws

/-! The two decoders against the encoder (R92 to R115): a command word and the footer decode back,
and accepted block bytes are the encoding of the block they give. -/

/-! ## Command words and the footer -/

/-- The words of R111 are twelve fixed numbers, one for each choice of KIND and ENG. -/
theorem decodeCommandBytes_encode {i : Instr} (h : i.isCommand = true) :
    decodeCommandBytes (encode i) = .ok i := by
  cases i with
  | maxsize eng kind => cases eng <;> cases kind <;> rfl
  | compressS kind => cases kind <;> rfl
  | compressV kind => cases kind <;> rfl
  | decompressS kind => cases kind <;> rfl
  | decompressV kind => cases kind <;> rfl
  | _ => exact absurd h Bool.false_ne_true

theorem decodeFooter_encode (rest : List Byte) :
    decodeFooter (encode .footer ++ rest) = .ok .footer := by
  have padded : ¬ (List.replicate (Config.footerBytes - 1) 0#8 ++ rest).length
      < Config.footerBytes - 1 := by simp
  rw [encode, List.cons_append, decodeFooter, if_neg padded]
  rfl

/-- Settles O2: the command words are finitely many, a block decodes back before any bytes, and the
footer is recognized by its marker. -/
theorem encodedInstructionsDecodeBack : Obligations.EncodedInstructionsDecodeBack :=
  fun _ rest hwf => ⟨decodeCommandBytes_encode, fun hblock => decodeBlock_encode hwf hblock rest,
    fun hfooter => hfooter ▸ decodeFooter_encode rest⟩

/-- Settles O1: each word and each byte string is evaluated. -/
theorem spelledWordsDecode : Obligations.SpelledWordsDecode := by
  refine ⟨rfl, rfl, rfl, rfl, rfl, rfl, ?_, ?_, ?_, ?_⟩ <;> decide +kernel

/-! ## The selector map -/

/-- K is the selector's top two bits; 0b11, and REPEAT with a width, are reserved (R93, R104). -/
theorem decodeSelector_eq (sel : Byte) : decodeSelector sel
    = if sel.toNat < 0x40 then some (.deltaI, Fin.ofNat 4 (sel.toNat / 16), sel.toNat % 16)
      else if sel.toNat < 0x80 then some (.deltaE, Fin.ofNat 4 (sel.toNat / 16), sel.toNat % 16)
      else if sel.toNat < 0x90 then some (.repeatRun, 0, sel.toNat % 16)
      else none := by
  revert sel
  decide +kernel

/-- A count is never refused as a reserved selector. -/
theorem decodeCount_ne_reserved (k : BlockKind) (c : Nat) (bs : List Byte) :
    decodeCount k c bs ≠ .error .reservedSelector := by
  rw [decodeCount]
  split_ifs <;> exact nofun

/-- The selector alone decides whether a block is refused as reserved. -/
theorem decodeBlock_reserved_iff (sel : Byte) (rest : List Byte) :
    decodeBlock (sel :: rest) = .error .reservedSelector ↔ decodeSelector sel = none := by
  rw [decodeBlock]
  cases decodeSelector sel with
  | none => exact iff_of_true rfl rfl
  | some parts =>
    obtain ⟨k, w, c⟩ := parts
    refine iff_of_false ?_ nofun
    cases count : decodeCount k c rest with
    | error r =>
      simp only [count]
      rintro ⟨⟩
      exact decodeCount_ne_reserved k c rest count
    | ok found =>
      simp only [count]
      split <;> exact nofun

/-- Settles O4: the map as ranges of the selector's value. -/
theorem selectorMap : Obligations.SelectorMap := by
  intro sel rest
  rw [decodeBlock_reserved_iff, decodeSelector_eq]
  refine ⟨?reserved, fun hI => if_pos hI, fun hlo hhi => ?explicit, fun hlo hhi => ?run⟩
  case reserved => split_ifs <;> simp <;> omega
  case explicit => rw [if_neg (by omega), if_pos hhi]
  case run => rw [if_neg (by omega), if_neg (by omega), if_pos hhi]

/-! ## Accepted bytes -/

/-- A selector that decodes is the selector of its fields. -/
theorem selectorByte_of_decodeSelector {sel : Byte} {k : BlockKind} {w : WidthCode} {c : Nat}
    (h : decodeSelector sel = some (k, w, c)) :
    selectorByte k w c = sel ∧ c < 16 ∧ (k = .repeatRun → w = 0) := by
  have all : ∀ sel : Byte, (decodeSelector sel).all fun (k, w, c) =>
      decide (selectorByte k w c = sel ∧ c < 16 ∧ (k = .repeatRun → w = 0)) := by
    decide +kernel
  have fields := all sel
  rw [h] at fields
  exact of_decide_eq_true fields

/-- A count that decodes is well-formed, and its header spells it as it was read. -/
theorem encodeHeader_of_decodeCount {k : BlockKind} {c : Nat} {bs body : List Byte}
    {cnt : BlockCount} (hc : c < 16) (h : decodeCount k c bs = .ok (cnt, body)) (w : WidthCode) :
    cnt.wf = true ∧ selectorByte k w c :: bs = encodeHeader k w cnt ++ body := by
  rw [decodeCount] at h
  split_ifs at h with long short zero
  · obtain ⟨rfl, rfl⟩ : (⟨rdLE (bs.take 4), true⟩ : BlockCount) = cnt ∧ bs.drop 4 = body := by
      simpa using h
    have four : (bs.take 4).length = 4 := List.length_take_of_le (Nat.le_of_not_lt short)
    have bound := rdLE_lt (bs.take 4)
    rw [four] at bound
    refine ⟨(blockCount_wf_iff _).mpr ⟨Nat.pos_of_ne_zero zero, ?_, .inl rfl⟩, ?_⟩
    · exact Nat.le_of_lt_succ bound
    · have field := leBytes_rdLE (bs.take 4)
      rw [four] at field
      rw [encodeHeader, if_pos rfl, field, long, List.cons_append, List.take_append_drop]
  · obtain ⟨rfl, rfl⟩ : (⟨c + 1, false⟩ : BlockCount) = cnt ∧ bs = body := by simpa using h
    refine ⟨(blockCount_wf_iff _).mpr ?_, rfl⟩
    simp only [Config.maxBlock, Config.shortMax]
    omega

/-- A field read from its bytes fits its class and packs to those bytes (R138, R139). -/
theorem leBytes_rdWord {w : WidthCode} {bs : List Byte} (h : bs.length = bytesOf w) :
    fieldFits w (rdWord bs) = true ∧ leBytes (bytesOf w) (rdWord bs).toNat = bs := by
  have bound := rdLE_lt bs
  have word : rdLE bs < 2 ^ 64 := calc
    rdLE bs < 256 ^ bs.length := bound
    _ ≤ 256 ^ 8 := Nat.pow_le_pow_right (by decide) (h ▸ bytesOf_le w)
    _ = 2 ^ 64 := by decide
  have value : (rdWord bs).toNat = rdLE bs := by
    rw [rdWord, BitVec.toNat_ofNat, Nat.mod_eq_of_lt word]
  rw [fieldFits, value, ← h, leBytes_rdLE]
  rw [h] at bound
  exact ⟨decide_eq_true bound, rfl⟩

/-- Fields read from enough bytes fit their class and pack to the bytes they were read from. -/
theorem encodeFields_decodeFields (w : WidthCode) (m : Nat) {bs : List Byte}
    (h : m * bytesOf w ≤ bs.length) :
    (decodeFields w m bs).all (fieldFits w) = true
      ∧ encodeFields w (decodeFields w m bs) = bs.take (m * bytesOf w) := by
  induction m generalizing bs with
  | zero => simp [decodeFields, encodeFields]
  | succ m ih =>
    rw [Nat.succ_mul] at h ⊢
    obtain ⟨fits, pack⟩ := leBytes_rdWord (w := w) (bs := bs.take (bytesOf w))
      (List.length_take_of_le (by omega))
    obtain ⟨fitsTail, packTail⟩ := ih (bs := bs.drop (bytesOf w)) (by rw [List.length_drop]; omega)
    refine ⟨by rw [decodeFields, List.all_cons, fits, fitsTail, Bool.true_and], ?_⟩
    rw [encodeFields] at packTail ⊢
    rw [decodeFields, List.flatMap_cons, pack, packTail, Nat.add_comm, List.take_add]

/-- A payload of full length decodes to a well-formed block of that shape, whose encoding it is. -/
theorem encode_decodePayload {k : BlockKind} {w : WidthCode} {cnt : BlockCount} {body : List Byte}
    (hwf : cnt.wf = true) (hw : k = .repeatRun → w = 0)
    (hlen : payLen k w cnt.n ≤ body.length) :
    (decodePayload k w cnt body).wf = true ∧ (decodePayload k w cnt body).isBlock = true
      ∧ encode (decodePayload k w cnt body)
        = encodeHeader k w cnt ++ body.take (payLen k w cnt.n) := by
  obtain ⟨positive, -, -⟩ := (blockCount_wf_iff _).mp hwf
  cases k with
  | repeatRun =>
    obtain ⟨-, pack⟩ := leBytes_rdWord (w := 3) (List.length_take_of_le hlen)
    exact ⟨hwf, rfl, by rw [decodePayload, encode, hw rfl]; exact congrArg _ pack⟩
  | deltaE =>
    rw [payLen] at hlen ⊢
    obtain ⟨-, pack⟩ := leBytes_rdWord (w := 3) (bs := body.take 8)
      (List.length_take_of_le (by omega))
    obtain ⟨fits, packs⟩ := encodeFields_decodeFields w (cnt.n - 1) (bs := body.drop 8)
      (by rw [List.length_drop]; omega)
    refine ⟨(deltaE_wf_iff _ _ _ _).mpr ⟨hwf, ?_, fits⟩, rfl, ?_⟩
    · rw [decodeFields_length, Nat.sub_add_cancel positive]
    · rw [decodePayload, encode, packs, List.take_add, List.append_assoc]
      exact congrArg (fun bytes => _ ++ (bytes ++ _)) pack
  | deltaI =>
    obtain ⟨fits, packs⟩ := encodeFields_decodeFields w cnt.n hlen
    exact ⟨(deltaI_wf_iff _ _ _).mpr ⟨hwf, decodeFields_length _ _ _, fits⟩, rfl,
      by rw [decodePayload, encode, packs, payLen]⟩

/-- What decodeBlock accepts: a header whose selector and count decode, and a full payload. -/
theorem decodeBlock_ok {bs rest : List Byte} {i : Instr} (h : decodeBlock bs = .ok (i, rest)) :
    ∃ sel tail k w c cnt body, bs = sel :: tail ∧ decodeSelector sel = some (k, w, c)
      ∧ decodeCount k c tail = .ok (cnt, body) ∧ payLen k w cnt.n ≤ body.length
      ∧ i = decodePayload k w cnt body ∧ rest = body.drop (payLen k w cnt.n) := by
  cases bs with
  | nil => simp [decodeBlock] at h
  | cons sel tail =>
    rw [decodeBlock] at h
    cases selector : decodeSelector sel with
    | none => simp [selector] at h
    | some parts =>
      obtain ⟨k, w, c⟩ := parts
      cases count : decodeCount k c tail with
      | error r => simp [selector, count] at h
      | ok found =>
        obtain ⟨cnt, body⟩ := found
        simp only [selector, count] at h
        split at h
        · simp at h
        · rename_i fits
          simp only [Except.ok.injEq, Prod.mk.injEq] at h
          exact ⟨sel, tail, k, w, c, cnt, body, rfl, selector, count, Nat.le_of_not_lt fits,
            h.1.symm, h.2.symm⟩

/-- R94, R99: no bit of accepted block bytes is ignored. -/
theorem encode_of_decodeBlock {bs rest : List Byte} {i : Instr}
    (h : decodeBlock bs = .ok (i, rest)) :
    i.wf = true ∧ i.isBlock = true ∧ bs = encode i ++ rest := by
  obtain ⟨sel, tail, k, w, c, cnt, body, rfl, selector, count, fits, rfl, rfl⟩ := decodeBlock_ok h
  obtain ⟨selByte, small, noWidth⟩ := selectorByte_of_decodeSelector selector
  obtain ⟨countWf, header⟩ := encodeHeader_of_decodeCount small count w
  obtain ⟨wf, block, bytes⟩ := encode_decodePayload countWf noWidth fits
  refine ⟨wf, block, ?_⟩
  rw [bytes, List.append_assoc, List.take_append_drop, ← header, selByte]

/-- Settles O3: header and payload are each the encoding of what was read from them. -/
theorem decodedBlocksEncodeBack : Obligations.DecodedBlocksEncodeBack :=
  fun _ _ _ => encode_of_decodeBlock

end Sys2Proof.Proofs

namespace Sys2Proof.Proofs

open Sys2Proof.Machine Sys2Proof.Laws

/-! The size of a block (R183, R264, R266): on either engine the search ends at the first element
that does not go on, and there is one such place. -/

/-- R183: element `j` of a block that opened at `s` stands in the input, leaves the block within
MAX_BLOCK and continues it. -/
def GoesOn (maxB : Nat) (x : Nat → Word) (n : Nat) (mode : Mode) (s : Nat) (w : WidthCode)
    (j : Nat) : Prop :=
  s + j < n ∧ j < maxB ∧ cont x mode s w (s + j) = true

/-- `e` is the first place from `nb` on where `goes` fails. -/
structure EndsAt (goes : Nat → Prop) (nb e : Nat) : Prop where
  le : nb ≤ e
  before : ∀ j, nb ≤ j → j < e → goes j
  stops : ¬ goes e

namespace EndsAt

variable {goes : Nat → Prop} {nb mid e e' : Nat}

theorem unique (h : EndsAt goes nb e) (h' : EndsAt goes nb e') : e = e' := by
  rcases Nat.lt_trichotomy e e' with hlt | heq | hgt
  · exact absurd (h'.before e h.le hlt) h.stops
  · exact heq
  · exact absurd (h.before e' h'.le hgt) h'.stops

theorem here (h : ¬ goes nb) : EndsAt goes nb nb :=
  ⟨le_rfl, fun _ hlo hhi => absurd hlo (Nat.not_le.mpr hhi), h⟩

/-- The search may start earlier, over places that go on. -/
theorem prepend (hle : nb ≤ mid) (hgoes : ∀ j, nb ≤ j → j < mid → goes j)
    (h : EndsAt goes mid e) : EndsAt goes nb e where
  le := hle.trans h.le
  before j hlo hhi := (Nat.lt_or_ge j mid).elim (hgoes j hlo) fun later => h.before j later hhi
  stops := h.stops

theorem prepend_one (hgoes : goes nb) (h : EndsAt goes (nb + 1) e) : EndsAt goes nb e :=
  h.prepend (Nat.le_succ nb) fun j hlo hhi => by
    obtain rfl : j = nb := by omega
    exact hgoes

end EndsAt

section
variable {maxB : Nat} {x : Nat → Word} {n : Nat} {mode : Mode} {s : Nat} {w : WidthCode}

/-- Scalar steps find the end, given enough of them to pass the input's end. -/
theorem extend_endsAt (fuel nb : Nat) (hfuel : n ≤ s + nb + fuel) :
    EndsAt (GoesOn maxB x n mode s w) nb (extend maxB x n mode s w fuel nb) := by
  induction fuel generalizing nb with
  | zero => exact .here fun ⟨inside, _⟩ => absurd inside (by omega)
  | succ fuel ih =>
    rw [extend]
    split
    case isTrue goes => exact (ih (nb + 1) (by omega)).prepend_one goes
    case isFalse stops => exact .here stops

theorem extendScalar_endsAt (nb : Nat) :
    EndsAt (GoesOn maxB x n mode s w) nb (extendScalar maxB x n mode s w nb) :=
  extend_endsAt _ _ (by omega)

end

/-- Settles O9: the end of the search, with its failing condition spelled out. -/
theorem blocksExtendGreedily : Obligations.BlocksExtendGreedily := by
  intro maxB x n mode s w nb
  obtain ⟨le, goes, stops⟩ :=
    extendScalar_endsAt (maxB := maxB) (x := x) (n := n) (mode := mode) (s := s) (w := w) nb
  refine ⟨le, goes, ?_⟩
  by_contra! more
  obtain ⟨inside, room, continues⟩ := more
  exact stops ⟨inside, room, Bool.eq_true_of_not_eq_false continues⟩

/-! ## The lanes that commit -/

theorem leadingTrue_le (bs : List Bool) : leadingTrue bs ≤ bs.length := by
  induction bs with
  | nil => exact le_rfl
  | cons b bs ih => cases b <;> simp [leadingTrue, ih]

theorem getElem_of_lt_leadingTrue {bs : List Bool} {k : Nat} (hk : k < leadingTrue bs)
    (hlen : k < bs.length) : bs[k] = true := by
  induction bs generalizing k with
  | nil => exact absurd hlen (Nat.not_lt_zero k)
  | cons b bs ih =>
    cases b with
    | false => exact absurd hk (Nat.not_lt_zero k)
    | true =>
      cases k with
      | zero => rfl
      | succ k => exact ih (Nat.lt_of_succ_lt_succ hk) (Nat.lt_of_succ_lt_succ hlen)

theorem getElem_leadingTrue {bs : List Bool} (h : leadingTrue bs < bs.length) :
    bs[leadingTrue bs] = false := by
  induction bs with
  | nil => exact absurd h (Nat.not_lt_zero _)
  | cons b bs ih =>
    cases b with
    | false => rfl
    | true => exact ih (Nat.lt_of_succ_lt_succ h)

/-- R264: the lanes that commit at `s + nb`, of `lanes` of them. -/
def committed (lanes maxB : Nat) (x : Nat → Word) (mode : Mode) (s : Nat) (w : WidthCode)
    (nb : Nat) : Nat :=
  leadingTrue (lanePreds lanes maxB x mode s w nb).toList

section
variable {lanes maxB : Nat} {x : Nat → Word} {n : Nat} {mode : Mode} {s : Nat} {w : WidthCode}
  {nb k : Nat}

theorem committed_le : committed lanes maxB x mode s w nb ≤ lanes := by
  simpa [committed] using leadingTrue_le (lanePreds lanes maxB x mode s w nb).toList

/-- A lane that commits continues the block within MAX_BLOCK. -/
theorem committed_goes (hk : k < committed lanes maxB x mode s w nb) :
    cont x mode s w (s + nb + k) = true ∧ nb + k < maxB := by
  have pred := getElem_of_lt_leadingTrue hk (by simpa using hk.trans_le committed_le)
  simpa [lanePreds] using pred

/-- The first lane that does not commit fails one of the two. -/
theorem committed_stops (h : committed lanes maxB x mode s w nb < lanes) :
    ¬ (cont x mode s w (s + nb + committed lanes maxB x mode s w nb) = true
      ∧ nb + committed lanes maxB x mode s w nb < maxB) := by
  have pred := getElem_leadingTrue (bs := (lanePreds lanes maxB x mode s w nb).toList)
    (by rw [Vector.length_toList]; exact h)
  simpa [lanePreds, committed] using pred

/-- The lanes of a step that stands before enough elements commit while the block goes on. -/
theorem committed_goesOn (hroom : lanes ≤ n - (s + nb)) {j : Nat} (hlo : nb ≤ j)
    (hhi : j < nb + committed lanes maxB x mode s w nb) : GoesOn maxB x n mode s w j := by
  obtain ⟨k, rfl⟩ := Nat.exists_eq_add_of_le hlo
  have hk : k < committed lanes maxB x mode s w nb := by omega
  have few := hk.trans_le committed_le
  obtain ⟨continues, room⟩ := committed_goes hk
  exact ⟨by omega, room, Nat.add_assoc s nb k ▸ continues⟩

/-- Lane steps and the scalar tail find the end too (R264, R266). -/
theorem extendLanes_endsAt (hlanes : 1 ≤ lanes) (fuel nb : Nat) (hfuel : n ≤ s + nb + fuel) :
    EndsAt (GoesOn maxB x n mode s w) nb (extendLanes lanes maxB x n mode s w fuel nb) := by
  induction fuel generalizing nb with
  | zero => exact .here fun ⟨inside, _⟩ => absurd inside (by omega)
  | succ fuel ih =>
    rw [extendLanes]
    split
    case isFalse full => exact .here fun ⟨inside, room, _⟩ => full ⟨inside, room⟩
    case isTrue =>
    split
    case isTrue hroom =>
      change EndsAt _ _ (if committed lanes maxB x mode s w nb < lanes
        then nb + committed lanes maxB x mode s w nb
        else extendLanes lanes maxB x n mode s w fuel (nb + committed lanes maxB x mode s w nb))
      split
      case isTrue partly =>
        refine ⟨Nat.le_add_right _ _, fun j hlo hhi => committed_goesOn hroom hlo hhi, ?_⟩
        rintro ⟨-, room, continues⟩
        exact committed_stops partly ⟨Nat.add_assoc s nb _ ▸ continues, room⟩
      case isFalse all =>
        exact (ih (nb + committed lanes maxB x mode s w nb) (by omega)).prepend
          (Nat.le_add_right _ _) fun j hlo hhi => committed_goesOn hroom hlo hhi
    case isFalse =>
    split
    case isTrue continues =>
      exact (ih (nb + 1) (by omega)).prepend_one ⟨by omega, by omega, continues⟩
    case isFalse ends => exact .here fun ⟨_, _, continues⟩ => ends continues

/-- R262: both engines find the same size. -/
theorem extendVec_eq (hlanes : 1 ≤ lanes) (maxB : Nat) (x : Nat → Word) (n : Nat) :
    extendVec lanes maxB x n = extendScalar maxB x n := by
  funext mode s w nb
  exact (extendLanes_endsAt hlanes _ nb (by omega)).unique (extendScalar_endsAt nb)

end

/-- Settles O14: the engines differ in the search for a block's size alone. -/
theorem vectorEncoderWritesTheSameBytes : Obligations.VectorEncoderWritesTheSameBytes := by
  intro lanes maxB xs hlanes
  rw [encodeSeqVec, extendVec_eq hlanes, encodeSeqWith]

/-- The vector encoder of this hardware writes encodeSeq. -/
theorem encodeSeqVec_eq (xs : List Word) :
    encodeSeqVec Config.lanes Config.maxBlock xs = encodeSeq xs :=
  vectorEncoderWritesTheSameBytes _ _ xs (by decide)

/-- R275: a block's elements do not depend on the engine. -/
theorem decodeBufVec_eq (lanes : Nat) (bs : List Byte) (cnt : Nat) :
    decodeBufVec lanes bs cnt = decodeBuf bs cnt := by
  have same : (fun prev i => (vecBlockElems lanes prev LaneRegs.reset i).elems) = blockElems := by
    funext prev i
    exact vecBlockElems_elems lanes prev _ i
  rw [decodeBufVec, same, decodeBuf]

/-- Settles O15: the engines differ in how they sum a block's fields alone. -/
theorem vectorDecoderGivesTheSameResult : Obligations.VectorDecoderGivesTheSameResult :=
  fun lanes bs cnt _ => decodeBufVec_eq lanes bs cnt

end Sys2Proof.Proofs

namespace Sys2Proof.Proofs

open Sys2Proof.Machine Sys2Proof.Laws

/-! The encoder's blocks are canonical (R99, R182, R184, R187, R188): each is the block the scan
opens at some index, DELTA.E at index 0 only and DELTA.I never there. -/

/-- A block of the scan from `i` on opens at some index from `i` on. -/
theorem mem_scanFrom {x : Nat → Word} {n blocks i : Nat} {b : Instr}
    (h : b ∈ scanFrom x n blocks i) : ∃ j, i ≤ j ∧ j < n ∧ b = scanBlock x n j := by
  induction blocks generalizing i with
  | zero => exact absurd h List.not_mem_nil
  | succ blocks ih =>
    by_cases hi : i < n
    · rw [scanFrom_succ blocks hi, List.mem_cons] at h
      rcases h with rfl | later
      · exact ⟨i, le_rfl, hi, rfl⟩
      · obtain ⟨j, hj, hjn, rfl⟩ := ih later
        exact ⟨j, by omega, hjn, rfl⟩
    · rw [scanFrom, blocksFrom, if_neg hi] at h
      exact absurd h List.not_mem_nil

theorem head?_scanFrom {x : Nat → Word} {n blocks i : Nat} {b : Instr}
    (h : (scanFrom x n blocks i).head? = some b) : i < n ∧ b = scanBlock x n i := by
  cases blocks with
  | zero => exact absurd h nofun
  | succ blocks =>
    by_cases hi : i < n
    · rw [scanFrom_succ blocks hi] at h
      exact ⟨hi, (Option.some.inj h).symm⟩
    · rw [scanFrom, blocksFrom, if_neg hi] at h
      exact absurd h nofun

/-- A block after the first opens after `i`. -/
theorem mem_tail_scanFrom {x : Nat → Word} {n blocks i : Nat} {b : Instr}
    (h : b ∈ (scanFrom x n blocks i).tail) : ∃ j, i < j ∧ j < n ∧ b = scanBlock x n j := by
  cases blocks with
  | zero => exact absurd h List.not_mem_nil
  | succ blocks =>
    by_cases hi : i < n
    · rw [scanFrom_succ blocks hi, List.tail_cons] at h
      obtain ⟨positive, -⟩ := scanSize_spec (x := x) hi
      obtain ⟨j, hj, hjn, rfl⟩ := mem_scanFrom h
      exact ⟨j, by omega, hjn, rfl⟩
    · rw [scanFrom, blocksFrom, if_neg hi] at h
      exact absurd h List.not_mem_nil

/-- The blocks cover the elements from `i` on once (R187). -/
theorem sum_blockCount_scanFrom (x : Nat → Word) (n blocks : Nat) {i : Nat} (hi : i ≤ n)
    (hblocks : n - i ≤ blocks) : ((scanFrom x n blocks i).map blockCount).sum = n - i := by
  induction blocks generalizing i with
  | zero =>
    obtain rfl : i = n := by omega
    simp [scanFrom_end]
  | succ blocks ih =>
    rcases Nat.eq_or_lt_of_le hi with rfl | hlt
    · simp [scanFrom_end]
    · obtain ⟨positive, ends, _⟩ := scanSize_spec (x := x) hlt
      rw [scanFrom_succ blocks hlt, List.map_cons, List.sum_cons, (scanBlock_covers hlt).count,
        ih ends (by omega)]
      omega

/-- A count is spelled long exactly above SHORT_MAX (R95, R188). -/
theorem spelledLong_emitBlock (x : Nat → Word) (mode : Mode) (s nb : Nat) (w : WidthCode) :
    spelledLong (emitBlock x mode s nb w)
      = decide (Config.shortMax < blockCount (emitBlock x mode s nb w)) := by
  cases mode <;> rfl

/-- A block needs the running reference exactly in the mode DELTA.I. -/
theorem needsReference_emitBlock (x : Nat → Word) (mode : Mode) (s nb : Nat) (w : WidthCode) :
    needsReference (emitBlock x mode s nb w) = decide (mode = .deltaI) := by
  cases mode <;> rfl

/-- The first field of a run is the delta of its first element. -/
theorem head?_foldFields {x : Nat → Word} {j m : Nat} {z : Word}
    (h : (foldFields x j m).head? = some z) : z = foldDelta (x j) (x (j - 1)) := by
  cases m with
  | zero => exact absurd h nofun
  | succ m => exact (Option.some.inj h).symm

/-- A DELTA.E opens at index 0, with the class of its first field (R182, R184). -/
theorem scanBlock_deltaE {x : Nat → Word} {n i : Nat} (hi : i < n) {c : BlockCount}
    {w : WidthCode} {r : Word} {zs : List Word} (h : scanBlock x n i = .deltaE c w r zs) :
    i = 0 ∧ ∀ z, zs.head? = some z → w = wc z := by
  rcases openMode_cases (x := x) hi with mode | ⟨mode, first, -⟩ | ⟨mode, -⟩ <;>
    simp only [scanBlock, mode, emitBlock, reduceCtorEq, Instr.deltaE.injEq] at h
  obtain ⟨-, rfl, -, rfl⟩ := h
  refine ⟨first, fun z hz => ?_⟩
  rw [head?_foldFields hz]
  rfl

/-- A DELTA.I opens with the class of its first field (R184). -/
theorem scanBlock_deltaI {x : Nat → Word} {n i : Nat} {c : BlockCount} {w : WidthCode}
    {zs : List Word} (h : scanBlock x n i = .deltaI c w zs) :
    ∀ z, zs.head? = some z → w = wc z := by
  cases mode : openMode x n i <;>
    simp only [scanBlock, mode, emitBlock, reduceCtorEq, Instr.deltaI.injEq] at h
  obtain ⟨-, rfl, rfl⟩ := h
  intro z hz
  rw [head?_foldFields hz]
  rfl

/-- Settles O10: each clause is one fact about the block that opens at an index. -/
theorem encoderBlocksAreCanonical : Obligations.EncoderBlocksAreCanonical := by
  intro xs blocks
  have opened {i : Instr} (h : i ∈ blocks) :
      ∃ j, j < xs.length ∧ i = scanBlock (elemAt xs) xs.length j := by
    obtain ⟨j, -, hj, rfl⟩ := mem_scanFrom h
    exact ⟨j, hj, rfl⟩
  refine ⟨rfl, ?wellFormed, ?spelling, ?cover, ?first, ?later, ?widthE, ?widthI⟩
  case wellFormed =>
    intro i hi
    obtain ⟨j, hj, rfl⟩ := opened hi
    exact ⟨(scanBlock_covers hj).wf, (scanBlock_covers hj).isBlock⟩
  case spelling =>
    intro i hi
    obtain ⟨j, -, rfl⟩ := opened hi
    exact spelledLong_emitBlock _ _ _ _ _
  case cover => exact sum_blockCount_scanFrom _ _ _ (Nat.zero_le _) le_rfl
  case first =>
    intro i hi
    obtain ⟨some, rfl⟩ := head?_scanFrom hi
    rw [scanBlock, needsReference_emitBlock, decide_eq_false_iff_not]
    rcases openMode_cases (x := elemAt xs) some with mode | ⟨mode, -⟩ | ⟨-, later⟩
    · simp [mode]
    · simp [mode]
    · exact absurd rfl later
  case later =>
    rintro i hi c w r zs rfl
    obtain ⟨j, hpos, hj, hb⟩ := mem_tail_scanFrom hi
    exact hpos.ne' (scanBlock_deltaE hj hb.symm).1
  case widthE =>
    intro c w r zs z hi hz
    obtain ⟨j, hj, hb⟩ := opened hi
    exact (scanBlock_deltaE hj hb.symm).2 z hz
  case widthI =>
    intro c w zs z hi hz
    obtain ⟨j, -, hb⟩ := opened hi
    exact scanBlock_deltaI hb.symm z hz

end Sys2Proof.Proofs

namespace Sys2Proof.Proofs

open Sys2Proof.Machine Sys2Proof.Laws

/-! Which command a word is (R110 to R112), and a buffer's elements: their number, and how they read
back from memory. -/

/-- The decoder of command words gives commands only, those of two operations on the engine that
bit 4 names (R111, R112). -/
theorem decodeCommand_spec {v : Word} {i : Instr} (h : decodeCommand v = .ok i) :
    (∃ e k, i = .maxsize e k) ∨ (∃ k, i = compressOn (decodeEngine v) k)
      ∨ (∃ k, i = decompressOn (decodeEngine v) k) := by
  rw [decodeCommand] at h
  split at h
  · simp at h
  generalize decodeEngine v = eng at h ⊢
  split at h
  · exact .inl ⟨_, _, (Except.ok.inj h).symm⟩
  · exact .inr (.inl ⟨_, (Except.ok.inj h).symm⟩)
  · exact .inr (.inl ⟨_, (Except.ok.inj h).symm⟩)
  · exact .inr (.inr ⟨_, (Except.ok.inj h).symm⟩)
  · exact .inr (.inr ⟨_, (Except.ok.inj h).symm⟩)
  · simp at h

@[simp] theorem opOf_compressOn (e : EngineSel) (k : ElemKind) :
    opOf (compressOn e k) = some .compress := by
  cases e <;> rfl

@[simp] theorem opOf_decompressOn (e : EngineSel) (k : ElemKind) :
    opOf (decompressOn e k) = some .decompress := by
  cases e <;> rfl

theorem latchedOp_of_decode {l : Latches} {i : Instr} (h : decodeCommand l.cmd = .ok i) :
    latchedOp l = opOf i := by
  rw [latchedOp, h]

/-- The decoder gives as many elements as were wanted (R228, R231). -/
theorem decodeLoop_length {fuel want : Nat} {bs : List Byte} {prev : Option Word} {xs : List Word}
    (h : decodeLoop blockElems fuel bs want prev = .ok xs) : xs.length = want := by
  induction fuel generalizing bs want prev xs with
  | zero => exact absurd h nofun
  | succ fuel ih =>
    rw [decodeLoop] at h
    split at h
    · split at h <;> simp_all
    split at h
    · simp at h
    split at h
    · simp at h
    · rename_i i rest block
      split at h
      · simp at h
      split at h
      · simp at h
      · rename_i enough
        have size := blockElems_length (encode_of_decodeBlock block).1 (prev.getD 0#64)
        simp only at h
        split at h
        · simp at h
        · rename_i out later
          have rest := ih later
          obtain rfl : _ ++ out = xs := Except.ok.inj h
          rw [List.length_append, size, rest]
          omega

theorem decodeBuf_length {bs : List Byte} {cnt : Nat} {xs : List Word}
    (h : decodeBuf bs cnt = .ok xs) : xs.length = cnt := by
  rw [decodeBuf, decodeBufWith] at h
  split at h
  · split at h <;> simp_all
  split at h
  · simp at h
  split at h
  · simp at h
  · exact decodeLoop_length h

/-- Elements read back from a range that holds their bytes (R63). -/
theorem readElems_of_readBytes {m : Memory} {a : Nat} {xs : List Word}
    (h : readBytes m a (8 * xs.length) = elemBytes xs) : readElems m a xs.length = xs := by
  induction xs generalizing a with
  | nil => rfl
  | cons x xs ih =>
    have split : elemBytes (x :: xs) = leBytes 8 x.toNat ++ elemBytes xs := rfl
    rw [List.length_cons, Nat.mul_succ, Nat.add_comm, readBytes_append, split] at h
    obtain ⟨head, tail⟩ := List.append_inj h (by simp)
    rw [List.length_cons, readElems, readElem, head, rdWord_leBytes, ih tail]

/-- Elements written are read back (R198, R234). -/
theorem readElems_writeBytes {m : Memory} (hm : m.wf = true) {a : Nat} {xs : List Word}
    (ha : a + 8 * xs.length ≤ Config.addressSpace) :
    readElems (writeBytes m a (elemBytes xs)) a xs.length = xs := by
  have back := readBytes_writeBytes hm (bs := elemBytes xs) (by rwa [elemBytes_length])
  rw [elemBytes_length] at back
  exact readElems_of_readBytes back

end Sys2Proof.Proofs

namespace Sys2Proof.Proofs

open Sys2Proof.Machine Sys2Proof.Laws

/-! The CHECK phase (R180, R212, R221, R297, R326): the outcome of each of its branches, and the
commands whose steps are merged. -/

/-! ## The branches -/

section
variable {s : State}

/-- R297 for MAXSIZE: the limit above which 9n + 7 does not fit 64 bits (R211). -/
theorem argsOk_maxsize_iff {l : Latches} :
    argsOk .maxsize l = true ↔ l.n.toNat ≤ Config.maxsizeLimit :=
  decide_eq_true_iff

theorem compressCheck_of_bad (h : argsOk .compress s.latch = false) (bytes : List Byte)
    (first : Phase) : compressCheck bytes first s = s.raise .badCommand := by
  simp [compressCheck, h]

theorem compressCheck_of_short (h : argsOk .compress s.latch = true)
    (short : s.latch.cap.toNat < maxCompressedSize s.latch.n.toNat) (bytes : List Byte)
    (first : Phase) : compressCheck bytes first s = s.raise .bufferTooSmall := by
  simp [compressCheck, h, short]

theorem decompressCheck_of_bad (h : argsOk .decompress s.latch = false)
    (result : Except ErrCode (List Word)) : decompressCheck result s = s.raise .badCommand := by
  simp [decompressCheck, h]

/-- With every byte admitted no BusError is drawn (R326). -/
theorem drawsBusError_of_admitted {r w : Region} (h : accessesAdmitted s r w = true) :
    drawsBusError s r w = false := by
  simp [drawsBusError, h]

theorem runsAtOnce_of_command {r w : Region} (h : s.grain = .command) :
    runsAtOnce s r w = true := by
  simp [runsAtOnce, h]

/-- A refused byte makes the command one step (log entry 10). -/
theorem runsAtOnce_of_refused {r w : Region} (h : accessesAdmitted s r w = false) :
    runsAtOnce s r w = true := by
  simp [runsAtOnce, h]

/-- A COMPRESS that runs at once and draws no BusError writes its bytes (R180). -/
theorem compressCheck_whole (h : argsOk .compress s.latch = true)
    (room : maxCompressedSize s.latch.n.toNat ≤ s.latch.cap.toNat) {bytes : List Byte}
    (draw : drawsBusError s (readRegion s.latch) ⟨s.latch.dst.toNat, bytes.length⟩ = false)
    (once : runsAtOnce s (readRegion s.latch) ⟨s.latch.dst.toNat, bytes.length⟩ = true)
    (first : Phase) : compressCheck bytes first s
      = completeCompress bytes.length
          { s with mem := writeBytes s.mem s.latch.dst.toNat bytes } := by
  simp [compressCheck, h, Nat.not_lt.mpr room, draw, once]

theorem compressCheck_of_draw (h : argsOk .compress s.latch = true)
    (room : maxCompressedSize s.latch.n.toNat ≤ s.latch.cap.toNat) {bytes : List Byte}
    (draw : drawsBusError s (readRegion s.latch) ⟨s.latch.dst.toNat, bytes.length⟩ = true)
    (first : Phase) : compressCheck bytes first s = s.raiseDirty .busError := by
  simp [compressCheck, h, Nat.not_lt.mpr room, draw]

/-- With its steps merged a COMPRESS has no first phase to go on in. -/
theorem compressCheck_first_irrelevant (h : s.grain = .command) (bytes : List Byte)
    (first first' : Phase) : compressCheck bytes first s = compressCheck bytes first' s := by
  simp [compressCheck, runsAtOnce_of_command h]

/-- A DECOMPRESS that runs at once and draws no BusError writes the elements its buffer decodes to
(R221, R234). -/
theorem decompressCheck_whole_ok (h : argsOk .decompress s.latch = true)
    (draw : drawsBusError s (readRegion s.latch) (errorRegion s.latch) = false)
    (once : runsAtOnce s (readRegion s.latch) (errorRegion s.latch) = true) (xs : List Word) :
    decompressCheck (.ok xs) s
      = completeDecompress
          { s with mem := writeBytes s.mem s.latch.dst.toNat (elemBytes xs) } := by
  simp [decompressCheck, h, draw, once]

/-- Where its buffer does not decode it raises the decoder's error (R235). -/
theorem decompressCheck_whole_error (h : argsOk .decompress s.latch = true)
    (draw : drawsBusError s (readRegion s.latch) (errorRegion s.latch) = false)
    (once : runsAtOnce s (readRegion s.latch) (errorRegion s.latch) = true) (e : ErrCode) :
    decompressCheck (.error e) s = s.raiseDirty e := by
  simp [decompressCheck, h, draw, once]

theorem decompressCheck_of_draw (h : argsOk .decompress s.latch = true)
    (draw : drawsBusError s (readRegion s.latch) (errorRegion s.latch) = true)
    (result : Except ErrCode (List Word)) :
    decompressCheck result s = s.raiseDirty .busError := by
  simp [decompressCheck, h, draw]

/-! ## The commands in CHECK -/

/-- The phase in which an engine's encoder begins (R200, R269). -/
def encoderStart : EngineSel → Phase
  | .scalar => .scan
  | .vector => .vOpen

variable (kind : ElemKind) (h : s.phase = .check)
include h

theorem exec_maxsize_check (eng : EngineSel) : exec (.maxsize eng kind) s
    = .next (if argsOk .maxsize s.latch
        then s.complete (BitVec.ofNat 64 (maxCompressedSize s.latch.n.toNat))
        else s.raise .badCommand) := by
  rw [exec, execMaxsize, if_neg (not_not.mpr h)]
  split <;> rfl

theorem exec_compressS_check : exec (.compressS kind) s
    = .next (compressCheck (encodeSeq (inputElems s)) .scan s) :=
  if_pos h

theorem exec_compressV_check : exec (.compressV kind) s
    = .next (compressCheck (encodeSeq (inputElems s)) .vOpen s) := by
  rw [← encodeSeqVec_eq]
  exact if_pos h

theorem exec_decompressS_check : exec (.decompressS kind) s
    = .next (decompressCheck (decodeBuf (inputBytes s) s.latch.n.toNat) s) :=
  if_pos h

theorem exec_decompressV_check : exec (.decompressV kind) s
    = .next (decompressCheck (decodeBuf (inputBytes s) s.latch.n.toNat) s) := by
  rw [← decodeBufVec_eq Config.lanes]
  exact if_pos h

theorem exec_compressOn_check (eng : EngineSel) : exec (compressOn eng kind) s
    = .next (compressCheck (encodeSeq (inputElems s)) (encoderStart eng) s) := by
  cases eng
  · exact exec_compressS_check kind h
  · exact exec_compressV_check kind h

theorem exec_decompressOn_check (eng : EngineSel) : exec (decompressOn eng kind) s
    = .next (decompressCheck (decodeBuf (inputBytes s) s.latch.n.toNat) s) := by
  cases eng
  · exact exec_decompressS_check kind h
  · exact exec_decompressV_check kind h

/-- In CHECK a latched word that decodes runs (R292). -/
theorem engineStep_check_ok {i : Instr} (hcmd : decodeCommand s.latch.cmd = .ok i) :
    engineStep s = exec i s := by
  rw [engineStep_check h, stepCommand, hcmd]

end

/-- Settles O17: 9n + 7 fits 64 bits exactly up to the limit. -/
theorem maxsizeGivesTheBound : Obligations.MaxsizeGivesTheBound := by
  intro eng kind s h
  rw [exec_maxsize_check kind h]
  refine ⟨fun fits => ⟨?_, ?_⟩, fun above => ?_⟩
  · rw [if_pos (argsOk_maxsize_iff.mpr fits)]
    rfl
  · rw [BitVec.toNat_ofNat]
    omega
  · rw [if_neg fun ok => Nat.not_le.mpr above (argsOk_maxsize_iff.mp ok)]
    rfl

/-- Settles O18: each check is one comparison on numbers. -/
theorem argumentChecks : Obligations.ArgumentChecks := by
  intro l
  have top : Config.addressSpace = 2 ^ 64 := rfl
  have limit : Config.maxsizeLimit = 2049638230412172400 := rfl
  refine ⟨?_, ?_, ?_⟩ <;>
    simp only [argsOk, Region.overlaps, Bool.and_eq_false_iff, decide_eq_false_iff_not,
      Bool.not_eq_false', Bool.and_eq_true, decide_eq_true_eq] <;>
    omega

/-- Settles O19: a failed check raises its error, and nothing comes before it. -/
theorem checksComeBeforeAnyAccess : Obligations.ChecksComeBeforeAnyAccess := by
  intro kind s h
  refine ⟨?compress, ?decompress⟩
  case compress =>
    rintro i (rfl | rfl)
    · rw [exec_compressS_check kind h]
      exact ⟨fun bad => by rw [compressCheck_of_bad bad, State.raise],
        fun ok short => by rw [compressCheck_of_short ok short, State.raise]⟩
    · rw [exec_compressV_check kind h]
      exact ⟨fun bad => by rw [compressCheck_of_bad bad, State.raise],
        fun ok short => by rw [compressCheck_of_short ok short, State.raise]⟩
  case decompress =>
    rintro i (rfl | rfl) bad
    · rw [exec_decompressS_check kind h, decompressCheck_of_bad bad, State.raise]
    · rw [exec_decompressV_check kind h, decompressCheck_of_bad bad, State.raise]

/-- Settles O22: with the steps merged the engines write the same bytes and elements. -/
theorem enginesAgreeOnWholeCommands : Obligations.EnginesAgreeOnWholeCommands := by
  intro k k' s h grain
  rw [exec_compressV_check k h, exec_compressS_check k' h, exec_decompressV_check k h,
    exec_decompressS_check k' h, compressCheck_first_irrelevant grain _ .vOpen .scan]
  exact ⟨rfl, rfl⟩

/-! ## Whole commands -/

theorem encodeSeq_length_le (xs : List Word) :
    (encodeSeq xs).length ≤ maxCompressedSize xs.length :=
  encoderOutputIsBounded.1 xs

/-- The output of a COMPRESS whose checks passed lies below 2^64 (R194, R297). -/
theorem output_below_top {s : State} (h : argsOk .compress s.latch = true)
    (room : maxCompressedSize s.latch.n.toNat ≤ s.latch.cap.toNat) :
    s.latch.dst.toNat + (encodeSeq (inputElems s)).length ≤ Config.addressSpace := by
  obtain ⟨-, -, top, -⟩ := argsOk_compress h
  have bound := encodeSeq_length_le (inputElems s)
  rw [inputElems, readElems_length] at bound
  rw [inputElems]
  omega

/-- Settles O20: the whole run of a COMPRESS whose bytes are all admitted. -/
theorem compressScalarWritesEncodeSeq : Obligations.CompressScalarWritesEncodeSeq := by
  intro kind s bytes dst h grain ok room admitted
  refine ⟨?_, fun hm => ⟨readBytes_writeBytes hm (output_below_top ok room),
    fun a outside => readByte_writeBytes_outside hm outside⟩⟩
  rw [exec_compressS_check kind h, inputElems, compressCheck_whole ok room
    (drawsBusError_of_admitted admitted) (runsAtOnce_of_command grain)]
  rfl

/-- Settles O21: as O20, with the vector encoder's bytes. -/
theorem compressVectorWritesItsBytes : Obligations.CompressVectorWritesItsBytes := by
  intro kind s bytes dst h grain ok room admitted
  have same : bytes = encodeSeq (readElems s.mem s.latch.src.toNat s.latch.n.toNat) :=
    encodeSeqVec_eq _
  refine ⟨?_, fun hm a outside => readByte_writeBytes_outside hm outside⟩
  rw [same] at admitted ⊢
  rw [exec_compressV_check kind h, inputElems, compressCheck_whole ok room
    (drawsBusError_of_admitted admitted) (runsAtOnce_of_command grain)]
  rfl

/-- Elements written at dst leave every address outside [dst, dst + 8n) alone (R232). -/
theorem readByte_writeElems_outside {m : Memory} (hm : m.wf = true) {dst n a : Nat}
    {xs : List Word} (hlen : xs.length = n) (h : a < dst ∨ dst + 8 * n ≤ a) :
    readByte (writeBytes m dst (elemBytes xs)) a = readByte m a :=
  readByte_writeBytes_outside hm (by rwa [elemBytes_length, hlen])

/-- Settles O25: the whole run of a DECOMPRESS whose buffer decodes. -/
theorem decompressScalarWritesDecodeBuf : Obligations.DecompressScalarWritesDecodeBuf := by
  intro kind s xs dst h grain ok admitted decoded
  have length := decodeBuf_length decoded
  obtain ⟨-, top, -⟩ := argsOk_decompress ok
  refine ⟨?_, fun hm => ⟨?_, fun a outside => readByte_writeElems_outside hm length outside⟩⟩
  · rw [exec_decompressS_check kind h, inputBytes, decoded, decompressCheck_whole_ok ok
      (drawsBusError_of_admitted admitted) (runsAtOnce_of_command grain)]
    rfl
  · rw [← length] at top ⊢
    exact readElems_writeBytes hm top

/-- Settles O26: as O25, with the vector decoder's elements. -/
theorem decompressVectorWritesItsElements : Obligations.DecompressVectorWritesItsElements := by
  intro kind s xs dst h grain ok admitted decoded
  rw [decodeBufVec_eq] at decoded
  have length := decodeBuf_length decoded
  refine ⟨?_, fun hm a outside => readByte_writeElems_outside hm length outside⟩
  rw [exec_decompressV_check kind h, inputBytes, decoded, decompressCheck_whole_ok ok
    (drawsBusError_of_admitted admitted) (runsAtOnce_of_command grain)]
  rfl

/-- After an error every byte outside a region that is the command's error region is as before. -/
theorem raiseDirty_outside {s : State} (hm : s.mem.wf = true) (e : ErrCode) {base len a : Nat}
    (region : errorRegion s.latch = ⟨base, len⟩) (h : a < base ∨ base + len ≤ a) :
    readByte (s.raiseDirty e).mem a = readByte s.mem a := by
  refine raiseDirty_memory hm e ?_
  rw [region, Region.contains]
  simp only [Bool.and_eq_false_iff, decide_eq_false_iff_not]
  omega

/-- Settles O27: both engines raise the decoder's error. -/
theorem decompressReportsTheDecodersError : Obligations.DecompressReportsTheDecodersError := by
  intro kind s e hm h grain ok admitted decoded hcmd
  have op : latchedOp s.latch = some .decompress := by
    rcases hcmd with hcmd | hcmd <;> exact latchedOp_of_decode hcmd
  have raised : decompressCheck (decodeBuf (inputBytes s) s.latch.n.toNat) s = s.raiseDirty e := by
    rw [inputBytes, decoded, decompressCheck_whole_error ok
      (drawsBusError_of_admitted admitted) (runsAtOnce_of_command grain)]
  have step : engineStep s = .next (s.raiseDirty e) := by
    rcases hcmd with hcmd | hcmd <;> rw [engineStep_check_ok h hcmd]
    · rw [exec_decompressS_check kind h, raised]
    · rw [exec_decompressV_check kind h, raised]
  exact ⟨_, step, rfl, fun a => raiseDirty_outside hm e (errorRegion_decompress op ok)⟩

/-- Settles O28: a draw of BusError, or the whole run. -/
theorem commandsOnRefusedBytes : Obligations.CommandsOnRefusedBytes := by
  intro kind s dst n hm h
  refine ⟨?compress, ?decompress⟩
  case compress =>
    rintro bytes rfl hcmd ok room refused
    refine ⟨_, exec_compressS_check kind h, ?_⟩
    rw [inputElems]
    cases draw : drawsBusError s (readRegion s.latch)
      ⟨s.latch.dst.toNat, (encodeSeq (readElems s.mem s.latch.src.toNat n)).length⟩ with
    | false =>
      rw [compressCheck_whole ok room draw (runsAtOnce_of_refused refused)]
      exact ⟨rfl, rfl, .inl ⟨rfl, rfl, rfl⟩⟩
    | true =>
      rw [compressCheck_of_draw ok room draw]
      have region := errorRegion_compress (latchedOp_of_decode hcmd) ok room
      exact ⟨rfl, rfl, .inr ⟨rfl, rfl, fun a => raiseDirty_outside hm _ region⟩⟩
  case decompress =>
    intro hcmd ok refused
    have region := errorRegion_decompress (latchedOp_of_decode hcmd) ok
    refine ⟨_, exec_decompressS_check kind h, ?_⟩
    rw [inputBytes]
    cases draw : drawsBusError s (readRegion s.latch) (errorRegion s.latch) with
    | true =>
      rw [decompressCheck_of_draw ok draw]
      exact ⟨rfl, rfl, .inr ⟨.inl rfl, rfl, fun a => raiseDirty_outside hm _ region⟩⟩
    | false =>
      cases decoded : decodeBuf (readBytes s.mem s.latch.src.toNat s.latch.srcLen.toNat) n with
      | ok xs =>
        rw [decompressCheck_whole_ok ok draw (runsAtOnce_of_refused refused)]
        exact ⟨rfl, rfl, .inl ⟨xs, rfl, rfl, rfl, rfl⟩⟩
      | error e =>
        rw [decompressCheck_whole_error ok draw (runsAtOnce_of_refused refused)]
        exact ⟨rfl, rfl, .inr ⟨.inr rfl, rfl, fun a => raiseDirty_outside hm _ region⟩⟩

/-! ## What a report depends on (R72, R197, R238) -/

/-- With the bytes given, what COMPRESS reports does not depend on memory. -/
theorem compressCheck_report_mem (bytes : List Byte) (first : Phase) (s : State) (m : Memory) :
    (compressCheck bytes first { s with mem := m }).err = (compressCheck bytes first s).err
      ∧ (compressCheck bytes first { s with mem := m }).result
        = (compressCheck bytes first s).result := by
  have draw (r w : Region) : drawsBusError { s with mem := m } r w = drawsBusError s r w := rfl
  have once (r w : Region) : runsAtOnce { s with mem := m } r w = runsAtOnce s r w := rfl
  simp only [compressCheck, draw, once]
  split_ifs <;> exact ⟨rfl, rfl⟩

/-- With the elements given, neither does what DECOMPRESS reports. -/
theorem decompressCheck_report_mem (result : Except ErrCode (List Word)) (s : State) (m : Memory) :
    (decompressCheck result { s with mem := m }).err = (decompressCheck result s).err
      ∧ (decompressCheck result { s with mem := m }).result
        = (decompressCheck result s).result := by
  have draw (r w : Region) : drawsBusError { s with mem := m } r w = drawsBusError s r w := rfl
  have once (r w : Region) : runsAtOnce { s with mem := m } r w = runsAtOnce s r w := rfl
  cases result <;> simp only [decompressCheck, draw, once] <;> split_ifs <;> exact ⟨rfl, rfl⟩

section
variable {s : State} {m : Memory}

/-- The read region of a COMPRESS whose arguments passed holds its input (R71). -/
theorem inputElems_congr (op : latchedOp s.latch = some .compress)
    (ok : argsOk .compress s.latch = true)
    (same : ∀ a, (readRegion s.latch).contains a = true → readByte m a = readByte s.mem a) :
    inputElems { s with mem := m } = inputElems s := by
  obtain ⟨-, top, -⟩ := argsOk_compress ok
  refine readElems_congr fun a hlo hhi => same a ?_
  simp only [readRegion, op, Region.cut, Region.contains, Bool.and_eq_true, decide_eq_true_eq]
  dsimp only at hlo hhi
  omega

/-- The read region of a DECOMPRESS whose arguments passed holds its buffer (R71). -/
theorem inputBytes_congr (op : latchedOp s.latch = some .decompress)
    (ok : argsOk .decompress s.latch = true)
    (same : ∀ a, (readRegion s.latch).contains a = true → readByte m a = readByte s.mem a) :
    inputBytes { s with mem := m } = inputBytes s := by
  obtain ⟨-, -, top, -⟩ := argsOk_decompress ok
  refine readBytes_congr fun a hlo hhi => same a ?_
  simp only [readRegion, op, Region.cut, Region.contains, Bool.and_eq_true, decide_eq_true_eq]
  dsimp only at hlo hhi
  omega

theorem compressCheck_report_congr (op : latchedOp s.latch = some .compress)
    (same : ∀ a, (readRegion s.latch).contains a = true → readByte m a = readByte s.mem a)
    (first : Phase) :
    let t := compressCheck (encodeSeq (inputElems s)) first s
    let u := compressCheck (encodeSeq (inputElems { s with mem := m })) first { s with mem := m }
    t.err = u.err ∧ t.result = u.result := by
  dsimp only
  cases ok : argsOk .compress s.latch with
  | false =>
    rw [compressCheck_of_bad ok, compressCheck_of_bad (s := { s with mem := m }) ok]
    exact ⟨rfl, rfl⟩
  | true =>
    obtain ⟨err, result⟩ := compressCheck_report_mem (encodeSeq (inputElems s)) first s m
    rw [inputElems_congr op ok same]
    exact ⟨err.symm, result.symm⟩

theorem decompressCheck_report_congr (op : latchedOp s.latch = some .decompress)
    (same : ∀ a, (readRegion s.latch).contains a = true → readByte m a = readByte s.mem a) :
    let t := decompressCheck (decodeBuf (inputBytes s) s.latch.n.toNat) s
    let u := decompressCheck (decodeBuf (inputBytes { s with mem := m }) s.latch.n.toNat)
      { s with mem := m }
    t.err = u.err ∧ t.result = u.result := by
  dsimp only
  cases ok : argsOk .decompress s.latch with
  | false =>
    rw [decompressCheck_of_bad ok, decompressCheck_of_bad (s := { s with mem := m }) ok]
    exact ⟨rfl, rfl⟩
  | true =>
    obtain ⟨err, result⟩ :=
      decompressCheck_report_mem (decodeBuf (inputBytes s) s.latch.n.toNat) s m
    rw [inputBytes_congr op ok same]
    exact ⟨err.symm, result.symm⟩

end

/-- An answer of a meaning is its one outcome. -/
theorem next_inj {i : Instr} {s t u : State} (h : exec i s = .next u) (ht : exec i s = .next t) :
    t = u :=
  Host.Outcome.next.inj (ht.symm.trans h)

/-- Settles O52: MAXSIZE reads no memory, and the others read their region only. -/
theorem resultDependsOnTheReadRegionAlone : Obligations.ResultDependsOnTheReadRegionAlone := by
  intro i s t u m hcmd h _ same ht hu
  have op := latchedOp_of_decode hcmd
  have h' : State.phase { s with mem := m } = .check := h
  rcases decodeCommand_spec hcmd with ⟨e, k, rfl⟩ | ⟨k, rfl⟩ | ⟨k, rfl⟩
  · rw [next_inj (exec_maxsize_check k h e) ht, next_inj (exec_maxsize_check k h' e) hu]
    dsimp only
    split_ifs <;> exact ⟨rfl, rfl⟩
  · rw [opOf_compressOn] at op
    rw [next_inj (exec_compressOn_check k h _) ht, next_inj (exec_compressOn_check k h' _) hu]
    exact compressCheck_report_congr op same _
  · rw [opOf_decompressOn] at op
    rw [next_inj (exec_decompressOn_check k h _) ht, next_inj (exec_decompressOn_check k h' _) hu]
    exact decompressCheck_report_congr op same

end Sys2Proof.Proofs

namespace Sys2Proof.Proofs

open Sys2Proof.Machine Sys2Proof.Laws

/-! Everything one step of the engine can do (R32, R200, R237, R269, R276), in the phase and for the
command it does it for. The invariants below are read off these events. -/

/-- The phase in which an engine's encoder writes the footer (R200, R269). -/
def encoderEnd : EngineSel → Phase
  | .scalar => .encFooter
  | .vector => .vFoot

/-- The phase in which an engine's decoder takes one element (R237, R276). -/
def elementPhase : EngineSel → Phase
  | .scalar => .elem
  | .vector => .dTail

/-- The steps of an engine that is not IDLE. -/
inductive EngineEvent (s : State) : State → Prop
  | badCommand : EngineEvent s (s.raise .badCommand)
  | maxsize : EngineEvent s (s.complete (BitVec.ofNat 64 (maxCompressedSize s.latch.n.toNat)))
  | compressCheck (eng : EngineSel) (kind : ElemKind) (phase : s.phase = .check)
      (cmd : decodeCommand s.latch.cmd = .ok (compressOn eng kind)) :
      EngineEvent s (compressCheck (encodeSeq (inputElems s)) (encoderStart eng) s)
  | scan (kind : ElemKind) (phase : s.phase = .scan)
      (cmd : decodeCommand s.latch.cmd = .ok (.compressS kind)) : EngineEvent s (scanStep s)
  | vecOpen (kind : ElemKind) (phase : s.phase = .vOpen)
      (cmd : decodeCommand s.latch.cmd = .ok (.compressV kind)) : EngineEvent s (vecOpenStep s)
  | vecLane (kind : ElemKind) (phase : s.phase = .vLane)
      (cmd : decodeCommand s.latch.cmd = .ok (.compressV kind)) : EngineEvent s (vecLaneStep s)
  | vecTail (kind : ElemKind) (phase : s.phase = .vTail)
      (cmd : decodeCommand s.latch.cmd = .ok (.compressV kind)) : EngineEvent s (vecTailStep s)
  | vecEmit (kind : ElemKind) (phase : s.phase = .vEmit)
      (cmd : decodeCommand s.latch.cmd = .ok (.compressV kind)) : EngineEvent s (vecEmitStep s)
  | closeStream (eng : EngineSel) (kind : ElemKind) (phase : s.phase = encoderEnd eng)
      (cmd : decodeCommand s.latch.cmd = .ok (compressOn eng kind)) : EngineEvent s (closeStream s)
  | decompressCheck (eng : EngineSel) (kind : ElemKind) (phase : s.phase = .check)
      (cmd : decodeCommand s.latch.cmd = .ok (decompressOn eng kind)) :
      EngineEvent s (decompressCheck (decodeBuf (inputBytes s) s.latch.n.toNat) s)
  | shortBuffer (phase : s.phase = .mark) : EngineEvent s (shortBuffer s)
  | streamError (e : ErrCode) (phase : s.phase = .mark ∨ s.phase = .hdr) (failed : e ≠ .none) :
      EngineEvent s (s.raiseDirty e)
  | openRegion (phase : s.phase = .mark) (long : Config.footerBytes ≤ s.latch.srcLen.toNat) :
      EngineEvent s { s with phase := .hdr, dec := { s.dec with endOff := footerOffset s.latch } }
  | block (i : Instr) (rest : List Byte) (phase : s.phase = .hdr)
      (decoded : decodeBlock (blockBytesAt s) = .ok (i, rest)) (passed : blockError i s = none) :
      EngineEvent s (runBlock i s)
  | header (eng : EngineSel) (kind : ElemKind) (phase : s.phase = .hdr)
      (cmd : decodeCommand s.latch.cmd = .ok (decompressOn eng kind)) : EngineEvent s (headerStep s)
  | element (eng : EngineSel) (kind : ElemKind) (phase : s.phase = elementPhase eng)
      (cmd : decodeCommand s.latch.cmd = .ok (decompressOn eng kind)) : EngineEvent s (elemStep s)
  | lane (kind : ElemKind) (phase : s.phase = .dLane)
      (cmd : decodeCommand s.latch.cmd = .ok (.decompressV kind)) : EngineEvent s (laneStep s)
  | finish (eng : EngineSel) (kind : ElemKind) (phase : s.phase = .fin)
      (cmd : decodeCommand s.latch.cmd = .ok (decompressOn eng kind)) : EngineEvent s (finishStep s)

/-! ## Errors of the stream -/

theorem rejectCode_ne_none (hasPrev : Bool) (r : Reject) : rejectCode hasPrev r ≠ .none := by
  unfold rejectCode
  repeat' split
  all_goals decide

theorem blockError_ne_none {i : Instr} {s : State} {e : ErrCode} (h : blockError i s = some e) :
    e ≠ .none := by
  rintro rfl
  rw [blockError] at h
  split_ifs at h <;> simp_all

/-- The decoder of the footer gives a footer only. -/
theorem decodeFooter_ok {bs : List Byte} {i : Instr} (h : decodeFooter bs = .ok i) :
    i = .footer := by
  unfold decodeFooter at h
  repeat' split at h
  all_goals simp_all

/-! ## The events of a step -/

section
variable {s t : State}

theorem event_of_footer (h : exec .footer s = .next t) : EngineEvent s t := by
  obtain ⟨mark, ⟨-, rfl⟩ | ⟨-, rfl⟩ | ⟨long, rfl⟩⟩ := execFooter_cases h
  · exact .shortBuffer mark
  · exact .streamError _ (.inl mark) (by decide)
  · exact .openRegion mark long

theorem event_of_block {i : Instr} {rest : List Byte}
    (decoded : decodeBlock (blockBytesAt s) = .ok (i, rest)) (h : exec i s = .next t) :
    EngineEvent s t := by
  rw [exec_block (encode_of_decodeBlock decoded).2.1] at h
  obtain ⟨hdr, ⟨e, failed, rfl⟩ | ⟨passed, rfl⟩⟩ := execBlock_cases h
  · exact .streamError e (.inr hdr) (blockError_ne_none failed)
  · exact .block i rest hdr decoded passed

theorem event_of_compress {eng : EngineSel} {kind : ElemKind}
    (cmd : decodeCommand s.latch.cmd = .ok (compressOn eng kind))
    (h : exec (compressOn eng kind) s = .next t) : EngineEvent s t := by
  cases eng with
  | scalar =>
    rcases execCompressS_cases (k := kind) h with ⟨phase, rfl⟩ | ⟨phase, rfl⟩ | ⟨phase, rfl⟩
    · exact .compressCheck .scalar kind phase cmd
    · exact .scan kind phase cmd
    · exact .closeStream .scalar kind phase cmd
  | vector =>
    rcases execCompressV_cases (k := kind) h with ⟨phase, rfl⟩ | ⟨phase, rfl⟩ | ⟨phase, rfl⟩
      | ⟨phase, rfl⟩ | ⟨phase, rfl⟩ | ⟨phase, rfl⟩
    · rw [encodeSeqVec_eq]
      exact .compressCheck .vector kind phase cmd
    · exact .vecOpen kind phase cmd
    · exact .vecLane kind phase cmd
    · exact .vecTail kind phase cmd
    · exact .vecEmit kind phase cmd
    · exact .closeStream .vector kind phase cmd

theorem event_of_decompress {eng : EngineSel} {kind : ElemKind}
    (cmd : decodeCommand s.latch.cmd = .ok (decompressOn eng kind))
    (h : exec (decompressOn eng kind) s = .next t) : EngineEvent s t := by
  cases eng with
  | scalar =>
    rcases execDecompressS_cases (k := kind) h with ⟨phase, rfl⟩ | ⟨phase, rfl⟩ | ⟨phase, rfl⟩
      | ⟨phase, rfl⟩
    · exact .decompressCheck .scalar kind phase cmd
    · exact .header .scalar kind phase cmd
    · exact .element .scalar kind phase cmd
    · exact .finish .scalar kind phase cmd
  | vector =>
    rcases execDecompressV_cases (k := kind) h with ⟨phase, rfl⟩ | ⟨phase, rfl⟩ | ⟨phase, rfl⟩
      | ⟨phase, rfl⟩ | ⟨phase, rfl⟩
    · rw [decodeBufVec_eq]
      exact .decompressCheck .vector kind phase cmd
    · exact .header .vector kind phase cmd
    · exact .lane kind phase cmd
    · exact .element .vector kind phase cmd
    · exact .finish .vector kind phase cmd

theorem event_of_command {i : Instr} (cmd : decodeCommand s.latch.cmd = .ok i)
    (h : exec i s = .next t) : EngineEvent s t := by
  rcases decodeCommand_spec cmd with ⟨e, k, rfl⟩ | ⟨k, rfl⟩ | ⟨k, rfl⟩
  · obtain ⟨-, ⟨-, rfl⟩ | ⟨-, rfl⟩⟩ := execMaxsize_cases (e := e) (k := k) h
    · exact .maxsize
    · exact .badCommand
  · exact event_of_compress cmd h
  · exact event_of_decompress cmd h

/-- Every step of a busy engine is one of the events. -/
theorem engineStep_event (busy : s.phase ≠ .idle) (h : engineStep s = .next t) :
    EngineEvent s t := by
  rcases engineStep_cases h with ⟨idle, -⟩ | ⟨mark, -, rfl⟩ | ⟨mark, -, r, -, rfl⟩
    | ⟨-, -, i, footer, h⟩ | ⟨atHdr, r, -, rfl⟩ | ⟨-, i, rest, decoded, h⟩ | ⟨-, -, -, r, -, rfl⟩
    | ⟨-, -, -, i, cmd, h⟩
  · exact absurd idle busy
  · exact .shortBuffer mark
  · exact .streamError _ (.inl mark) (rejectCode_ne_none _ r)
  · obtain rfl := decodeFooter_ok footer
    exact event_of_footer h
  · have hdr : s.phase = .hdr := by
      simp only [atBlock, Bool.and_eq_true, decide_eq_true_eq, and_assoc] at atHdr
      exact atHdr.1
    exact .streamError _ (.inr hdr) (rejectCode_ne_none _ r)
  · exact event_of_block decoded h
  · exact .badCommand
  · exact event_of_command cmd h

/-- An idle engine takes no step (R347). -/
theorem engineStep_idle (idle : s.phase = .idle) (h : engineStep s = .next t) : t = s := by
  rw [engineStep, if_pos idle] at h
  exact (Host.Outcome.next.inj h).symm

theorem busy_iff : s.busy = true ↔ s.phase ≠ .idle :=
  decide_eq_true_iff

theorem busy_eq_false_iff : s.busy = false ↔ s.phase = .idle := by
  rw [State.busy, decide_eq_false_iff_not, not_not]

end

end Sys2Proof.Proofs

namespace Sys2Proof.Proofs

open Sys2Proof.Machine Sys2Proof.Laws

/-! What a step of the engine leaves of the state (R33, R38, R298, R335): it goes on, with the
engine's own registers and memory changed, or it ends the command with its one completion record. -/

/-- What a step of a running command leaves. -/
inductive EngineMove (s : State) : State → Prop
  /-- It goes on: only the phase, the engine's registers and memory may change. -/
  | runs (ph : Phase) (e : EncRegs) (d : DecRegs) (l : LaneRegs) (m : Memory) (busy : ph ≠ .idle) :
      EngineMove s { s with phase := ph, enc := e, dec := d, lanes := l, mem := m }
  /-- It ends: DONE is set, ERR and RESULT are written, the record of written ranges may grow. -/
  | ends (err : ErrCode) (result : Word) (e : EncRegs) (m : Memory) (st : List Region)
      (record : err ≠ .none → result = 0#64) :
      EngineMove s { s with
        phase := .idle, done := true, err := err, result := result, enc := e, mem := m
        stale := st }

namespace EngineMove

variable {s t : State}

theorem raise (e : ErrCode) (s : State) : EngineMove s (s.raise e) :=
  .ends e 0#64 s.enc s.mem s.stale fun _ => rfl

theorem raiseDirty (e : ErrCode) (s : State) : EngineMove s (s.raiseDirty e) :=
  .ends e 0#64 s.enc _ _ fun _ => rfl

theorem complete (v : Word) (s : State) : EngineMove s (s.complete v) :=
  .ends .none v s.enc s.mem s.stale nofun

theorem shortBuffer (s : State) : EngineMove s (shortBuffer s) := by
  rcases shortBuffer_cases s with ⟨-, -, h⟩ | ⟨-, -, h⟩ | ⟨-, h⟩ <;> rw [h]
  · exact .ends .none 0#64 s.enc s.mem _ nofun
  · exact raiseDirty _ s
  · exact raiseDirty _ s

theorem compressCheck (bytes : List Byte) {first : Phase} (busy : first ≠ .idle) (s : State) :
    EngineMove s (compressCheck bytes first s) := by
  rcases compressCheck_cases bytes first s with ⟨-, h⟩ | ⟨-, -, h⟩ | ⟨-, -, -, h⟩ | ⟨-, -, -, h⟩
    | ⟨-, -, -, -, h⟩ <;> rw [h]
  · exact raise _ s
  · exact raise _ s
  · exact raiseDirty _ s
  · exact .ends .none _ s.enc _ _ nofun
  · exact .runs first s.enc s.dec s.lanes s.mem busy

theorem decompressCheck (result : Except ErrCode (List Word)) (s : State) :
    EngineMove s (decompressCheck result s) := by
  rcases decompressCheck_cases result s with ⟨-, h⟩ | ⟨-, -, h⟩ | ⟨-, -, xs, -, h⟩
    | ⟨-, -, e, -, h⟩ | ⟨-, -, -, h⟩ <;> rw [h]
  · exact raise _ s
  · exact raiseDirty _ s
  · exact .ends .none _ s.enc _ _ nofun
  · exact raiseDirty e s
  · exact .runs .mark s.enc s.dec s.lanes s.mem nofun

theorem closeStream (s : State) : EngineMove s (closeStream s) :=
  .ends .none _ _ _ _ nofun

theorem scanStep (h : s.phase = .scan) : EngineMove s (scanStep s) := by
  rw [Machine.scanStep]
  have busy : s.phase ≠ .idle := by rw [h]; exact nofun
  split_ifs
  · exact .runs s.phase _ s.dec s.lanes s.mem busy
  · exact .runs s.phase _ s.dec s.lanes _ busy
  · exact .runs s.phase _ s.dec s.lanes s.mem busy
  · exact .runs .encFooter s.enc s.dec s.lanes s.mem nofun

theorem growPhase_ne_idle (n : Nat) (e : EncRegs) : growPhase n e ≠ .idle := by
  rw [growPhase]
  split_ifs <;> exact nofun

theorem vecOpenStep (s : State) : EngineMove s (vecOpenStep s) := by
  rw [Machine.vecOpenStep]
  split
  · exact .runs _ _ s.dec s.lanes s.mem (growPhase_ne_idle _ _)
  · exact .runs .vFoot s.enc s.dec s.lanes s.mem nofun

theorem vecLaneStep (s : State) : EngineMove s (vecLaneStep s) := by
  refine .runs _ _ s.dec _ s.mem ?_
  split
  · exact nofun
  · exact growPhase_ne_idle _ _

theorem vecTailStep (s : State) : EngineMove s (vecTailStep s) := by
  rw [Machine.vecTailStep]
  split
  · refine .runs _ _ s.dec s.lanes s.mem ?_
    split <;> exact nofun
  · exact .runs .vEmit s.enc s.dec s.lanes s.mem nofun

theorem vecEmitStep (s : State) : EngineMove s (vecEmitStep s) :=
  .runs .vOpen _ s.dec s.lanes _ nofun

theorem bodyPhase_ne_idle (eng : EngineSel) (d : DecRegs) : bodyPhase eng d ≠ .idle := by
  unfold bodyPhase
  repeat' split
  all_goals exact nofun

/-- After elements of a block the decoder goes on, whatever those elements did to its registers. -/
theorem settleBlock (d : DecRegs) (l : LaneRegs) (m : Memory) (s : State) :
    EngineMove s (settleBlock { s with dec := d, lanes := l, mem := m }) := by
  rw [Machine.settleBlock]
  split
  · exact .runs .hdr s.enc _ l m nofun
  · exact .runs _ s.enc d l m (bodyPhase_ne_idle _ _)

theorem elemStep (s : State) : EngineMove s (elemStep s) := by
  rw [Machine.elemStep]
  dsimp only
  split
  · exact settleBlock _ s.lanes _ s
  · split
    · exact settleBlock _ s.lanes _ s
    · exact settleBlock _ s.lanes _ s
  · exact settleBlock _ s.lanes _ s

theorem laneStep (s : State) : EngineMove s (laneStep s) := by
  rw [Machine.laneStep]
  split
  · exact settleBlock _ _ _ s
  · exact settleBlock _ _ _ s
  · exact settleBlock _ _ _ s

theorem headerStep (s : State) : EngineMove s (headerStep s) := by
  rw [Machine.headerStep]
  split
  · exact .runs .fin s.enc s.dec s.lanes s.mem nofun
  split
  · exact raiseDirty _ s
  split
  · exact raiseDirty _ s
  · exact .runs _ s.enc _ s.lanes s.mem (bodyPhase_ne_idle _ _)

theorem finishStep (s : State) : EngineMove s (finishStep s) := by
  rw [Machine.finishStep]
  split
  · exact .ends .none _ s.enc s.mem _ nofun
  · exact raiseDirty _ s

theorem runBlock (i : Instr) (h : s.phase = .hdr) : EngineMove s (runBlock i s) := by
  rw [Machine.runBlock]
  have busy : s.phase ≠ .idle := by rw [h]; exact nofun
  split
  · exact .runs s.phase s.enc _ s.lanes _ busy
  · exact .runs s.phase s.enc _ _ _ busy

theorem openRegion (s : State) : EngineMove s
    { s with phase := .hdr, dec := { s.dec with endOff := footerOffset s.latch } } :=
  .runs .hdr s.enc _ s.lanes s.mem nofun

theorem encoderStart_ne_idle (eng : EngineSel) : encoderStart eng ≠ .idle := by
  cases eng <;> decide

theorem of_event (h : EngineEvent s t) : EngineMove s t := by
  cases h with
  | badCommand => exact raise _ s
  | maxsize => exact complete _ s
  | compressCheck eng => exact compressCheck _ (encoderStart_ne_idle eng) s
  | scan kind phase => exact scanStep phase
  | vecOpen => exact vecOpenStep s
  | vecLane => exact vecLaneStep s
  | vecTail => exact vecTailStep s
  | vecEmit => exact vecEmitStep s
  | closeStream => exact closeStream s
  | decompressCheck => exact decompressCheck _ s
  | shortBuffer => exact shortBuffer s
  | streamError e => exact raiseDirty e s
  | openRegion => exact openRegion s
  | block i rest phase => exact runBlock i phase
  | header => exact headerStep s
  | element => exact elemStep s
  | lane => exact laneStep s
  | finish => exact finishStep s

end EngineMove

/-- Settles O45: the fields of the two moves. -/
theorem engineWritesOnlyTheCompletionRecord : Obligations.EngineWritesOnlyTheCompletionRecord := by
  intro s t h
  by_cases idle : s.phase = .idle
  · obtain rfl := engineStep_idle idle h
    refine ⟨?_, fun busy still => ?_, fun _ => ⟨rfl, rfl, rfl⟩⟩
    · exact ⟨rfl, rfl, rfl, rfl, rfl, rfl, rfl, rfl, rfl, rfl, rfl, rfl, rfl⟩
    · exact absurd busy (Bool.eq_false_iff.mp still)
  · cases EngineMove.of_event (engineStep_event idle h) with
    | runs ph e d l m busy =>
      refine ⟨?_, fun _ still => ?_, fun _ => ⟨rfl, rfl, rfl⟩⟩
      · exact ⟨rfl, rfl, rfl, rfl, rfl, rfl, rfl, rfl, rfl, rfl, rfl, rfl, rfl⟩
      · exact absurd (busy_eq_false_iff.mp still) busy
    | ends err result e m st record =>
      refine ⟨?_, fun _ _ => ⟨rfl, record⟩, fun busy => ?_⟩
      · exact ⟨rfl, rfl, rfl, rfl, rfl, rfl, rfl, rfl, rfl, rfl, rfl, rfl, rfl⟩
      · exact absurd rfl (busy_iff.mp busy)

end Sys2Proof.Proofs

namespace Sys2Proof.Proofs

open Sys2Proof.Machine Sys2Proof.Laws

/-! The outside's moves (R290, R302, R360, R381): a move writes a register, is the reset event, or
leaves the registers, the phase and the latches alone. -/

/-- What a move of the outside that writes no register and is no reset event leaves. -/
structure LeavesRegisters (s t : State) : Prop where
  ie : t.ie = s.ie
  done : t.done = s.done
  err : t.err = s.err
  result : t.result = s.result
  phase : t.phase = s.phase

/-- Everything the first pending action can do. -/
inductive OutsideEvent (s : State) (a : Action) (rest : List Action) (t : State) : Prop
  | register (off : Nat) (v : Word) (written : registerWritten s a = some (off, v))
      (h : regWrite off v { s with inbox := rest } = .next t)
  | reset (action : a = .reset) (h : t = State.resetEvent { s with inbox := rest })
  | other (silent : registerWritten s a = none) (action : a ≠ .reset) (h : LeavesRegisters s t)

theorem busLoad_leaves {who : Master} {addr n : Nat} {s t : State}
    (h : busLoad who addr n s = .next t) : LeavesRegisters s t := by
  obtain ⟨r, rfl⟩ := busLoad_cases h
  exact ⟨rfl, rfl, rfl, rfl, rfl⟩

theorem storeBytes_leaves (who : Master) (addr : Nat) (bs : List Byte) (s : State) :
    LeavesRegisters s (storeBytes who addr bs s) := by
  obtain ⟨d, st, h⟩ := storeBytes_cases who addr bs s
  rw [h]
  exact ⟨rfl, rfl, rfl, rfl, rfl⟩

theorem whileWaiting_leaves (a : Action) (s : State) : LeavesRegisters s (whileWaiting a s) := by
  obtain ⟨r, h⟩ := whileWaiting_cases a s
  rw [h]
  exact ⟨rfl, rfl, rfl, rfl, rfl⟩

/-- A wait writes no register. -/
theorem registerWritten_of_waiting {a : Action} {s : State} (h : waitOver a s = false) :
    registerWritten s a = none ∧ a ≠ .reset := by
  cases a with
  | waitDone => exact ⟨rfl, nofun⟩
  | waitIdle => exact ⟨rfl, nofun⟩
  | waitIrq => exact ⟨rfl, nofun⟩
  | _ => exact absurd h Bool.noConfusion

theorem outsideEvent_of_act {s t : State} {a : Action} {rest : List Action}
    (h : act a { s with inbox := rest } = .next t) : OutsideEvent s a rest t := by
  cases a with
  | load who addr n =>
    obtain ⟨hie, hdone, herr, hresult, hphase⟩ := busLoad_leaves h
    exact .other rfl nofun ⟨hie, hdone, herr, hresult, hphase⟩
  | store who addr bs =>
    rcases busStore_cases h with ⟨off, rfl, target, hw⟩ | ⟨target, -, rfl⟩
    · refine .register off _ ?_ hw
      simp only [registerWritten]
      rw [show targetOf s.platform addr.toNat bs.length = .register off from target]
    · obtain ⟨hie, hdone, herr, hresult, hphase⟩ := storeBytes_leaves who addr.toNat bs
        { s with inbox := rest }
      refine .other ?_ nofun ⟨hie, hdone, herr, hresult, hphase⟩
      cases who
      · simp only [registerWritten]
        rw [show targetOf s.platform addr.toNat bs.length = .memory from target]
      · rfl
  | storeReply addr =>
    rcases busStore_cases h with ⟨off, -, target, hw⟩ | ⟨target, -, rfl⟩
    · refine .register off _ ?_ hw
      simp only [registerWritten]
      rw [show targetOf s.platform addr.toNat (replyBytes s.reply).length = .register off
        from target]
    · obtain ⟨hie, hdone, herr, hresult, hphase⟩ := storeBytes_leaves .host addr.toNat
        (replyBytes s.reply) { s with inbox := rest }
      refine .other ?_ nofun ⟨hie, hdone, herr, hresult, hphase⟩
      simp only [registerWritten]
      rw [show targetOf s.platform addr.toNat (replyBytes s.reply).length = .memory from target]
  | reset => exact .reset rfl (Host.Outcome.next.inj h).symm
  | otherStarts run =>
    refine .other rfl nofun ?_
    rw [act, otherStarts] at h
    split at h
    · simp at h
    · obtain rfl := Host.Outcome.next.inj h
      exact ⟨rfl, rfl, rfl, rfl, rfl⟩
  | _ =>
    obtain rfl := Host.Outcome.next.inj h
    exact .other rfl nofun ⟨rfl, rfl, rfl, rfl, rfl⟩

/-- Everything a move of the outside can do. -/
theorem hostStep_event {s t : State} (h : hostStep s = .next t) :
    (s.inbox = [] ∧ t = s) ∨ ∃ a rest, s.inbox = a :: rest ∧ OutsideEvent s a rest t := by
  rcases hostStep_cases h with ⟨empty, rfl⟩ | ⟨a, rest, inbox, waiting, rfl⟩
    | ⟨a, rest, inbox, -, h⟩
  · exact .inl ⟨empty, rfl⟩
  · obtain ⟨silent, action⟩ := registerWritten_of_waiting waiting
    exact .inr ⟨a, rest, inbox, .other silent action (whileWaiting_leaves a s)⟩
  · exact .inr ⟨a, rest, inbox, outsideEvent_of_act h⟩

/-- A register write while BUSY does not end the command, nor touch its report but for DONE, which
it can only clear (R291, R294). -/
theorem regWrite_of_busy {off : Nat} {v : Word} {s t : State} (busy : s.busy = true)
    (h : regWrite off v s = .next t) :
    t.phase = s.phase ∧ (s.done = false → t.done = false) ∧ t.err = s.err
      ∧ t.result = s.result := by
  rcases regWrite_cases h with ⟨-, rfl⟩ | ⟨-, rfl⟩ | ⟨-, hw⟩ | ⟨-, rfl⟩ | ⟨-, rfl⟩ | ⟨-, rfl⟩
    | ⟨-, rfl⟩ | ⟨-, rfl⟩ | rfl
  · exact ⟨rfl, id, rfl, rfl⟩
  · exact ⟨rfl, fun clear => by rw [writeStatus_done, clear, Bool.false_and], rfl, rfl⟩
  · rcases writeCmd_cases hw with ⟨-, rfl⟩ | ⟨idle, -⟩
    · exact ⟨rfl, id, rfl, rfl⟩
    · exact absurd busy (Bool.eq_false_iff.mp idle)
  all_goals exact ⟨rfl, id, rfl, rfl⟩

/-- Settles O47: a register write keeps the phase of a running command, and the rest leaves it. -/
theorem onlyResetAbandonsACommand : Obligations.OnlyResetAbandonsACommand := by
  intro s t busy h idle
  have ended : t.phase ≠ s.phase := fun same =>
    busy_iff.mp busy (same ▸ busy_eq_false_iff.mp idle)
  rcases hostStep_event h with ⟨-, rfl⟩ | ⟨a, rest, inbox, event⟩
  · exact absurd rfl ended
  · cases event with
    | register off v _ hw =>
      exact absurd (regWrite_of_busy (s := { s with inbox := rest }) busy hw).1 ended
    | reset action => exact ⟨rest, action ▸ inbox⟩
    | other _ _ leaves => exact absurd leaves.phase ended

/-! ## What the host sees while a command runs (R32, R371) -/

/-- While the block is busy DONE, ERR and RESULT show nothing. -/
def ShowsOnlyBusy (s : State) : Prop :=
  s.busy = true → s.done = false ∧ s.err = .none ∧ s.result = 0#64

theorem showsOnlyBusy_of_idle {s : State} (h : s.phase = .idle) : ShowsOnlyBusy s :=
  fun busy => absurd h (busy_iff.mp busy)

theorem regWrite_showsOnlyBusy {off : Nat} {v : Word} {s t : State} (shows : ShowsOnlyBusy s)
    (h : regWrite off v s = .next t) : ShowsOnlyBusy t := by
  cases busy : s.busy with
  | true =>
    obtain ⟨-, done, err, result⟩ := regWrite_of_busy busy h
    obtain ⟨noDone, noErr, noResult⟩ := shows busy
    exact fun _ => ⟨done noDone, err.trans noErr, result.trans noResult⟩
  | false =>
    have idle := busy_eq_false_iff.mp busy
    rcases regWrite_cases h with ⟨-, rfl⟩ | ⟨-, rfl⟩ | ⟨-, hw⟩ | ⟨-, rfl⟩ | ⟨-, rfl⟩ | ⟨-, rfl⟩
      | ⟨-, rfl⟩ | ⟨-, rfl⟩ | rfl
    case inr.inr.inl =>
      rcases writeCmd_cases hw with ⟨running, -⟩ | ⟨-, rfl⟩
      · exact absurd busy (Bool.eq_false_iff.not.mpr (not_not.mpr running))
      · exact fun _ => ⟨rfl, rfl, rfl⟩
    all_goals exact showsOnlyBusy_of_idle idle

theorem engineStep_showsOnlyBusy {s t : State} (shows : ShowsOnlyBusy s)
    (h : engineStep s = .next t) : ShowsOnlyBusy t := by
  intro busy
  obtain ⟨-, -, running⟩ := engineWritesOnlyTheCompletionRecord s t h
  obtain ⟨done, err, result⟩ := running busy
  by_cases idle : s.phase = .idle
  · exact absurd (engineStep_idle idle h ▸ idle) (busy_iff.mp busy)
  · obtain ⟨noDone, noErr, noResult⟩ := shows (busy_iff.mpr idle)
    exact ⟨done.trans noDone, err.trans noErr, result.trans noResult⟩

theorem hostStep_showsOnlyBusy {s t : State} (shows : ShowsOnlyBusy s)
    (h : hostStep s = .next t) : ShowsOnlyBusy t := by
  rcases hostStep_event h with ⟨-, rfl⟩ | ⟨a, rest, -, event⟩
  · exact shows
  · cases event with
    | register off v _ hw =>
      exact regWrite_showsOnlyBusy (s := { s with inbox := rest }) shows hw
    | reset _ h => exact showsOnlyBusy_of_idle (h ▸ rfl)
    | other _ _ leaves =>
      intro busy
      rw [leaves.done, leaves.err, leaves.result]
      exact shows (busy_iff.mpr (leaves.phase ▸ busy_iff.mp busy))

/-- Settles O46: the engine writes the record at a command's end only, the host starts a command
with the record cleared. -/
theorem runningShowsOnlyBusy : Obligations.RunningShowsOnlyBusy := by
  intro s t shows h
  rcases step_cases h with ⟨-, rfl⟩ | ⟨-, u, hu, rfl⟩ | ⟨-, u, hu, rfl⟩
  · exact shows
  · have shown := hostStep_showsOnlyBusy shows hu
    exact shown
  · have shown := engineStep_showsOnlyBusy shows hu
    exact shown

/-! ## The interrupt line (R330, R332) -/

theorem irq_eq_true_iff {s : State} : s.irq = true ↔ s.ie = true ∧ s.done = true :=
  Bool.and_eq_true_iff

/-- The line after a register write: CTRL sets IE, STATUS may clear DONE, a start clears it. -/
theorem regWrite_irq {off : Nat} {v : Word} {s t : State} (shows : s.busy = true → s.done = false)
    (h : regWrite off v s = .next t) :
    t.irq = if off = 0x08 then v.getLsbD 0 && s.done
      else if off = 0x10 then s.irq && !v.getLsbD 1
      else if off = 0x18 then false
      else s.irq := by
  by_cases ctrl : off = 0x08
  · subst ctrl
    obtain rfl : writeCtrl v s = t := Host.Outcome.next.inj h
    rfl
  by_cases status : off = 0x10
  · subst status
    obtain rfl : writeStatus v s = t := Host.Outcome.next.inj h
    exact (Bool.and_assoc _ _ _).symm
  by_cases cmd : off = 0x18
  · subst cmd
    rcases writeCmd_cases (regWrite_cmd v s ▸ h) with ⟨busy, rfl⟩ | ⟨-, rfl⟩
    · exact (congrArg (s.ie && ·) (shows busy)).trans (Bool.and_false _)
    · exact Bool.and_false _
  rw [if_neg ctrl, if_neg status, if_neg cmd]
  rcases regWrite_cases h with ⟨named, -⟩ | ⟨named, -⟩ | ⟨named, -⟩ | ⟨-, rfl⟩ | ⟨-, rfl⟩
    | ⟨-, rfl⟩ | ⟨-, rfl⟩ | ⟨-, rfl⟩ | rfl
  · exact absurd named ctrl
  · exact absurd named status
  · exact absurd named cmd
  all_goals rfl

theorem LeavesRegisters.irq {s t : State} (h : LeavesRegisters s t) : t.irq = s.irq := by
  rw [State.irq, h.ie, h.done, State.irq]

section
variable {s t : State} {a : Action} {rest : List Action}

/-- From outside a low line rises exactly at a CTRL write that sets IE while DONE = 1. -/
theorem OutsideEvent.irq_rises (event : OutsideEvent s a rest t)
    (shows : s.busy = true → s.done = false) (low : s.irq = false) :
    t.irq = true ↔ s.done = true
      ∧ ∃ v, registerWritten s a = some (0x08, v) ∧ v.getLsbD 0 = true := by
  cases event with
  | register off v written h =>
    have line := regWrite_irq (s := { s with inbox := rest }) shows h
    have low' : State.irq { s with inbox := rest } = false := low
    rw [line, low', written]
    by_cases ctrl : off = 0x08
    · simp [ctrl, and_comm]
    · simp [ctrl]
  | reset action h => simp [h, action, State.irq, State.resetEvent, registerWritten]
  | other silent _ leaves => simp [leaves.irq, low, silent]

/-- From outside a high line falls exactly at the reset event, at a STATUS write that clears DONE,
at a CTRL write that clears IE, and at a command start. -/
theorem OutsideEvent.irq_falls (event : OutsideEvent s a rest t)
    (shows : s.busy = true → s.done = false) (high : s.irq = true) :
    t.irq = false ↔ a = .reset
      ∨ ∃ v, (registerWritten s a = some (0x10, v) ∧ v.getLsbD 1 = true)
        ∨ (registerWritten s a = some (0x08, v) ∧ v.getLsbD 0 = false)
        ∨ registerWritten s a = some (0x18, v) := by
  have done := (irq_eq_true_iff.mp high).2
  cases event with
  | register off v written h =>
    have line := regWrite_irq (s := { s with inbox := rest }) shows h
    have high' : State.irq { s with inbox := rest } = true := high
    have notReset : a ≠ .reset := by
      rintro rfl
      exact absurd written nofun
    rw [line, high', written]
    by_cases ctrl : off = 0x08
    · simp [ctrl, done, notReset]
    by_cases status : off = 0x10
    · simp [status, notReset]
    by_cases cmd : off = 0x18
    · simp [cmd, notReset]
    · simp [ctrl, status, cmd, notReset]
  | reset action h => simp [h, action, State.irq, State.resetEvent]
  | other silent action leaves => simp [leaves.irq, high, silent, action]

end

/-- From the engine a low line rises exactly at a completion with IE = 1. -/
theorem engineStep_irq_rises {s t : State} (busy : s.busy = true) (clear : s.done = false)
    (h : engineStep s = .next t) : t.irq = true ↔ s.ie = true ∧ t.busy = false := by
  obtain ⟨⟨-, -, -, -, -, ie, -⟩, ended, running⟩ := engineWritesOnlyTheCompletionRecord s t h
  rw [irq_eq_true_iff, ie]
  cases goesOn : t.busy with
  | true => simp [(running goesOn).1, clear]
  | false => simp [(ended busy goesOn).1]

/-- Settles O48: each mover's own events. -/
theorem interruptLineFollowsItsEvents : Obligations.InterruptLineFollowsItsEvents := by
  refine ⟨fun _ => rfl, fun s t shows h => ?_⟩
  rcases step_cases h with ⟨mover, rfl⟩ | ⟨mover, u, hu, rfl⟩ | ⟨mover, u, hu, rfl⟩
  · exact ⟨fun low => by simp [low, mover], fun high => by simp [high, mover]⟩
  · have line : State.irq { u with tick := u.tick + 1 } = u.irq := rfl
    rw [line]
    rcases hostStep_event hu with ⟨inbox, rfl⟩ | ⟨a, rest, inbox, event⟩
    · exact ⟨fun low => by simp [low, mover, inbox], fun high => by simp [high, inbox]⟩
    · refine ⟨fun low => ?_, fun high => ?_⟩
      · rw [event.irq_rises shows low]
        simp [mover, inbox]
      · rw [event.irq_falls shows high]
        simp [mover, inbox]
  · have busy := busy_iff.mpr (mover_engine_busy mover)
    have line : State.irq { u with tick := u.tick + 1 } = u.irq := rfl
    have going : State.busy { u with tick := u.tick + 1 } = u.busy := rfl
    rw [line, going]
    refine ⟨fun low => ?_, fun high => ?_⟩
    · rw [engineStep_irq_rises busy (shows busy) hu]
      simp [mover]
    · have done := (irq_eq_true_iff.mp high).2
      exact absurd (shows busy) (by simp [done])

end Sys2Proof.Proofs

namespace Sys2Proof.Proofs

open Sys2Proof.Machine Sys2Proof.Laws

/-! Reset and start (R41, R293, R360), what a step fetches (R32, R167), the phases of a meaning, and
the argument registers a running command does not read (R33, R295). -/

/-! ## Reset -/

/-- Settles O38: of the registers only ID is not zero at reset. -/
theorem resetRegistersReadAsStated : Obligations.ResetRegistersReadAsStated := by
  refine ⟨rfl, fun off h => ?_, rfl, rfl⟩
  rw [regRead, if_neg h]
  split_ifs <;> rfl

/-- Settles O39: the state right after reset is a closed term. -/
theorem resetIsSound : Obligations.ResetIsSound := rfl

/-- The reset event sets every register the host reads (R360). -/
theorem regRead_resetEvent (s : State) (off : Nat) :
    regRead s.resetEvent off = regRead State.reset off := rfl

/-- A byte the platform refuses for writing keeps its value at the reset event (R360). -/
theorem resetEvent_refused {s : State} (hm : s.mem.wf = true) {a : Nat}
    (h : memAdmits s.platform .write a = false) :
    readByte s.resetEvent.mem a = readByte s.mem a := by
  rw [State.resetEvent]
  split
  · exact scrambleAdmitted_refused s.platform _ hm _ h
  · rfl

/-- The reset event leaves what no rule reads before the next start (R362, log entry 19). -/
theorem resetEvent_keeps (s : State) :
    s.resetEvent.latch = s.latch ∧ s.resetEvent.enc = s.enc ∧ s.resetEvent.dec = s.dec
      ∧ s.resetEvent.platform = s.platform ∧ s.resetEvent.inbox = s.inbox := by
  rw [State.resetEvent]
  split <;> exact ⟨rfl, rfl, rfl, rfl, rfl⟩

/-- Settles O40: the registers, memory by its three reasons to stay, and what is kept. -/
theorem resetEventRestoresTheRegisters : Obligations.ResetEventRestoresTheRegisters := by
  refine fun s hm => ⟨regRead_resetEvent s, rfl, rfl, fun a h => ?_, resetEvent_keeps s⟩
  rcases h with idle | outside | refused
  · exact resetEvent_memory hm (.inl (busy_eq_false_iff.mpr idle))
  · exact resetEvent_memory hm (.inr outside)
  · exact resetEvent_refused hm refused

/-! ## Start -/

/-- A CMD write while IDLE, with nothing in the way, is a start (R292, R293). -/
theorem writeCmd_of_idle {s : State} (idle : s.phase = .idle) {v : Word}
    (free : s.others.any (conflicts (regionsOf (latchesFor v s))) = false)
    (clean : s.platform.coherent = true
      ∨ s.dirty.any (readRegion (latchesFor v s)).overlaps = false) :
    writeCmd v s = .next (s.start v) := by
  have maintained :
      (!s.platform.coherent && s.dirty.any (readRegion (latchesFor v s)).overlaps) = false := by
    rcases clean with coherent | cleaned
    · rw [coherent, Bool.not_true, Bool.false_and]
    · rw [cleaned, Bool.and_false]
  rw [writeCmd, busy_eq_false_iff.mpr idle, if_neg Bool.false_ne_true, startCommand, free,
    if_neg Bool.false_ne_true, maintained, if_neg Bool.false_ne_true]

/-- Settles O57: the start with its fields. -/
theorem commandStartLatchesTheArguments : Obligations.CommandStartLatchesTheArguments :=
  fun s v idle free clean => ⟨s.start v, writeCmd_of_idle idle free clean, rfl, rfl,
    Bool.and_false _⟩

/-! ## The instruction a step runs -/

theorem step_of_engine {s : State} (h : mover s = .engine) : step s = advance (engineStep s) := by
  rw [step, h]

/-- In MARK the footer is run (R167). -/
theorem engineStep_mark {s : State} {i : Instr} (mark : s.phase = .mark)
    (long : Config.footerBytes ≤ s.latch.srcLen.toNat)
    (footer : decodeFooter (footerBytesAt s) = .ok i) : engineStep s = exec i s := by
  have busy : s.phase ≠ .idle := by simp [mark]
  rw [engineStep, if_neg busy, if_pos mark, stepFooter, if_neg (Nat.not_lt.mpr long), footer]

theorem atBlock_iff {s : State} : atBlock s = true ↔ s.phase = .hdr ∧ s.grain ≠ .element
    ∧ s.dec.k ≠ s.latch.n.toNat ∧ s.dec.p ≠ s.dec.endOff := by
  simp [atBlock, and_assoc]

/-- Where blocks run whole, the block at p is run (R226). -/
theorem engineStep_atBlock {s : State} (h : atBlock s = true) : engineStep s = stepBlock s := by
  have hdr := (atBlock_iff.mp h).1
  have busy : s.phase ≠ .idle := by simp [hdr]
  have notMark : s.phase ≠ .mark := by simp [hdr]
  rw [engineStep, if_neg busy, if_neg notMark, if_pos h]

/-- Elsewhere the latched command is run (R292). -/
theorem engineStep_command {s : State} {i : Instr} (busy : s.phase ≠ .idle)
    (notMark : s.phase ≠ .mark) (notBlock : ¬ atBlock s = true)
    (cmd : decodeCommand s.latch.cmd = .ok i) : engineStep s = exec i s := by
  rw [engineStep, if_neg busy, if_neg notMark, if_neg notBlock, stepCommand, cmd]

/-- Settles O37: the three fetches. -/
theorem stepRunsTheDecodedInstruction : Obligations.StepRunsTheDecodedInstruction := by
  intro s hmover
  rw [step_of_engine hmover]
  refine ⟨fun i mark long footer => ?_, fun i rest hdr grain wanted left decoded => ?_,
    fun i notMark where' cmd => ?_⟩
  · rw [engineStep_mark mark long footer]
  · rw [engineStep_atBlock (atBlock_iff.mpr ⟨hdr, grain, wanted, left⟩), stepBlock, decoded]
  · have notBlock : ¬ atBlock s = true := by
      rw [atBlock_iff]
      tauto
    rw [engineStep_command (mover_engine_busy hmover) notMark notBlock cmd]

/-- Settles O60: each meaning tests its phases before anything else. -/
theorem meaningsStopOutsideTheirPhases : Obligations.MeaningsStopOutsideTheirPhases := by
  intro s kind
  refine ⟨fun eng other => if_pos other, fun other => ?_, fun other => ?_, fun other => ?_,
    fun other => ?_, fun i block other => ?_, fun other => if_pos other⟩
  · simp_all [exec, execCompressS]
  · simp_all [exec, execCompressV]
  · simp_all [exec, execDecompressS]
  · simp_all [exec, execDecompressV]
  · rw [exec_block block, execBlock, if_pos other]

end Sys2Proof.Proofs

namespace Sys2Proof.Proofs

open Sys2Proof.Machine Sys2Proof.Laws

/-! The engine works on its latches (R33): a step does not read the argument registers, so it
commutes with every change of them (R295). -/

/-- Values of SRC, SRC_LEN, DST, DST_CAP and COUNT (R29). -/
structure Arguments where
  src : Word
  srcLen : Word
  dst : Word
  dstCap : Word
  count : Word

/-- The argument registers set. -/
def setArguments (a : Arguments) (s : State) : State :=
  { s with src := a.src, srcLen := a.srcLen, dst := a.dst, dstCap := a.dstCap, count := a.count }

/-- An outcome with its state changed. -/
def mapNext (f : State → State) :
    Host.Outcome State Fault Refusal → Host.Outcome State Fault Refusal
  | .next s => .next (f s)
  | .fault r => .fault r
  | .refused r => .refused r

section
variable (a : Arguments) (s : State)

/-! ## Each operation commutes -/

theorem shortBuffer_setArguments :
    shortBuffer (setArguments a s) = setArguments a (shortBuffer s) := by
  unfold shortBuffer
  simp only [apply_ite (setArguments a)]
  rfl

theorem compressCheck_setArguments (bytes : List Byte) (first : Phase) :
    compressCheck bytes first (setArguments a s)
      = setArguments a (compressCheck bytes first s) := by
  unfold compressCheck
  simp only [apply_ite (setArguments a)]
  rfl

theorem decompressCheck_setArguments (result : Except ErrCode (List Word)) :
    decompressCheck result (setArguments a s) = setArguments a (decompressCheck result s) := by
  unfold decompressCheck
  simp only [apply_ite (setArguments a)]
  cases result <;> rfl

theorem scanStep_setArguments : scanStep (setArguments a s) = setArguments a (scanStep s) := by
  unfold scanStep
  simp only [apply_ite (setArguments a)]
  rfl

theorem vecOpenStep_setArguments :
    vecOpenStep (setArguments a s) = setArguments a (vecOpenStep s) := by
  unfold vecOpenStep
  simp only [apply_ite (setArguments a)]
  rfl

theorem vecTailStep_setArguments :
    vecTailStep (setArguments a s) = setArguments a (vecTailStep s) := by
  unfold vecTailStep
  simp only [apply_ite (setArguments a)]
  rfl

theorem headerStep_setArguments :
    headerStep (setArguments a s) = setArguments a (headerStep s) := by
  have header : headerAt (setArguments a s) = headerAt s := rfl
  unfold headerStep
  rw [header]
  simp only [apply_ite (setArguments a)]
  cases headerAt s <;> rfl

/-- After elements of a block, whatever they did to the decoder. -/
theorem settleBlock_setArguments (d : DecRegs) (l : LaneRegs) (m : Memory) :
    settleBlock { setArguments a s with dec := d, lanes := l, mem := m }
      = setArguments a (settleBlock { s with dec := d, lanes := l, mem := m }) := by
  unfold settleBlock
  simp only [apply_ite (setArguments a)]
  rfl

theorem elemStep_setArguments : elemStep (setArguments a s) = setArguments a (elemStep s) := by
  have kind : (setArguments a s).dec.kind = s.dec.kind := rfl
  have first : (setArguments a s).dec.j = s.dec.j := rfl
  simp only [elemStep, kind, first]
  cases s.dec.kind with
  | repeatRun => exact settleBlock_setArguments a s _ _ _
  | deltaE =>
    simp only [apply_ite (setArguments a)]
    split
    · exact settleBlock_setArguments a s _ _ _
    · exact settleBlock_setArguments a s _ _ _
  | deltaI => exact settleBlock_setArguments a s _ _ _

theorem laneStep_setArguments : laneStep (setArguments a s) = setArguments a (laneStep s) := by
  have kind : (setArguments a s).dec.kind = s.dec.kind := rfl
  rw [laneStep, laneStep, kind]
  cases s.dec.kind with
  | repeatRun => exact settleBlock_setArguments a s _ _ _
  | deltaE => exact settleBlock_setArguments a s _ _ _
  | deltaI => exact settleBlock_setArguments a s _ _ _

theorem finishStep_setArguments :
    finishStep (setArguments a s) = setArguments a (finishStep s) := by
  unfold finishStep
  simp only [apply_ite (setArguments a)]
  rfl

theorem runBlock_setArguments (i : Instr) :
    runBlock i (setArguments a s) = setArguments a (runBlock i s) := by
  have engine : runningEngine (setArguments a s) = runningEngine s := rfl
  rw [runBlock, runBlock, engine]
  cases runningEngine s <;> rfl

theorem execBlock_setArguments (i : Instr) :
    execBlock i (setArguments a s) = mapNext (setArguments a) (execBlock i s) := by
  have failed : blockError i (setArguments a s) = blockError i s := rfl
  unfold execBlock
  rw [failed, runBlock_setArguments, apply_ite (mapNext (setArguments a))]
  cases blockError i s <;> rfl

theorem execFooter_setArguments :
    execFooter (setArguments a s) = mapNext (setArguments a) (execFooter s) := by
  unfold execFooter
  rw [shortBuffer_setArguments]
  simp only [apply_ite (mapNext (setArguments a))]
  rfl

theorem exec_setArguments (i : Instr) :
    exec i (setArguments a s) = mapNext (setArguments a) (exec i s) := by
  cases i with
  | maxsize e k =>
    simp only [exec, execMaxsize, apply_ite (mapNext (setArguments a))]
    rfl
  | compressS k =>
    simp only [exec, execCompressS, compressCheck_setArguments, scanStep_setArguments,
      apply_ite (mapNext (setArguments a))]
    rfl
  | compressV k =>
    simp only [exec, execCompressV, compressCheck_setArguments, vecOpenStep_setArguments,
      vecTailStep_setArguments, apply_ite (mapNext (setArguments a))]
    rfl
  | decompressS k =>
    simp only [exec, execDecompressS, decompressCheck_setArguments, headerStep_setArguments,
      elemStep_setArguments, finishStep_setArguments, apply_ite (mapNext (setArguments a))]
    rfl
  | decompressV k =>
    simp only [exec, execDecompressV, decompressCheck_setArguments, headerStep_setArguments,
      laneStep_setArguments, elemStep_setArguments, finishStep_setArguments,
      apply_ite (mapNext (setArguments a))]
    rfl
  | repeatBlock cnt v => exact execBlock_setArguments a s _
  | deltaE cnt w ref zs => exact execBlock_setArguments a s _
  | deltaI cnt w zs => exact execBlock_setArguments a s _
  | footer => exact execFooter_setArguments a s

theorem stepCommand_setArguments :
    stepCommand (setArguments a s) = mapNext (setArguments a) (stepCommand s) := by
  have latch : (setArguments a s).latch = s.latch := rfl
  rw [stepCommand, stepCommand, latch]
  cases decodeCommand s.latch.cmd with
  | ok i => exact exec_setArguments a s i
  | error r => rfl

theorem stepBlock_setArguments :
    stepBlock (setArguments a s) = mapNext (setArguments a) (stepBlock s) := by
  have bytes : blockBytesAt (setArguments a s) = blockBytesAt s := rfl
  rw [stepBlock, stepBlock, bytes]
  cases decodeBlock (blockBytesAt s) with
  | ok found => exact exec_setArguments a s found.1
  | error r => rfl

theorem stepFooter_setArguments :
    stepFooter (setArguments a s) = mapNext (setArguments a) (stepFooter s) := by
  have bytes : footerBytesAt (setArguments a s) = footerBytesAt s := rfl
  rw [stepFooter, stepFooter, bytes, shortBuffer_setArguments,
    apply_ite (mapNext (setArguments a))]
  cases decodeFooter (footerBytesAt s) with
  | ok i =>
    rw [← exec_setArguments a s i]
    rfl
  | error r => rfl

/-- R33: the engine's step does not read the argument registers. -/
theorem engineStep_setArguments :
    engineStep (setArguments a s) = mapNext (setArguments a) (engineStep s) := by
  unfold engineStep
  rw [stepCommand_setArguments, stepBlock_setArguments, stepFooter_setArguments]
  simp only [apply_ite (mapNext (setArguments a))]
  rfl

end

/-- The argument registers of a state. -/
def argumentsOf (s : State) : Arguments := ⟨s.src, s.srcLen, s.dst, s.dstCap, s.count⟩

/-- An argument write is one argument changed, whatever the rest of the state (R290). -/
theorem regWrite_argument_eq {off : Nat}
    (h : off = 0x20 ∨ off = 0x28 ∨ off = 0x30 ∨ off = 0x38 ∨ off = 0x40) (v : Word)
    (args : Arguments) : ∃ args', ∀ s, argumentsOf s = args →
      regWrite off v s = .next (setArguments args' s) := by
  rcases h with rfl | rfl | rfl | rfl | rfl
  · exact ⟨{ args with src := v }, by rintro s rfl; rfl⟩
  · exact ⟨{ args with srcLen := v }, by rintro s rfl; rfl⟩
  · exact ⟨{ args with dst := v }, by rintro s rfl; rfl⟩
  · exact ⟨{ args with dstCap := v }, by rintro s rfl; rfl⟩
  · exact ⟨{ args with count := v }, by rintro s rfl; rfl⟩

/-- Settles O53: the write sets the same arguments before the step and after it. -/
theorem argumentWritesMissTheRunningCommand : Obligations.ArgumentWritesMissTheRunningCommand := by
  intro s t off v argument h
  obtain ⟨args, write⟩ := regWrite_argument_eq argument v (argumentsOf s)
  obtain ⟨⟨src, srcLen, dst, dstCap, count, -⟩, -⟩ := engineWritesOnlyTheCompletionRecord s t h
  have kept : argumentsOf t = argumentsOf s := by
    rw [argumentsOf, src, srcLen, dst, dstCap, count, argumentsOf]
  obtain ⟨u, hu, read, -⟩ := regWrite_argument argument v s
  obtain rfl : setArguments args s = u := Host.Outcome.next.inj ((write s rfl).symm.trans hu)
  exact ⟨_, _, hu, write t kept, read, by rw [engineStep_setArguments, h, mapNext]⟩

end Sys2Proof.Proofs

namespace Sys2Proof.Proofs

open Sys2Proof.Machine Sys2Proof.Laws

/-! Bus accesses (R20, R66, R68, R80, R302) and the refused actions (R370): where an access goes,
and what it finds there. -/

/-! ## Where an access goes -/

/-- MMIO_BASE leaves room for the register block below 2^64 (R66). -/
theorem mmioBase_add_le (p : Platform) : mmioBase p + 0x100 ≤ Config.addressSpace := by
  have page := p.mmioPage.isLt
  simp only [mmioBase, Config.registerBlockBytes, Config.addressSpace]
  omega

/-- An address of the register block, as the host puts it on the bus. -/
theorem toNat_registerAddress (p : Platform) {off : Nat} (h : off < 0x100) :
    (BitVec.ofNat 64 (mmioBase p + off)).toNat = mmioBase p + off := by
  have base := mmioBase_add_le p
  simp only [Config.addressSpace] at base
  rw [BitVec.toNat_ofNat]
  omega

/-- An aligned 64-bit access at an offset of the register block goes to that register (R68). -/
theorem targetOf_register (p : Platform) {off : Nat} (aligned : off % 8 = 0) (h : off < 0x100) :
    targetOf p (mmioBase p + off) 8 = .register off := by
  have base := mmioBase_add_le p
  have page : mmioBase p % 8 = 0 := by
    simp only [mmioBase, Config.registerBlockBytes]
    omega
  have inBlock : (registerBlock p).overlaps ⟨mmioBase p + off, 8⟩ = true := by
    have start : (registerBlock p).base = mmioBase p := rfl
    have size : (registerBlock p).len = 0x100 := rfl
    simp only [Region.overlaps, Bool.and_eq_true, decide_eq_true_eq]
    omega
  rw [targetOf, if_neg (by omega), if_pos inBlock, if_pos ⟨rfl, by omega⟩, Nat.add_sub_cancel_left]

section
variable {p : Platform} {addr n : Nat} (top : addr + n ≤ Config.addressSpace)
include top

theorem targetOf_memory (outside : (registerBlock p).overlaps ⟨addr, n⟩ = false) :
    targetOf p addr n = .memory := by
  rw [targetOf, if_neg (Nat.not_lt.mpr top), if_neg (Bool.eq_false_iff.mp outside)]

theorem targetOf_badRegister (inside : (registerBlock p).overlaps ⟨addr, n⟩ = true)
    (odd : ¬ (n = 8 ∧ addr % 8 = 0)) : targetOf p addr n = .badRegister := by
  rw [targetOf, if_neg (Nat.not_lt.mpr top), if_pos inside, if_neg odd]

end

/-! ## The register block -/

/-- The host's write of a register's address is RegWrite (R290). -/
theorem act_wr (s : State) {off : Nat} (aligned : off % 8 = 0) (h : off < 0x100) (v : Word) :
    act (wr s.platform off v) s = regWrite off v s := by
  rw [wr, act, busStore, toNat_registerAddress _ h, leBytes_length, targetOf_register _ aligned h,
    rdWord_leBytes]
  exact if_pos rfl

/-- The host's read of a register's address replies RegRead (R290). -/
theorem act_rd (s : State) {off : Nat} (aligned : off % 8 = 0) (h : off < 0x100) :
    act (rd s.platform off) s = .next { s with reply := .reg (regRead s off) } := by
  rw [rd, act, busLoad, toNat_registerAddress _ h, targetOf_register _ aligned h]
  exact if_pos rfl

/-- Another master reaches no register (log entry 26). -/
theorem act_other_register (s : State) {off : Nat} (aligned : off % 8 = 0) (h : off < 0x100)
    {bs : List Byte} (length : bs.length = 8) :
    act (.load .other (BitVec.ofNat 64 (mmioBase s.platform + off)) 8) s
        = .refused .masterTouchesRegister
      ∧ act (.store .other (BitVec.ofNat 64 (mmioBase s.platform + off)) bs) s
        = .refused .masterTouchesRegister := by
  rw [act, act, busLoad, busStore, toNat_registerAddress _ h, length,
    targetOf_register _ aligned h]
  exact ⟨if_neg nofun, if_neg nofun⟩

/-! ## Memory -/

section
variable {s : State} {who : Master} {addr : Word} {n : Nat} {bs : List Byte}

/-- A store that goes to memory is refused exactly where it touches a running command. -/
theorem act_store_memory (target : targetOf s.platform addr.toNat bs.length = .memory) :
    act (.store who addr bs) s
      = if touchesRunning s .write ⟨addr.toNat, bs.length⟩ then .refused (touchRefusal who)
        else .next (storeBytes who addr.toNat bs s) := by
  rw [act, busStore, target]

/-- A load that goes to memory is refused exactly where it touches the error region. -/
theorem act_load_memory (target : targetOf s.platform addr.toNat n = .memory) :
    act (.load who addr n) s
      = if touchesRunning s .read ⟨addr.toNat, n⟩ then .refused (touchRefusal who)
        else .next (replyTo who
          (.bytes ((List.range n).map fun k => busByte s who (addr.toNat + k))) s) := by
  rw [act, busLoad, target]

end

/-- What an access touches of a running command (R370 (b), (c)). -/
theorem touchesRunning_iff (s : State) (acc : Access) (r : Region) :
    touchesRunning s acc r = true ↔ s.busy = true ∧ ((errorRegion s.latch).overlaps r = true
      ∨ acc = .write ∧ (readRegion s.latch).overlaps r = true) := by
  simp [touchesRunning]

/-- Where no range the engine wrote is left to invalidate, the host reads memory's bytes (R80). -/
theorem busByte_of_invalidated {s : State} {addr n k : Nat} (hk : k < n)
    (h : s.platform.coherent = true ∨ s.stale.any (·.overlaps ⟨addr, n⟩) = false) (who : Master) :
    busByte s who (addr + k) = readByte s.mem (addr + k) := by
  rcases h with coherent | invalidated
  · simp [busByte, coherent]
  · have fresh : s.stale.any (·.contains (addr + k)) = false := by
      rw [List.any_eq_false] at invalidated ⊢
      intro r hr
      have apart := invalidated r hr
      simp only [Region.overlaps, Region.contains, Bool.and_eq_true, decide_eq_true_eq] at apart ⊢
      omega
    simp [busByte, fresh]

theorem readBytes_eq_map (m : Memory) (a n : Nat) :
    readBytes m a n = (List.range n).map fun k => readByte m (a + k) := by
  apply List.ext_getElem
  · simp
  · intro i _ _
    simp [readBytes_getElem]

/-- Settles O58: the register block and memory, each by where the access goes. -/
theorem busAccessesReachTheirTarget : Obligations.BusAccessesReachTheirTarget := by
  intro s
  refine ⟨fun off v aligned h => ⟨act_wr s aligned h v, act_rd s aligned h⟩, ?store, ?load⟩
  case store =>
    intro addr bs hm top outside free
    have untouched : ¬ touchesRunning s .write ⟨addr.toNat, bs.length⟩ = true := by
      rw [touchesRunning_iff]
      rintro ⟨busy, touched | ⟨-, touched⟩⟩
      · exact Bool.eq_false_iff.mp (free busy).1 touched
      · exact Bool.eq_false_iff.mp (free busy).2 touched
    rw [act_store_memory (targetOf_memory top outside), if_neg untouched]
    obtain ⟨d, st, stored⟩ := storeBytes_cases .host addr.toNat bs s
    rw [stored]
    exact ⟨_, rfl, rfl, readBytes_writeBytes hm top,
      fun a away => readByte_writeBytes_outside hm away⟩
  case load =>
    intro addr n top fresh outside free
    have untouched : ¬ touchesRunning s .read ⟨addr.toNat, n⟩ = true := by
      rw [touchesRunning_iff]
      rintro ⟨busy, touched | ⟨write, -⟩⟩
      · exact Bool.eq_false_iff.mp (free busy) touched
      · exact nomatch write
    have bytes : ((List.range n).map fun k => busByte s .host (addr.toNat + k))
        = readBytes s.mem addr.toNat n := by
      rw [readBytes_eq_map]
      exact List.map_congr_left fun k hk =>
        busByte_of_invalidated (List.mem_range.mp hk) fresh .host
    rw [act_load_memory (targetOf_memory top outside), if_neg untouched, bytes, replyTo]

/-- Settles O59: each refusal by the test that gives it. -/
theorem refusedActionsStopByName : Obligations.RefusedActionsStopByName := by
  intro s
  refine ⟨fun who addr n bs top length => ⟨?badRegister, ?errorRegion, ?readRegion⟩,
    fun off bs aligned h length => act_other_register s aligned h length,
    fun run busy conflict => ?_, fun v idle conflict => ?_,
    fun v idle free incoherent dirty => ?_⟩
  case badRegister =>
    intro inside odd
    subst length
    rw [act, act, busLoad, busStore, targetOf_badRegister top inside odd]
    exact ⟨rfl, rfl⟩
  case errorRegion =>
    intro outside busy touched
    subst length
    have touches (acc : Access) : touchesRunning s acc ⟨addr.toNat, bs.length⟩ = true :=
      (touchesRunning_iff _ _ _).mpr ⟨busy, .inl touched⟩
    have target := targetOf_memory top outside
    rw [act_load_memory target, act_store_memory target, if_pos (touches _), if_pos (touches _)]
    exact ⟨rfl, rfl⟩
  case readRegion =>
    intro outside busy touched
    subst length
    rw [act_store_memory (targetOf_memory top outside),
      if_pos ((touchesRunning_iff _ _ _).mpr ⟨busy, .inr ⟨rfl, touched⟩⟩)]
  · simp [act, otherStarts, busy, conflict]
  · simp [writeCmd, busy_eq_false_iff.mpr idle, startCommand, conflict]
  · simp [writeCmd, busy_eq_false_iff.mpr idle, startCommand, free, incoherent, dirty]

end Sys2Proof.Proofs

namespace Sys2Proof.Proofs

open Sys2Proof.Machine Sys2Proof.Laws

/-! The stream forms (R150, R155, R160, R229 to R233): a block that passes its checks writes its
elements at dst + 8k on either engine, a block that fails one raises that check's error. -/

/-! ## Elements through the memory port -/

/-- Admitted elements below 2^64 read back. -/
theorem readElems_portWrite (p : Platform) {m : Memory} (hm : m.wf = true) {a n : Nat}
    {es : List Word} (length : es.length = n) (top : a + 8 * n ≤ Config.addressSpace)
    (admitted : admitsRegion p .write ⟨a, 8 * n⟩ = true) :
    readElems (portWrite p m a (elemBytes es)) a n = es := by
  have each : ∀ c, a ≤ c → c < a + (elemBytes es).length → memAdmits p .write c = true := by
    intro c hlo hhi
    rw [elemBytes_length, length] at hhi
    refine (admitsRegion_iff p .write _).mp admitted c ?_
    simp [Region.contains, hlo, hhi]
  subst length
  rw [portWrite_admitted p m a _ each]
  exact readElems_writeBytes hm top

/-- A byte outside the elements, and a byte the platform refuses, reads as before (R13, R67). -/
theorem readByte_portWrite_elems (p : Platform) {m : Memory} (hm : m.wf = true) {a n c : Nat}
    {es : List Word} (length : es.length = n)
    (h : c < a ∨ a + 8 * n ≤ c ∨ memAdmits p .write c = false) :
    readByte (portWrite p m a (elemBytes es)) c = readByte m c := by
  have size : (elemBytes es).length = 8 * n := by rw [elemBytes_length, length]
  rcases h with below | above | refused
  · exact portWrite_outside p hm (.inl below)
  · exact portWrite_outside p hm (.inr (by omega))
  · exact portWrite_refused p hm a _ refused

/-! ## The effect of a block -/

/-- R275: a block's effect on either engine, but for the lane registers. -/
theorem runBlock_eq (i : Instr) (s : State) :
    ∃ g, runBlock i s
        = { outElems (blockElems s.dec.prev i) s with
            dec := passBlock i (outElems (blockElems s.dec.prev i) s).dec, lanes := g }
      ∧ (runningEngine s = .scalar → g = s.lanes) := by
  rw [runBlock]
  cases runningEngine s with
  | scalar => exact ⟨s.lanes, rfl, fun _ => rfl⟩
  | vector =>
    refine ⟨(vecBlockElems Config.lanes s.dec.prev s.lanes i).regs, ?_, nofun⟩
    rw [← vecBlockElems_elems Config.lanes s.dec.prev s.lanes i]

/-- A block that passes its checks runs (R229). -/
theorem exec_passing {i : Instr} {s : State} (block : i.isBlock = true) (hdr : s.phase = .hdr)
    (passed : blockError i s = none) : exec i s = .next (runBlock i s) := by
  rw [exec_block block, execBlock, if_neg (not_not.mpr hdr), passed]

theorem exec_failing {i : Instr} {s : State} {e : ErrCode} (block : i.isBlock = true)
    (hdr : s.phase = .hdr) (failed : blockError i s = some e) :
    exec i s = .next (s.raiseDirty e) := by
  rw [exec_block block, execBlock, if_neg (not_not.mpr hdr), failed]

/-- The checks of R229 that need the decoder's state, as conditions under which a block passes. -/
theorem blockError_eq_none {i : Instr} {s : State}
    (reference : needsReference i = true → s.dec.hasPrev = true) (positive : 1 ≤ blockCount i)
    (fits : s.dec.p + i.byteLen ≤ s.dec.endOff)
    (wanted : s.dec.k + blockCount i ≤ s.latch.n.toNat) : blockError i s = none := by
  have known : ¬ (needsReference i && !s.dec.hasPrev) = true := by
    rw [Bool.and_eq_true, Bool.not_eq_true']
    rintro ⟨needs, missing⟩
    exact Bool.eq_false_iff.mp missing (reference needs)
  rw [blockError, if_neg known, if_neg (by omega), if_neg (by omega), if_neg (by omega)]

/-- The decoder's registers after a block that has an element: R168 and R233. -/
theorem passBlock_outElems {i : Instr} {s : State} {es : List Word} (nonempty : es ≠ [])
    (length : es.length = blockCount i) : passBlock i (outElems es s).dec
      = { s.dec with
          p := s.dec.p + i.byteLen, k := s.dec.k + blockCount i, prev := es.getLastD s.dec.prev
          hasPrev := true, kind := (blockShape i).1, w := (blockShape i).2.1, nb := blockCount i
          h := (blockShape i).2.2, j := blockCount i, q := s.dec.p + i.byteLen } := by
  have some : es.isEmpty = false := by simpa using nonempty
  simp [passBlock, some, length]

/-- What the block forms share: the elements go out, and the block is passed. -/
theorem exec_block_writes {i : Instr} {s : State} (block : i.isBlock = true)
    (hdr : s.phase = .hdr) (passed : blockError i s = none)
    (nonempty : blockElems s.dec.prev i ≠ [])
    (length : (blockElems s.dec.prev i).length = blockCount i) :
    ∃ lanes, exec i s = .next
        { s with
          mem := portWrite s.platform s.mem (s.latch.dst.toNat + 8 * s.dec.k)
            (elemBytes (blockElems s.dec.prev i))
          lanes := lanes
          dec := { s.dec with
            p := s.dec.p + i.byteLen, k := s.dec.k + blockCount i
            prev := (blockElems s.dec.prev i).getLastD s.dec.prev
            hasPrev := true, kind := (blockShape i).1, w := (blockShape i).2.1, nb := blockCount i
            h := (blockShape i).2.2, j := blockCount i, q := s.dec.p + i.byteLen } }
      ∧ (runningEngine s = .scalar → lanes = s.lanes)
      ∧ (s.mem.wf = true →
          (s.latch.dst.toNat + 8 * s.dec.k + 8 * blockCount i ≤ 2 ^ 64 →
            admitsRegion s.platform .write
              ⟨s.latch.dst.toNat + 8 * s.dec.k, 8 * blockCount i⟩ = true →
            readElems (portWrite s.platform s.mem (s.latch.dst.toNat + 8 * s.dec.k)
              (elemBytes (blockElems s.dec.prev i))) (s.latch.dst.toNat + 8 * s.dec.k)
              (blockCount i) = blockElems s.dec.prev i)
          ∧ ∀ a, (a < s.latch.dst.toNat + 8 * s.dec.k
              ∨ s.latch.dst.toNat + 8 * s.dec.k + 8 * blockCount i ≤ a
              ∨ memAdmits s.platform .write a = false) →
            readByte (portWrite s.platform s.mem (s.latch.dst.toNat + 8 * s.dec.k)
              (elemBytes (blockElems s.dec.prev i))) a = readByte s.mem a) := by
  obtain ⟨lanes, run, scalar⟩ := runBlock_eq i s
  refine ⟨lanes, ?_, scalar, fun hm => ⟨readElems_portWrite s.platform hm length,
    fun a => readByte_portWrite_elems s.platform hm length⟩⟩
  rw [exec_passing block hdr passed, run, passBlock_outElems nonempty length]
  rfl

/-- Settles O29: the last of the copies is V. -/
theorem repeatWritesItsCopies : Obligations.RepeatWritesItsCopies := by
  intro cnt v s at' m hdr positive fits wanted
  have passed : blockError (.repeatBlock cnt v) s = none :=
    blockError_eq_none nofun positive fits wanted
  have nonempty : List.replicate cnt.n v ≠ [] := by
    rw [Ne, List.replicate_eq_nil_iff]
    omega
  have last : (List.replicate cnt.n v).getLastD s.dec.prev = v := by
    rw [List.getLastD_eq_getLast?, List.getLast?_replicate, if_neg (by omega)]
    rfl
  have effect := exec_block_writes (i := .repeatBlock cnt v) rfl hdr passed nonempty
    (List.length_replicate (n := cnt.n))
  rwa [show blockElems s.dec.prev (.repeatBlock cnt v) = List.replicate cnt.n v from rfl, last]
    at effect

/-- Settles O30: the reference comes first, whatever went before. -/
theorem deltaExplicitWritesItsSums : Obligations.DeltaExplicitWritesItsSums := by
  intro cnt w ref zs s es len at' m hdr count fits wanted
  have passed : blockError (.deltaE cnt w ref zs) s = none :=
    blockError_eq_none nofun (Nat.le_of_add_left_le count.le) fits wanted
  have length : es.length = cnt.n := by
    rw [List.length_cons, reconstructAll_length, count]
  exact exec_block_writes (i := .deltaE cnt w ref zs) rfl hdr passed (List.cons_ne_nil _ _) length

/-- Settles O31: the sums start from the running reference. -/
theorem deltaInheritedWritesItsSums : Obligations.DeltaInheritedWritesItsSums := by
  intro cnt w zs s es len at' m hdr reference positive count fits wanted
  have passed : blockError (.deltaI cnt w zs) s = none :=
    blockError_eq_none (fun _ => reference) positive fits wanted
  have length : es.length = cnt.n := by rw [reconstructAll_length, count]
  have nonempty : es ≠ [] := List.ne_nil_of_length_pos (by omega)
  exact exec_block_writes (i := .deltaI cnt w zs) rfl hdr passed nonempty length

/-- Settles O32: the checks one after another. -/
theorem blocksFailInTheOrderOfTheChecks : Obligations.BlocksFailInTheOrderOfTheChecks := by
  intro i s block hdr
  have known (h : needsReference i = false ∨ s.dec.hasPrev = true) :
      ¬ (needsReference i && !s.dec.hasPrev) = true := by
    rcases h with h | h <;> simp [h]
  refine ⟨fun needs missing => ?_, fun reference positive short => ?_,
    fun reference positive fits few => ?_⟩ <;> refine exec_failing block hdr ?_
  · rw [blockError, if_pos (by simp [needs, missing])]
  · rw [blockError, if_neg (known reference), if_neg (by omega), if_pos short]
  · rw [blockError, if_neg (known reference), if_neg (by omega), if_neg (by omega), if_pos few]

/-! ## The footer -/

section
variable {s : State} (mark : s.phase = .mark)
include mark

theorem exec_footer_short (h : s.latch.srcLen.toNat < Config.footerBytes) :
    exec .footer s = .next (shortBuffer s) := by
  rw [exec, execFooter, if_neg (not_not.mpr mark), if_pos h]

/-- The marker opens the block region (R223). -/
theorem exec_footer_known (long : Config.footerBytes ≤ s.latch.srcLen.toNat)
    (known : readByte s.mem (s.latch.src.toNat + footerOffset s.latch) = Config.formatMarker) :
    exec .footer s = .next
      { s with phase := .hdr, dec := { s.dec with endOff := footerOffset s.latch } } := by
  rw [exec, execFooter, if_neg (not_not.mpr mark), if_neg (Nat.not_lt.mpr long),
    contains_recognizedMarkers.mpr known, Bool.not_true, if_neg Bool.false_ne_true]

/-- Another marker ends the command (R223). -/
theorem exec_footer_unknown (long : Config.footerBytes ≤ s.latch.srcLen.toNat)
    (unknown : readByte s.mem (s.latch.src.toNat + footerOffset s.latch) ≠ Config.formatMarker) :
    exec .footer s = .next (s.raiseDirty .unsupportedFormat) := by
  have refused := Bool.eq_false_iff.mpr fun h => unknown (contains_recognizedMarkers.mp h)
  rw [exec, execFooter, if_neg (not_not.mpr mark), if_neg (Nat.not_lt.mpr long), refused,
    Bool.not_false, if_pos rfl]

end

/-- Settles O33: the marker, and the buffers too short for one. -/
theorem footerOpensTheBlockRegion : Obligations.FooterOpensTheBlockRegion := by
  intro s mark off
  have short (h : s.latch.srcLen = 0#64) : s.latch.srcLen.toNat < Config.footerBytes := by
    rw [h]
    decide
  refine ⟨exec_footer_known mark, exec_footer_unknown mark, fun few some => ?_,
    fun none wanted => ?_, fun none unwanted => ?_⟩
  · rw [exec_footer_short mark few, shortBuffer, if_neg fun h => some h.1, if_neg some]
  · rw [exec_footer_short mark (short none), shortBuffer, if_neg fun h => wanted h.2, if_pos none]
  · rw [exec_footer_short mark (short none), shortBuffer, if_pos ⟨none, unwanted⟩]
    rfl

/-! ## The checks by offsets and by bytes (R229, R237) -/

theorem readBytes_take (m : Memory) (a : Nat) {n k : Nat} (h : k ≤ n) :
    (readBytes m a n).take k = readBytes m a k := by
  rw [← Nat.add_sub_cancel' h, readBytes_append, List.take_left' (readBytes_length m a k)]

theorem readBytes_drop (m : Memory) (a : Nat) {n k : Nat} (h : k ≤ n) :
    (readBytes m a n).drop k = readBytes m (a + k) (n - k) := by
  conv_lhs => rw [← Nat.add_sub_cancel' h, readBytes_append]
  rw [List.drop_left' (readBytes_length m a k)]

/-- A DELTA.I with no element before it (R105). -/
abbrev MissesReference (k : BlockKind) (s : State) : Prop :=
  k = .deltaI ∧ s.dec.hasPrev = false

/-- A missing reference is reported first (R229). -/
theorem rejectCode_of_missing {k : BlockKind} {s : State} (h : MissesReference k s) :
    rejectCode s.dec.hasPrev (.truncatedCount k) = .unsupportedFormat
      ∧ rejectCode s.dec.hasPrev (.truncatedPayload k) = .unsupportedFormat := by
  obtain ⟨rfl, missing⟩ := h
  simp [rejectCode, missing]

theorem rejectCode_of_known {k : BlockKind} {s : State} (h : ¬ MissesReference k s) :
    rejectCode s.dec.hasPrev (.truncatedCount k) = .truncatedInput
      ∧ rejectCode s.dec.hasPrev (.truncatedPayload k) = .truncatedInput := by
  cases k <;> simp_all [MissesReference, rejectCode]

section
variable {s : State} {k : BlockKind} {w : WidthCode} {c : Nat}

/-- The bytes after the selector at p, up to the footer. -/
def blockTail (s : State) : List Byte := streamAt s (s.dec.p + 1) (s.dec.endOff - s.dec.p - 1)

theorem blockBytesAt_eq (left : s.dec.p < s.dec.endOff) :
    blockBytesAt s = streamByte s s.dec.p :: blockTail s := by
  have size : s.dec.endOff - s.dec.p = s.dec.endOff - s.dec.p - 1 + 1 := by omega
  rw [blockBytesAt, size]
  rfl

/-- The count's checks by bytes are those by offsets (R227, R229). -/
theorem decodeCount_blockTail (left : s.dec.p < s.dec.endOff) : decodeCount k c (blockTail s)
    = if c = 15 then
        if s.dec.endOff < s.dec.p + 5 then .error (.truncatedCount k)
        else if rdLE (streamAt s (s.dec.p + 1) 4) = 0 then .error (.zeroCount k)
        else .ok (⟨rdLE (streamAt s (s.dec.p + 1) 4), true⟩, (blockTail s).drop 4)
      else .ok (⟨c + 1, false⟩, blockTail s) := by
  have size : (blockTail s).length = s.dec.endOff - s.dec.p - 1 := readBytes_length _ _ _
  have short : (blockTail s).length < 4 ↔ s.dec.endOff < s.dec.p + 5 := by omega
  rw [decodeCount]
  simp only [short]
  by_cases cut : s.dec.endOff < s.dec.p + 5
  · simp only [if_pos cut]
  · have field : (blockTail s).take 4 = streamAt s (s.dec.p + 1) 4 :=
      readBytes_take _ _ (by omega)
    simp only [if_neg cut, field]

/-- A count that is refused by bytes is refused by offsets with its code. -/
theorem headerAt_of_refused_count (left : s.dec.p < s.dec.endOff)
    (selector : decodeSelector (streamByte s s.dec.p) = some (k, w, c)) {r : Reject}
    (count : decodeCount k c (blockTail s) = .error r) :
    headerAt s = .error (rejectCode s.dec.hasPrev r) := by
  rw [decodeCount_blockTail left] at count
  unfold headerAt
  rw [selector]
  by_cases missing : k = .deltaI ∧ s.dec.hasPrev = false
  · obtain ⟨rfl, noReference⟩ := missing
    split_ifs at count <;> cases count <;> simp [noReference, rejectCode]
  · have codes := (rejectCode_of_known missing).1
    split_ifs at count with long cut zero <;> cases count
    · simp [missing, long, cut, codes]
    · simp [missing, long, cut, zero, rejectCode]

/-- The header's checks by offsets once its count is read: reference, payload, excess (R229). -/
theorem headerAt_of_count (left : s.dec.p < s.dec.endOff)
    (selector : decodeSelector (streamByte s s.dec.p) = some (k, w, c)) {cnt : BlockCount}
    {body : List Byte} (count : decodeCount k c (blockTail s) = .ok (cnt, body)) :
    s.dec.p + hdrLen cnt + body.length = s.dec.endOff
      ∧ headerAt s = if MissesReference k s then .error .unsupportedFormat
        else if s.dec.endOff < s.dec.p + hdrLen cnt + payLen k w cnt.n then .error .truncatedInput
        else if s.latch.n.toNat - s.dec.k < cnt.n then .error .lengthMismatch
        else .ok ⟨k, w, cnt.n, hdrLen cnt⟩ := by
  have size : (blockTail s).length = s.dec.endOff - s.dec.p - 1 := readBytes_length _ _ _
  rw [decodeCount_blockTail left] at count
  unfold headerAt MissesReference
  rw [selector]
  split_ifs at count with long cut zero <;> cases count
  · refine ⟨by rw [hdrLen, if_pos rfl, List.length_drop]; omega, ?_⟩
    simp [long, cut, zero, hdrLen]
  · refine ⟨by rw [hdrLen, if_neg Bool.false_ne_true]; omega, ?_⟩
    simp [long, hdrLen]

/-- The checks on a block that decoded, in the terms of its header. -/
theorem blockError_decodePayload (cnt : BlockCount) (body : List Byte) (positive : 1 ≤ cnt.n) :
    blockError (decodePayload k w cnt body) s
      = if MissesReference k s then some .unsupportedFormat
        else if s.dec.endOff < s.dec.p + hdrLen cnt + payLen k w cnt.n then some .truncatedInput
        else if s.latch.n.toNat - s.dec.k < cnt.n then some .lengthMismatch
        else none := by
  have some : cnt.n ≠ 0 := by omega
  cases k <;>
    simp [blockError, decodePayload, needsReference, MissesReference, blockCount, Instr.byteLen,
      payLen, some, Nat.add_assoc] <;>
    rfl

theorem blockShape_decodePayload (cnt : BlockCount) (body : List Byte)
    (noWidth : k = .repeatRun → w = 0) :
    blockShape (decodePayload k w cnt body) = (k, w, hdrLen cnt)
      ∧ blockCount (decodePayload k w cnt body) = cnt.n := by
  cases k <;> simp_all [blockShape, decodePayload, blockCount]

end

/-- Bytes that decode to no block fail a check by offsets, with the same code. -/
theorem headerAt_of_refused {s : State} (left : s.dec.p < s.dec.endOff) {r : Reject}
    (refused : decodeBlock (blockBytesAt s) = .error r) :
    headerAt s = .error (rejectCode s.dec.hasPrev r) := by
  rw [blockBytesAt_eq left, decodeBlock] at refused
  cases selector : decodeSelector (streamByte s s.dec.p) with
  | none =>
    simp only [selector, Except.error.injEq] at refused
    subst refused
    simp [headerAt, selector, rejectCode]
  | some parts =>
    obtain ⟨k, w, c⟩ := parts
    cases count : decodeCount k c (blockTail s) with
    | error r' =>
      simp only [selector, count, Except.error.injEq] at refused
      subst refused
      exact headerAt_of_refused_count left selector count
    | ok found =>
      obtain ⟨cnt, body⟩ := found
      obtain ⟨size, header⟩ := headerAt_of_count left selector count
      simp only [selector, count] at refused
      split_ifs at refused with short
      cases refused
      rw [header]
      by_cases missing : MissesReference k s
      · rw [if_pos missing, (rejectCode_of_missing missing).2]
      · rw [if_neg missing, if_pos (by omega), (rejectCode_of_known missing).2]

/-- Bytes that decode to a block have its header, and fail its checks. -/
theorem headerAt_of_decoded {s : State} (left : s.dec.p < s.dec.endOff) {i : Instr}
    {rest : List Byte} (decoded : decodeBlock (blockBytesAt s) = .ok (i, rest)) :
    headerAt s = match blockError i s with
      | some e => .error e
      | none => .ok ⟨(blockShape i).1, (blockShape i).2.1, blockCount i, (blockShape i).2.2⟩ := by
  obtain ⟨sel, tail, k, w, c, cnt, body, bytes, selector, count, fits, rfl, -⟩ :=
    decodeBlock_ok decoded
  rw [blockBytesAt_eq left] at bytes
  obtain ⟨rfl, rfl⟩ := List.cons.inj bytes
  obtain ⟨-, small, noWidth⟩ := selectorByte_of_decodeSelector selector
  obtain ⟨countWf, -⟩ := encodeHeader_of_decodeCount small count w
  obtain ⟨positive, -⟩ := (blockCount_wf_iff cnt).mp countWf
  obtain ⟨shape, blockCount⟩ := blockShape_decodePayload cnt body noWidth
  rw [(headerAt_of_count left selector count).2, blockError_decodePayload cnt body positive, shape,
    blockCount]
  split_ifs <;> rfl

/-- Settles O34: by whether the bytes decode. -/
theorem headerChecksAgreeWithDecoding : Obligations.HeaderChecksAgreeWithDecoding := by
  intro s left
  cases decoded : decodeBlock (blockBytesAt s) with
  | error r => exact headerAt_of_refused left decoded
  | ok found =>
    have header := headerAt_of_decoded left (i := found.1) (rest := found.2) decoded
    dsimp only
    rw [header]
    cases blockError found.1 s <;> rfl

end Sys2Proof.Proofs

namespace Sys2Proof.Proofs

open Sys2Proof.Machine Sys2Proof.Laws

/-! The engine steps of the commands, by phase (R200, R237, R269, R276). -/

section
variable (kind : ElemKind) {s : State}

theorem exec_scan (h : s.phase = .scan) : exec (.compressS kind) s = .next (scanStep s) := by
  simp [exec, execCompressS, h]

theorem exec_vecOpen (h : s.phase = .vOpen) :
    exec (.compressV kind) s = .next (vecOpenStep s) := by
  simp [exec, execCompressV, h]

theorem exec_vecLane (h : s.phase = .vLane) :
    exec (.compressV kind) s = .next (vecLaneStep s) := by
  simp [exec, execCompressV, h]

theorem exec_vecTail (h : s.phase = .vTail) :
    exec (.compressV kind) s = .next (vecTailStep s) := by
  simp [exec, execCompressV, h]

theorem exec_vecEmit (h : s.phase = .vEmit) :
    exec (.compressV kind) s = .next (vecEmitStep s) := by
  simp [exec, execCompressV, h]

theorem exec_closeStream {eng : EngineSel} (h : s.phase = encoderEnd eng) :
    exec (compressOn eng kind) s = .next (closeStream s) := by
  cases eng <;> simp_all [exec, compressOn, encoderEnd, execCompressS, execCompressV]

theorem exec_header (eng : EngineSel) (h : s.phase = .hdr) :
    exec (decompressOn eng kind) s = .next (headerStep s) := by
  cases eng <;> simp [exec, decompressOn, execDecompressS, execDecompressV, h]

theorem exec_element {eng : EngineSel} (h : s.phase = elementPhase eng) :
    exec (decompressOn eng kind) s = .next (elemStep s) := by
  cases eng <;> simp_all [exec, decompressOn, elementPhase, execDecompressS, execDecompressV]

theorem exec_lane (h : s.phase = .dLane) : exec (.decompressV kind) s = .next (laneStep s) := by
  simp [exec, execDecompressV, h]

theorem exec_finish (eng : EngineSel) (h : s.phase = .fin) :
    exec (decompressOn eng kind) s = .next (finishStep s) := by
  cases eng <;> simp [exec, decompressOn, execDecompressS, execDecompressV, h]

end

/-! ## The decoder's header and end -/

section
variable {s : State}

theorem headerStep_of_done (done : s.dec.k = s.latch.n.toNat) :
    headerStep s = { s with phase := .fin } :=
  if_pos done

theorem headerStep_of_exhausted (wanted : s.dec.k ≠ s.latch.n.toNat)
    (exhausted : s.dec.p = s.dec.endOff) : headerStep s = s.raiseDirty .lengthMismatch := by
  rw [headerStep, if_neg wanted, if_pos exhausted]

theorem headerStep_of_error (wanted : s.dec.k ≠ s.latch.n.toNat) (left : s.dec.p ≠ s.dec.endOff)
    {e : ErrCode} (failed : headerAt s = .error e) : headerStep s = s.raiseDirty e := by
  rw [headerStep, if_neg wanted, if_neg left, failed]

/-- The decoder's registers with the block of a header open (R237). -/
def openedBlock (b : BlockHeader) (d : DecRegs) : DecRegs :=
  { d with kind := b.kind, w := b.w, nb := b.nb, h := b.h, j := 0, q := d.p + b.h }

theorem headerStep_of_ok (wanted : s.dec.k ≠ s.latch.n.toNat) (left : s.dec.p ≠ s.dec.endOff)
    {b : BlockHeader} (passed : headerAt s = .ok b) : headerStep s
      = { s with
          dec := openedBlock b s.dec
          phase := bodyPhase (runningEngine s) (openedBlock b s.dec) } := by
  rw [headerStep, if_neg wanted, if_neg left, passed]
  rfl

end

/-- Settles O35: the branches of HDR and FIN. -/
theorem decoderHeaderAndEndSteps : Obligations.DecoderHeaderAndEndSteps := by
  intro kind s
  have header (h : s.phase = .hdr) : exec (.decompressS kind) s = .next (headerStep s) :=
    exec_header kind .scalar h
  have finish (h : s.phase = .fin) : exec (.decompressS kind) s = .next (finishStep s) :=
    exec_finish kind .scalar h
  refine ⟨fun h done => ?_, fun h wanted exhausted => ?_, fun b h wanted left passed scalar => ?_,
    fun e h wanted left failed => ?_, fun h used => ?_, fun h unused => ?_⟩
  · rw [header h, headerStep_of_done done]
  · rw [header h, headerStep_of_exhausted wanted exhausted]
  · rw [header h, headerStep_of_ok wanted left passed, scalar]
    rfl
  · rw [header h, headerStep_of_error wanted left failed]
  · rw [finish h, finishStep, if_pos used]
    rfl
  · rw [finish h, finishStep, if_neg unused]

/-! ## The encoder's scan -/

section
variable {s : State}

theorem scanStep_of_end (closed : s.enc.isOpen = false) (atEnd : s.latch.n.toNat ≤ s.enc.i) :
    scanStep s = { s with phase := .encFooter } := by
  simp [scanStep, closed, Nat.not_lt.mpr atEnd]

theorem scanStep_of_opening (closed : s.enc.isOpen = false) (inside : s.enc.i < s.latch.n.toNat) :
    scanStep s = { s with enc := openBlockRegs (inputElem s) s.latch.n.toNat s.enc } := by
  simp [scanStep, closed, inside]

/-- The open block goes on with its next element (R183). -/
abbrev OpenGoesOn (s : State) : Prop :=
  GoesOn Config.maxBlock (inputElem s) s.latch.n.toNat s.enc.mode s.enc.s s.enc.w s.enc.nb

theorem scanStep_of_growing (opened : s.enc.isOpen = true) (goes : OpenGoesOn s) :
    scanStep s = { s with enc := { s.enc with nb := s.enc.nb + 1 } } := by
  rw [scanStep]
  exact (if_pos opened).trans (if_pos goes)

theorem scanStep_of_closing (opened : s.enc.isOpen = true) (stops : ¬ OpenGoesOn s) :
    scanStep s = closeBlock s := by
  rw [scanStep]
  exact (if_pos opened).trans (if_neg stops)

end

/-- R183 with the modes spelled out: equal to the first, or a class the width covers. -/
theorem cont_iff (x : Nat → Word) (mode : Mode) (s : Nat) (w : WidthCode) (j : Nat) :
    cont x mode s w j = true
      ↔ if mode = .repeatMode then x j = x s else wc (zz (x j - x (j - 1))) ≤ w := by
  cases mode with
  | repeatMode => exact decide_eq_true_iff
  | deltaE => exact decide_eq_true_iff
  | deltaI => exact decide_eq_true_iff

/-- Settles O23: the branches of SCAN, and the footer. -/
theorem scalarEncoderSteps : Obligations.ScalarEncoderSteps := by
  intro kind s n x e j opensRepeat goesOn block
  have goes : goesOn ↔ OpenGoesOn s := by
    rw [OpenGoesOn, GoesOn, cont_iff]
    exact Iff.rfl
  have opening (h : s.phase = .scan) (closed : e.isOpen = false) (inside : e.i < n) {mode : Mode}
      (opens : openMode x n e.i = mode) : exec (.compressS kind) s = .next
        { s with enc := { e with
            s := e.i, mode := mode, w := openWidth x mode e.i, nb := openSize mode
            isOpen := true } } := by
    subst opens
    rw [exec_scan kind h, scanStep_of_opening closed inside]
    rfl
  refine ⟨fun h closed atEnd => ?_, fun h closed inside repeats => ?_,
    fun h closed inside differs first => ?_, fun h closed inside differs later => ?_,
    fun h opened continues => ?_, fun h opened stops => ?_, fun h => ?_⟩
  · rw [exec_scan kind h, scanStep_of_end closed atEnd]
  · exact opening h closed inside (if_pos repeats)
  · rw [opening h closed inside ((if_neg differs).trans (if_pos first)), first]
    rfl
  · exact opening h closed inside ((if_neg differs).trans (if_neg later))
  · rw [exec_scan kind h, scanStep_of_growing opened (goes.mp continues)]
  · rw [exec_scan kind h, scanStep_of_closing opened fun h => stops (goes.mpr h)]
    rfl
  · exact exec_closeStream kind (eng := .scalar) h

/-- The value of a lane: the element for REPEAT, else its zig-zag delta (R264). -/
theorem laneValues_getElem {lanes : Nat} (x : Nat → Word) (mode : Mode) (j : Nat) (k : Fin lanes) :
    (laneValues lanes x mode j)[k]
      = if mode = .repeatMode then x (j + k.val) else zz (x (j + k.val) - x (j + k.val - 1)) := by
  cases mode <;> simp [laneValues, foldDelta, delta]

/-- The predicate of a lane (R264). -/
theorem lanePreds_getElem {lanes : Nat} (maxB : Nat) (x : Nat → Word) (mode : Mode) (s : Nat)
    (w : WidthCode) (nb : Nat) (k : Fin lanes) : (lanePreds lanes maxB x mode s w nb)[k]
      = (cont x mode s w (s + nb + k.val) && decide (nb + k.val < maxB)) := by
  simp [lanePreds]

/-- Settles O24: the lanes that commit are the leading run of true predicates. -/
theorem encoderLaneStepCommitsThePrefix : Obligations.EncoderLaneStepCommitsThePrefix := by
  intro kind s x e j h
  have few : committed 8 (2 ^ 32 - 1) x e.mode e.s e.w e.nb ≤ 8 := committed_le
  refine ⟨vecLaneStep s, exec_vecLane kind h,
    fun k => ⟨laneValues_getElem x e.mode j k, lanePreds_getElem _ x e.mode e.s e.w e.nb k⟩, few,
    fun k before => ?_, fun k first => ?_, rfl, fun part => if_pos part, fun all => ?_,
    rfl, rfl, rfl, rfl⟩
  · obtain ⟨continues, room⟩ := committed_goes before
    exact (lanePreds_getElem _ x e.mode e.s e.w e.nb k).trans
      (Bool.and_eq_true_iff.mpr ⟨continues, decide_eq_true room⟩)
  · refine (lanePreds_getElem _ x e.mode e.s e.w e.nb k).trans ?_
    have stops := committed_stops (first ▸ k.isLt)
    rw [first]
    exact Bool.eq_false_iff.mpr fun goes =>
      stops ((Bool.and_eq_true_iff.mp goes).imp_right of_decide_eq_true)
  · refine (if_neg (Nat.not_lt.mpr all.ge)).trans ?_
    change growPhase _ { e with nb := e.nb + (vecLaneStep s).lanes.m } = _
    rw [all, growPhase, ← Nat.add_assoc]
    rfl

end Sys2Proof.Proofs

namespace Sys2Proof.Proofs

open Sys2Proof.Machine Sys2Proof.Laws

/-! Inside a block (R237, R271, R272): every step of the decoder there puts out the next elements of
the block and moves to the field after them. -/

/-- Elements of the open block put out, the next field at `q`, the lane registers as `g`. -/
def takeElems (es : List Word) (q : Nat) (g : LaneRegs) (s : State) : State :=
  settleBlock { outElems es s with
    dec := { (outElems es s).dec with j := s.dec.j + es.length, q := q }, lanes := g }

/-! ## What each step takes -/

/-- The element of the open block that the field at q stands for (R150, R155, R160). -/
def nextElem (s : State) : Word :=
  match s.dec.kind with
  | .repeatRun => rdWord (streamAt s s.dec.q 8)
  | .deltaE =>
    if s.dec.j = 0 then rdWord (streamAt s s.dec.q 8)
    else reconstruct s.dec.prev (rdWord (streamAt s s.dec.q (bytesOf s.dec.w)))
  | .deltaI => reconstruct s.dec.prev (rdWord (streamAt s s.dec.q (bytesOf s.dec.w)))

/-- How far the field of the next element lies after the field at q. -/
def fieldStep (d : DecRegs) : Nat :=
  match d.kind with
  | .repeatRun => 0
  | .deltaE => if d.j = 0 then 8 else bytesOf d.w
  | .deltaI => bytesOf d.w

theorem elemStep_eq (s : State) :
    elemStep s = takeElems [nextElem s] (s.dec.q + fieldStep s.dec) s.lanes s := by
  unfold elemStep nextElem fieldStep
  dsimp only
  cases kind : s.dec.kind with
  | repeatRun => rfl
  | deltaE =>
    by_cases first : s.dec.j = 0
    · simp only [takeElems, first]
      rfl
    · simp only [if_neg first]
      rfl
  | deltaI => rfl

/-- The elements of LANES fields at q (R271). -/
def laneElems (s : State) : List Word :=
  reconstructAll s.dec.prev
    (decodeFields s.dec.w Config.lanes (streamAt s s.dec.q (Config.lanes * bytesOf s.dec.w)))

theorem laneElems_length (s : State) : (laneElems s).length = Config.lanes := by
  rw [laneElems, reconstructAll_length, decodeFields_length]

theorem deltaLaneStep_eq (s : State) : deltaLaneStep s
    = takeElems (laneElems s) (s.dec.q + Config.lanes * bytesOf s.dec.w)
        { s.lanes with v := laneFile (laneElems s), m := Config.lanes } s := by
  have length := laneElems_length s
  unfold deltaLaneStep takeElems
  simp only [prefixSums_unzz]
  rw [length]
  rfl

/-- The value V of an open REPEAT (R150). -/
def nextCopy (s : State) : Word := rdWord (streamAt s s.dec.q 8)

/-- A lane step of a REPEAT takes up to LANES copies (R272). -/
theorem repeatLaneStep_eq (s : State) : repeatLaneStep s
    = takeElems (List.replicate (min Config.lanes (s.dec.nb - s.dec.j)) (nextCopy s)) s.dec.q
        { s.lanes with
          v := Vector.replicate Config.lanes (nextCopy s)
          m := min Config.lanes (s.dec.nb - s.dec.j) } s := by
  unfold repeatLaneStep takeElems
  rw [List.length_replicate]
  rfl

theorem laneStep_of_delta {s : State} (h : s.dec.kind ≠ .repeatRun) :
    laneStep s = deltaLaneStep s := by
  unfold laneStep
  cases kind : s.dec.kind with
  | repeatRun => exact absurd kind h
  | deltaE => rfl
  | deltaI => rfl

theorem laneStep_of_repeat {s : State} (h : s.dec.kind = .repeatRun) :
    laneStep s = repeatLaneStep s := by
  rw [laneStep, h]

/-! ## What taking elements leaves -/

section
variable (es : List Word) (q : Nat) (g : LaneRegs) (s : State)

/-- The decoder's registers with elements of the open block taken. -/
def tookElems : DecRegs :=
  { s.dec with
    k := s.dec.k + es.length, prev := es.getLastD s.dec.prev
    hasPrev := s.dec.hasPrev || !es.isEmpty, j := s.dec.j + es.length, q := q }

/-- More of the block is left: the body goes on. -/
theorem takeElems_of_more (more : s.dec.j + es.length < s.dec.nb) : takeElems es q g s
    = { s with
        mem := portWrite s.platform s.mem (s.latch.dst.toNat + 8 * s.dec.k) (elemBytes es)
        dec := tookElems es q s, lanes := g
        phase := bodyPhase (runningEngine s) (tookElems es q s) } :=
  if_neg (Nat.not_le.mpr more)

/-- The block is done: p stands after it (R237). -/
theorem takeElems_of_all (all : s.dec.nb ≤ s.dec.j + es.length) : takeElems es q g s
    = { s with
        mem := portWrite s.platform s.mem (s.latch.dst.toNat + 8 * s.dec.k) (elemBytes es)
        dec := { tookElems es q s with
          p := s.dec.p + s.dec.h + payLen s.dec.kind s.dec.w s.dec.nb }
        lanes := g, phase := .hdr } :=
  if_pos all

@[simp] theorem takeElems_mem : (takeElems es q g s).mem
    = portWrite s.platform s.mem (s.latch.dst.toNat + 8 * s.dec.k) (elemBytes es) := by
  rw [takeElems, settleBlock]
  split <;> rfl

end

section
variable (xs ys : List Word)

theorem getLastD_getLastD (d : Word) : ys.getLastD (xs.getLastD d) = (xs ++ ys).getLastD d := by
  cases ys <;> simp

/-- Elements written one run after another are the runs written together. -/
theorem portWrite_elems_append (p : Platform) (m : Memory) (dst k : Nat) :
    portWrite p (portWrite p m (dst + 8 * k) (elemBytes xs)) (dst + 8 * (k + xs.length))
        (elemBytes ys) = portWrite p m (dst + 8 * k) (elemBytes (xs ++ ys)) := by
  rw [elemBytes_append, portWrite_append, elemBytes_length, Nat.mul_add, Nat.add_assoc dst]

/-- Where the block goes on between them, two takings are one. -/
theorem takeElems_takeElems {q : Nat} {g : LaneRegs} {s : State}
    (more : s.dec.j + xs.length < s.dec.nb) (q' : Nat) (g' : LaneRegs) :
    takeElems ys q' g' (takeElems xs q g s) = takeElems (xs ++ ys) q' g' s := by
  have flag : (s.dec.hasPrev || !xs.isEmpty || !ys.isEmpty)
      = (s.dec.hasPrev || !(xs ++ ys).isEmpty) := by
    cases xs <;> simp
  have length : s.dec.j + xs.length + ys.length = s.dec.j + (xs ++ ys).length := by
    rw [List.length_append, Nat.add_assoc]
  rw [takeElems_of_more xs q g s more]
  rcases Nat.lt_or_ge (s.dec.j + (xs ++ ys).length) s.dec.nb with rest | all
  · rw [takeElems_of_more (xs ++ ys) q' g' s rest,
      takeElems_of_more ys q' g' _ (length.trans_lt rest)]
    simp only [tookElems, portWrite_elems_append, getLastD_getLastD, flag, List.length_append,
      Nat.add_assoc]
    rfl
  · have all' : (tookElems xs q s).nb ≤ (tookElems xs q s).j + ys.length := all.trans length.ge
    rw [takeElems_of_all (xs ++ ys) q' g' s all, takeElems_of_all ys q' g' _ all']
    simp only [tookElems, portWrite_elems_append, getLastD_getLastD, flag, List.length_append,
      Nat.add_assoc]

end

end Sys2Proof.Proofs

namespace Sys2Proof.Proofs

open Sys2Proof.Machine Sys2Proof.Laws

/-! Soundness as facts on numbers: the phases of each command, the bounds of its registers, and that
elements and bytes within those bounds stay in the command's error region (R71, R169, R232). -/

/-! ## The phases of a command -/

def encoderPhases : EngineSel → List Phase
  | .scalar => [.scan, .encFooter]
  | .vector => [.vOpen, .vLane, .vTail, .vEmit, .vFoot]

def decoderPhases : EngineSel → List Phase
  | .scalar => [.mark, .hdr, .elem, .fin]
  | .vector => [.mark, .hdr, .dLane, .dTail, .fin]

section
variable {s : State} {eng : EngineSel} {kind : ElemKind}

theorem phaseFits_of_compressOn (cmd : decodeCommand s.latch.cmd = .ok (compressOn eng kind))
    (phase : s.phase ∈ encoderPhases eng) : phaseFits s = true := by
  unfold phaseFits
  rw [cmd]
  cases eng <;> simp only [encoderPhases, List.mem_cons, List.not_mem_nil, or_false] at phase
  · rcases phase with h | h <;> rw [h] <;> rfl
  · rcases phase with h | h | h | h | h <;> rw [h] <;> rfl

theorem phaseFits_of_decompressOn (cmd : decodeCommand s.latch.cmd = .ok (decompressOn eng kind))
    (phase : s.phase ∈ decoderPhases eng) : phaseFits s = true := by
  unfold phaseFits
  rw [cmd]
  cases eng <;> simp only [decoderPhases, List.mem_cons, List.not_mem_nil, or_false] at phase
  · rcases phase with h | h | h | h <;> rw [h] <;> rfl
  · rcases phase with h | h | h | h | h <;> rw [h] <;> rfl

/-- A running command past CHECK is a COMPRESS or a DECOMPRESS, in a phase of its engine. -/
theorem command_of_phaseFits (fits : phaseFits s = true) (busy : s.phase ≠ .idle)
    (started : s.phase ≠ .check) :
    (∃ eng kind, decodeCommand s.latch.cmd = .ok (compressOn eng kind)
        ∧ s.phase ∈ encoderPhases eng)
      ∨ ∃ eng kind, decodeCommand s.latch.cmd = .ok (decompressOn eng kind)
        ∧ s.phase ∈ decoderPhases eng := by
  unfold phaseFits at fits
  split at fits
  case h_1 _ phase => exact absurd phase busy
  case h_2 _ phase => exact absurd phase started
  case h_3 kind phase cmd | h_4 kind phase cmd =>
    exact .inl ⟨.scalar, kind, cmd, by simp [encoderPhases, phase]⟩
  case h_5 kind phase cmd | h_6 kind phase cmd | h_7 kind phase cmd | h_8 kind phase cmd
      | h_9 kind phase cmd =>
    exact .inl ⟨.vector, kind, cmd, by simp [encoderPhases, phase]⟩
  case h_10 kind phase cmd | h_12 kind phase cmd | h_14 kind phase cmd | h_17 kind phase cmd =>
    exact .inr ⟨.scalar, kind, cmd, by simp [decoderPhases, phase]⟩
  case h_11 kind phase cmd | h_13 kind phase cmd | h_15 kind phase cmd | h_16 kind phase cmd
      | h_18 kind phase cmd =>
    exact .inr ⟨.vector, kind, cmd, by simp [decoderPhases, phase]⟩
  case h_19 => exact absurd fits (by decide)

/-- At a stream form a DECOMPRESS runs. -/
theorem decompress_of_stream (fits : phaseFits s = true)
    (stream : s.phase = .mark ∨ s.phase = .hdr) :
    ∃ eng kind, decodeCommand s.latch.cmd = .ok (decompressOn eng kind) := by
  have busy : s.phase ≠ .idle := by rcases stream with h | h <;> simp [h]
  have started : s.phase ≠ .check := by rcases stream with h | h <;> simp [h]
  rcases command_of_phaseFits fits busy started with ⟨eng, kind, -, phase⟩ | ⟨eng, kind, cmd, -⟩
  · cases eng <;> rcases stream with h | h <;> simp [encoderPhases, h] at phase
  · exact ⟨eng, kind, cmd⟩

/-- The engine a DECOMPRESS runs on (R112). -/
theorem runningEngine_of_decompressOn
    (cmd : decodeCommand s.latch.cmd = .ok (decompressOn eng kind)) : runningEngine s = eng := by
  rw [runningEngine]
  rcases decodeCommand_spec cmd with ⟨e, k, h⟩ | ⟨k, h⟩ | ⟨k, h⟩ <;>
    cases eng <;> cases engine : decodeEngine s.latch.cmd <;>
    simp_all [compressOn, decompressOn]

end

/-! ## The bounds -/

section
variable {s : State}

theorem sound_iff : s.sound = true
    ↔ s.mem.wf = true ∧ phaseFits s = true ∧ engineBounded s = true := by
  simp only [State.sound, Bool.and_eq_true, and_assoc]

theorem encBetween_iff : encBetween s = true ↔ argsOk .compress s.latch = true
    ∧ maxCompressedSize s.latch.n.toNat ≤ s.latch.cap.toNat ∧ s.enc.i ≤ s.latch.n.toNat
    ∧ s.enc.o ≤ 9 * s.enc.i := by
  simp only [encBetween, Bool.and_eq_true, decide_eq_true_eq, and_assoc]

theorem encOpen_iff : encOpen s = true ↔ encBetween s = true ∧ s.enc.isOpen = true
    ∧ s.enc.s = s.enc.i ∧ 1 ≤ s.enc.nb ∧ s.enc.nb ≤ Config.maxBlock
    ∧ s.enc.s + s.enc.nb ≤ s.latch.n.toNat := by
  simp only [encOpen, Bool.and_eq_true, decide_eq_true_eq, and_assoc]

theorem encGrows_iff : encGrows s = true
    ↔ s.enc.s + s.enc.nb < s.latch.n.toNat ∧ s.enc.nb < Config.maxBlock := by
  simp only [encGrows, Bool.and_eq_true, decide_eq_true_eq]

theorem decBetween_iff : decBetween s = true ↔ argsOk .decompress s.latch = true
    ∧ Config.footerBytes ≤ s.latch.srcLen.toNat ∧ s.dec.endOff = footerOffset s.latch
    ∧ s.dec.p ≤ s.dec.endOff ∧ s.dec.k ≤ s.latch.n.toNat := by
  simp only [decBetween, Bool.and_eq_true, decide_eq_true_eq, and_assoc]

theorem decInside_iff : decInside s = true ↔ decBetween s = true ∧ s.dec.j < s.dec.nb
    ∧ s.dec.k + (s.dec.nb - s.dec.j) ≤ s.latch.n.toNat
    ∧ s.dec.p + s.dec.h + payLen s.dec.kind s.dec.w s.dec.nb ≤ s.dec.endOff
    ∧ s.dec.q = s.dec.p + s.dec.h + fieldOffset s.dec := by
  simp only [decInside, Bool.and_eq_true, decide_eq_true_eq, and_assoc]

/-- A lane step of a delta block has LANES fields before it, and its reference behind it (R271). -/
theorem laneReady_iff (d : DecRegs) : laneReady d = true ↔ d.kind = .repeatRun
    ∨ (Config.lanes ≤ d.nb - d.j ∧ (d.kind = .deltaE → 1 ≤ d.j)) := by
  cases kind : d.kind <;> simp [laneReady, kind, and_comm]

theorem check_bounds (phase : s.phase = .check) (bounded : engineBounded s = true) :
    s.enc.i = 0 ∧ s.enc.o = 0 ∧ s.enc.isOpen = false ∧ s.dec.p = 0 ∧ s.dec.k = 0
      ∧ s.dec.hasPrev = false := by
  simpa only [engineBounded, phase, Bool.and_eq_true, decide_eq_true_eq, Bool.not_eq_true',
    and_assoc] using bounded

end

/-! ## Writes within the error region -/

/-- `len` bytes from `a` on lie in the error region of the running command. -/
def InErrorRegion (s : State) (a len : Nat) : Prop :=
  (errorRegion s.latch).base ≤ a
    ∧ a + len ≤ (errorRegion s.latch).base + (errorRegion s.latch).len

section
variable {s : State} {eng : EngineSel} {kind : ElemKind}

theorem inErrorRegion_compress (cmd : decodeCommand s.latch.cmd = .ok (compressOn eng kind))
    (between : encBetween s = true) {len : Nat}
    (fits : s.enc.o + len ≤ maxCompressedSize s.latch.n.toNat) :
    InErrorRegion s (s.latch.dst.toNat + s.enc.o) len := by
  obtain ⟨ok, room, -⟩ := encBetween_iff.mp between
  have op := (latchedOp_of_decode cmd).trans (opOf_compressOn eng kind)
  rw [InErrorRegion, errorRegion_compress op ok room]
  dsimp only
  omega

theorem inErrorRegion_decompress (cmd : decodeCommand s.latch.cmd = .ok (decompressOn eng kind))
    (between : decBetween s = true) {es : List Word}
    (fits : s.dec.k + es.length ≤ s.latch.n.toNat) :
    InErrorRegion s (s.latch.dst.toNat + 8 * s.dec.k) (elemBytes es).length := by
  obtain ⟨ok, -⟩ := decBetween_iff.mp between
  have op := (latchedOp_of_decode cmd).trans (opOf_decompressOn eng kind)
  rw [InErrorRegion, errorRegion_decompress op ok, elemBytes_length]
  dsimp only
  omega

/-- R169: the open block's bytes keep the output within nine bytes per element. -/
theorem closeBlock_fits (opened : encOpen s = true) :
    s.enc.o + (encode (emitBlock (inputElem s) s.enc.mode s.enc.s s.enc.nb s.enc.w)).length
      ≤ 9 * (s.enc.s + s.enc.nb) := by
  obtain ⟨between, -, start, positive, -⟩ := encOpen_iff.mp opened
  obtain ⟨-, -, -, written⟩ := encBetween_iff.mp between
  have block := encode_emitBlock_length_le (inputElem s) s.enc.mode s.enc.s s.enc.w positive
  omega

/-- The elements of a block that passed its checks are wanted (R231). -/
theorem blockElems_fit {i : Instr} {rest : List Byte}
    (decoded : decodeBlock (blockBytesAt s) = .ok (i, rest)) (passed : blockError i s = none) :
    (blockElems s.dec.prev i).length = blockCount i ∧ 1 ≤ blockCount i
      ∧ s.dec.p + i.byteLen ≤ s.dec.endOff ∧ blockCount i ≤ s.latch.n.toNat - s.dec.k := by
  have length := blockElems_length (encode_of_decodeBlock decoded).1 s.dec.prev
  rw [blockError] at passed
  split_ifs at passed
  omega

end

end Sys2Proof.Proofs

namespace Sys2Proof.Proofs

open Sys2Proof.Machine Sys2Proof.Laws

/-! What a step of the engine does to memory (R13, R67, R71, R199, R235). -/

/-- A step of a busy engine leaves memory alone, writes through the memory port, frees the error
region, or, in CHECK, writes the whole output. -/
inductive MemEffect (s t : State) : Prop
  | same (h : t.mem = s.mem)
  | port (a : Nat) (bs : List Byte) (h : t.mem = portWrite s.platform s.mem a bs)
      (within : s.sound = true → InErrorRegion s a bs.length)
  | freed (e : ErrCode) (h : t = s.raiseDirty e) (failed : s.phase ≠ .check → e ≠ .none)
  | whole (check : s.phase = .check) (bs : List Byte)
      (h : t.mem = writeBytes s.mem s.latch.dst.toNat bs)
      (within : InErrorRegion s s.latch.dst.toNat bs.length)

namespace MemEffect

section
variable {s : State} {eng : EngineSel} {kind : ElemKind}

theorem compressCheck (phase : s.phase = .check)
    (cmd : decodeCommand s.latch.cmd = .ok (compressOn eng kind)) (first : Phase) :
    MemEffect s (compressCheck (encodeSeq (inputElems s)) first s) := by
  rcases compressCheck_cases (encodeSeq (inputElems s)) first s with ⟨-, h⟩ | ⟨-, -, h⟩
    | ⟨-, -, -, h⟩ | ⟨ok, room, -, h⟩ | ⟨-, -, -, -, h⟩ <;> rw [h]
  · exact .same rfl
  · exact .same rfl
  · exact .freed _ rfl fun started => absurd phase started
  · refine .whole phase _ rfl ?_
    have op := (latchedOp_of_decode cmd).trans (opOf_compressOn eng kind)
    have length := encodeSeq_length_le (inputElems s)
    rw [inputElems, readElems_length, ← inputElems] at length
    rw [InErrorRegion, errorRegion_compress op ok room]
    dsimp only
    omega
  · exact .same rfl

theorem decompressCheck (phase : s.phase = .check)
    (cmd : decodeCommand s.latch.cmd = .ok (decompressOn eng kind)) :
    MemEffect s (decompressCheck (decodeBuf (inputBytes s) s.latch.n.toNat) s) := by
  rcases decompressCheck_cases (decodeBuf (inputBytes s) s.latch.n.toNat) s with ⟨-, h⟩ | ⟨-, -, h⟩
    | ⟨ok, -, xs, decoded, h⟩ | ⟨-, -, e, -, h⟩ | ⟨-, -, -, h⟩ <;> rw [h]
  · exact .same rfl
  · exact .freed _ rfl fun started => absurd phase started
  · refine .whole phase _ rfl ?_
    have op := (latchedOp_of_decode cmd).trans (opOf_decompressOn eng kind)
    rw [InErrorRegion, errorRegion_decompress op ok, elemBytes_length, decodeBuf_length decoded]
    exact ⟨le_rfl, le_rfl⟩
  · exact .freed e rfl fun started => absurd phase started
  · exact .same rfl

theorem closeBlock (cmd : decodeCommand s.latch.cmd = .ok (compressOn eng kind)) {t : State}
    (h : t.mem = (closeBlock s).mem) (opened : s.sound = true → encOpen s = true) :
    MemEffect s t := by
  refine .port _ _ h fun sound => ?_
  have fits := closeBlock_fits (opened sound)
  obtain ⟨between, -, -, -, -, inside⟩ := encOpen_iff.mp (opened sound)
  refine inErrorRegion_compress cmd between ?_
  rw [maxCompressedSize]
  omega

theorem scanStep (phase : s.phase = .scan)
    (cmd : decodeCommand s.latch.cmd = .ok (.compressS kind)) : MemEffect s (scanStep s) := by
  rw [Machine.scanStep]
  split
  case isTrue opened =>
    split
    · exact .same rfl
    · refine closeBlock (eng := .scalar) (kind := kind) cmd rfl fun sound => ?_
      simpa [engineBounded, phase, opened] using (sound_iff.mp sound).2.2
  case isFalse => split <;> exact .same rfl

theorem closeStream (phase : s.phase = encoderEnd eng)
    (cmd : decodeCommand s.latch.cmd = .ok (compressOn eng kind)) :
    MemEffect s (closeStream s) := by
  refine .port (s.latch.dst.toNat + s.enc.o) (encode .footer) rfl fun sound => ?_
  obtain ⟨between, done⟩ : encBetween s = true ∧ s.enc.i = s.latch.n.toNat := by
    have bounded := (sound_iff.mp sound).2.2
    cases eng <;> simpa [engineBounded, phase, encoderEnd] using bounded
  obtain ⟨-, -, -, written⟩ := encBetween_iff.mp between
  refine inErrorRegion_compress cmd between ?_
  rw [show (encode .footer).length = 7 from rfl, maxCompressedSize]
  omega

theorem shortBuffer (s : State) : MemEffect s (shortBuffer s) := by
  rcases shortBuffer_cases s with ⟨-, -, h⟩ | ⟨-, -, h⟩ | ⟨-, h⟩ <;> rw [h]
  · exact .same rfl
  · exact .freed _ rfl fun _ => by decide
  · exact .freed _ rfl fun _ => by decide

theorem runBlock {i : Instr} {rest : List Byte} (phase : s.phase = .hdr)
    (decoded : decodeBlock (blockBytesAt s) = .ok (i, rest)) (passed : blockError i s = none) :
    MemEffect s (runBlock i s) := by
  obtain ⟨g, run, -⟩ := runBlock_eq i s
  rw [run]
  refine .port _ _ rfl fun sound => ?_
  obtain ⟨-, fits, bounded⟩ := sound_iff.mp sound
  obtain ⟨eng, kind, cmd⟩ := decompress_of_stream fits (.inr phase)
  have between : decBetween s = true := by simpa [engineBounded, phase] using bounded
  obtain ⟨-, -, -, -, wanted⟩ := decBetween_iff.mp between
  obtain ⟨length, -, -, few⟩ := blockElems_fit decoded passed
  exact inErrorRegion_decompress cmd between (by omega)

theorem headerAt_error_ne_none {e : ErrCode} (h : headerAt s = .error e) : e ≠ .none := by
  rintro rfl
  unfold headerAt at h
  dsimp only at h
  repeat' split at h
  all_goals simp at h

theorem headerStep (s : State) : MemEffect s (headerStep s) := by
  rw [Machine.headerStep]
  split
  · exact .same rfl
  split
  · exact .freed _ rfl fun _ => by decide
  split
  case h_1 e failed => exact .freed e rfl fun _ => headerAt_error_ne_none failed
  case h_2 => exact .same rfl

/-- Elements taken from the open block, no more than are left of it, are wanted. -/
theorem takeElems (cmd : decodeCommand s.latch.cmd = .ok (decompressOn eng kind)) {es : List Word}
    (q : Nat) (g : LaneRegs)
    (few : s.sound = true → decInside s = true ∧ es.length ≤ s.dec.nb - s.dec.j) :
    MemEffect s (takeElems es q g s) := by
  refine .port _ _ (takeElems_mem es q g s) fun sound => ?_
  obtain ⟨inside, few⟩ := few sound
  obtain ⟨between, -, wanted, -⟩ := decInside_iff.mp inside
  exact inErrorRegion_decompress cmd between (by omega)

theorem elemStep (phase : s.phase = elementPhase eng)
    (cmd : decodeCommand s.latch.cmd = .ok (decompressOn eng kind)) : MemEffect s (elemStep s) := by
  rw [elemStep_eq]
  refine takeElems cmd _ _ fun sound => ?_
  have bounded := (sound_iff.mp sound).2.2
  have inside : decInside s = true := by
    cases eng <;> simp_all [engineBounded, elementPhase]
  obtain ⟨-, more, -⟩ := decInside_iff.mp inside
  exact ⟨inside, by rw [List.length_singleton]; omega⟩

theorem laneStep (phase : s.phase = .dLane)
    (cmd : decodeCommand s.latch.cmd = .ok (.decompressV kind)) : MemEffect s (laneStep s) := by
  have facts (sound : s.sound = true) : decInside s = true ∧ laneReady s.dec = true := by
    simpa [engineBounded, phase] using (sound_iff.mp sound).2.2
  by_cases copies : s.dec.kind = .repeatRun
  · rw [laneStep_of_repeat copies, repeatLaneStep_eq]
    refine takeElems (eng := .vector) (kind := kind) cmd _ _ fun sound => ⟨(facts sound).1, ?_⟩
    rw [List.length_replicate]
    exact Nat.min_le_right _ _
  · rw [laneStep_of_delta copies, deltaLaneStep_eq]
    refine takeElems (eng := .vector) (kind := kind) cmd _ _ fun sound => ⟨(facts sound).1, ?_⟩
    rw [laneElems_length]
    exact (((laneReady_iff _).mp (facts sound).2).resolve_left copies).1

theorem finishStep (s : State) : MemEffect s (finishStep s) := by
  rw [Machine.finishStep]
  split
  · exact .same rfl
  · exact .freed _ rfl fun _ => by decide

end

theorem of_event {s t : State} (h : EngineEvent s t) : MemEffect s t := by
  cases h with
  | badCommand => exact .same rfl
  | maxsize => exact .same rfl
  | compressCheck eng kind phase cmd => exact compressCheck phase cmd _
  | scan kind phase cmd => exact scanStep phase cmd
  | vecOpen => exact .same (by rw [vecOpenStep]; split <;> rfl)
  | vecLane => exact .same rfl
  | vecTail => exact .same (by rw [vecTailStep]; split <;> rfl)
  | vecEmit kind phase cmd =>
    refine closeBlock (eng := .vector) (kind := kind) cmd rfl fun sound => ?_
    simpa [engineBounded, phase] using (sound_iff.mp sound).2.2
  | closeStream eng kind phase cmd => exact closeStream phase cmd
  | decompressCheck eng kind phase cmd => exact decompressCheck phase cmd
  | shortBuffer => exact shortBuffer s
  | streamError e phase failed => exact .freed e rfl fun _ => failed
  | openRegion => exact .same rfl
  | block i rest phase decoded passed => exact runBlock phase decoded passed
  | header => exact headerStep s
  | element eng kind phase cmd => exact elemStep phase cmd
  | lane kind phase cmd => exact laneStep phase cmd
  | finish => exact finishStep s

section
variable {s t : State} (h : MemEffect s t) (hm : s.mem.wf = true)
include h hm

theorem wf : t.mem.wf = true := by
  cases h with
  | same h => rwa [h]
  | port a bs h => exact h ▸ portWrite_wf _ hm a bs
  | freed e h => exact h ▸ raiseDirty_wf hm e
  | whole _ bs h => exact h ▸ writeBytes_wf hm _ bs

theorem outside (sound : s.sound = true) {a : Nat}
    (away : (errorRegion s.latch).contains a = false) : readByte t.mem a = readByte s.mem a := by
  have apart := outside_of_not_contains away
  cases h with
  | same h => rw [h]
  | port b bs h within =>
    obtain ⟨lo, hi⟩ := within sound
    rw [h]
    exact portWrite_outside _ hm (by omega)
  | freed e h => exact h ▸ raiseDirty_memory hm e away
  | whole _ bs h within =>
    obtain ⟨lo, hi⟩ := within
    rw [h]
    exact readByte_writeBytes_outside hm (by omega)

theorem refused (started : s.phase ≠ .check) (fine : t.busy = true ∨ t.err = .none) {a : Nat}
    (refused : memAdmits s.platform .write a = false) :
    readByte t.mem a = readByte s.mem a := by
  cases h with
  | same h => rw [h]
  | port b bs h => exact h ▸ portWrite_refused _ hm b bs refused
  | freed e h failed =>
    subst h
    rcases fine with busy | none
    · exact absurd rfl (busy_iff.mp busy)
    · exact absurd none (failed started)
  | whole check => exact absurd check started

end

end MemEffect

theorem engineStep_wf {s t : State} (hm : s.mem.wf = true) (h : engineStep s = .next t) :
    t.mem.wf = true := by
  by_cases idle : s.phase = .idle
  · rwa [engineStep_idle idle h]
  · exact (MemEffect.of_event (engineStep_event idle h)).wf hm

theorem act_wf {a : Action} {s t : State} (hm : s.mem.wf = true) (h : act a s = .next t) :
    t.mem.wf = true := by
  rcases act_cases h with ⟨r, rfl⟩ | ⟨off, v, -, hw⟩ | ⟨who, addr, bs, -, rfl⟩ | ⟨-, rfl⟩
    | ⟨d, st, o, rfl⟩
  · exact hm
  · rcases regWrite_cases hw with ⟨-, rfl⟩ | ⟨-, rfl⟩ | ⟨-, hw⟩ | ⟨-, rfl⟩ | ⟨-, rfl⟩ | ⟨-, rfl⟩
      | ⟨-, rfl⟩ | ⟨-, rfl⟩ | rfl
    case inr.inr.inl => rcases writeCmd_cases hw with ⟨-, rfl⟩ | ⟨-, rfl⟩ <;> exact hm
    all_goals exact hm
  · obtain ⟨d, st, stored⟩ := storeBytes_cases who addr bs s
    exact stored ▸ writeBytes_wf hm addr bs
  · exact resetEvent_wf hm
  · exact hm

theorem hostStep_wf {s t : State} (hm : s.mem.wf = true) (h : hostStep s = .next t) :
    t.mem.wf = true := by
  rcases hostStep_cases h with ⟨-, rfl⟩ | ⟨a, rest, -, -, rfl⟩ | ⟨a, rest, -, -, h⟩
  · exact hm
  · obtain ⟨r, waits⟩ := whileWaiting_cases a s
    exact waits ▸ hm
  · exact act_wf (s := { s with inbox := rest }) hm h

/-- Settles O41: each mover's writes keep the form. -/
theorem memoryStaysCanonical : Obligations.MemoryStaysCanonical := by
  intro s t hm h
  rcases step_cases h with ⟨-, rfl⟩ | ⟨-, u, hu, rfl⟩ | ⟨-, u, hu, rfl⟩
  · exact hm
  · exact hostStep_wf (t := u) hm hu
  · exact engineStep_wf (t := u) hm hu

/-- Settles O44: what a step does to memory stays within the region. -/
theorem engineWritesOnlyItsRegion : Obligations.EngineWritesOnlyItsRegion := by
  intro s t sound h
  have hm := (sound_iff.mp sound).1
  by_cases idle : s.phase = .idle
  · obtain rfl := engineStep_idle idle h
    exact ⟨fun _ _ => rfl, fun _ _ _ _ => rfl⟩
  · have effect := MemEffect.of_event (engineStep_event idle h)
    exact ⟨fun a => effect.outside hm sound, fun started fine a => effect.refused hm started fine⟩

end Sys2Proof.Proofs

namespace Sys2Proof.Proofs

open Sys2Proof.Machine Sys2Proof.Laws

/-! Every step keeps the engine within its bounds (R22, R71, R169, R232, R271). -/

/-- The phase is one of the running command's and the engine's registers are in its bounds: what
soundness asks beside the form of memory. -/
structure EngineFits (s : State) : Prop where
  phase : phaseFits s = true
  bounded : engineBounded s = true

theorem sound_iff_engineFits {s : State} : s.sound = true ↔ s.mem.wf = true ∧ EngineFits s := by
  rw [sound_iff]
  exact and_congr_right fun _ => ⟨fun ⟨phase, bounded⟩ => ⟨phase, bounded⟩,
    fun ⟨phase, bounded⟩ => ⟨phase, bounded⟩⟩

/-- How many elements a lane step of a running COMPRESS.V commits (R264). -/
abbrev laneCommit (s : State) : Nat :=
  committed Config.lanes Config.maxBlock (inputElem s) s.enc.mode s.enc.s s.enc.w s.enc.nb

namespace EngineFits

theorem of_idle {s : State} (h : s.phase = .idle) : EngineFits s :=
  ⟨by simp [phaseFits, h], by simp [engineBounded, h]⟩

/-! ## The encoder -/

section
variable {s : State} {eng : EngineSel} {kind : ElemKind}

theorem of_compress (cmd : decodeCommand s.latch.cmd = .ok (compressOn eng kind))
    (phase : s.phase ∈ encoderPhases eng) (bounded : engineBounded s = true) : EngineFits s :=
  ⟨phaseFits_of_compressOn cmd phase, bounded⟩

/-- Growing ends in LANE, TAIL or EMIT, each with its own bound (R269). -/
theorem growPhase (cmd : decodeCommand s.latch.cmd = .ok (.compressV kind))
    (phase : s.phase = growPhase s.latch.n.toNat s.enc) (opened : encOpen s = true) :
    EngineFits s := by
  have fits := of_compress (eng := .vector) (kind := kind) cmd
  rw [Machine.growPhase] at phase
  split at phase
  case isTrue grows =>
    have grows := encGrows_iff.mpr grows
    split at phase
    case isTrue lanes =>
      exact fits (by simp [phase, encoderPhases])
        (by simp [engineBounded, phase, opened, grows, lanes])
    case isFalse =>
      exact fits (by simp [phase, encoderPhases]) (by simp [engineBounded, phase, opened, grows])
  case isFalse =>
    exact fits (by simp [phase, encoderPhases]) (by simp [engineBounded, phase, opened])

theorem encOpen_openBlockRegs (between : encBetween s = true)
    (inside : s.enc.i < s.latch.n.toNat) :
    encOpen { s with enc := openBlockRegs (inputElem s) s.latch.n.toNat s.enc } = true := by
  refine encOpen_iff.mpr ⟨between, rfl, rfl, openSize_pos _, ?_, openSize_le inside⟩
  cases h : openMode (inputElem s) s.latch.n.toNat s.enc.i <;>
    simp [openBlockRegs, h, openSize, Config.maxBlock]

/-- The open block with `m` more elements that continue it. -/
theorem encOpen_grown (opened : encOpen s = true) {m : Nat}
    (most : s.enc.nb + m ≤ Config.maxBlock)
    (inside : s.enc.s + (s.enc.nb + m) ≤ s.latch.n.toNat) :
    encOpen { s with enc := { s.enc with nb := s.enc.nb + m } } = true := by
  obtain ⟨between, isOpen, start, positive, -, -⟩ := encOpen_iff.mp opened
  exact encOpen_iff.mpr ⟨between, isOpen, start, by dsimp only; omega, most, inside⟩

theorem encBetween_closeBlock (opened : encOpen s = true) : encBetween (closeBlock s) = true := by
  obtain ⟨between, -, -, -, -, inside⟩ := encOpen_iff.mp opened
  obtain ⟨ok, room, -, -⟩ := encBetween_iff.mp between
  exact encBetween_iff.mpr ⟨ok, room, inside, closeBlock_fits opened⟩

theorem compressCheck (fits : EngineFits s) (phase : s.phase = .check)
    (cmd : decodeCommand s.latch.cmd = .ok (compressOn eng kind)) :
    EngineFits (compressCheck (encodeSeq (inputElems s)) (encoderStart eng) s) := by
  rcases compressCheck_cases (encodeSeq (inputElems s)) (encoderStart eng) s with ⟨-, h⟩ | ⟨-, -, h⟩
    | ⟨-, -, -, h⟩ | ⟨-, -, -, h⟩ | ⟨ok, room, -, -, h⟩ <;> rw [h]
  · exact of_idle rfl
  · exact of_idle rfl
  · exact of_idle rfl
  · exact of_idle rfl
  · obtain ⟨i, o, closed, -⟩ := check_bounds phase fits.bounded
    have between : encBetween s = true := encBetween_iff.mpr ⟨ok, room, by omega, by omega⟩
    cases eng with
    | scalar =>
      refine of_compress (eng := .scalar) (kind := kind) cmd (by simp [encoderStart, encoderPhases])
        ?_
      change (if s.enc.isOpen then encOpen s else encBetween s) = true
      rwa [closed]
    | vector =>
      exact of_compress (eng := .vector) (kind := kind) cmd
        (by simp [encoderStart, encoderPhases]) between

theorem scanStep (fits : EngineFits s) (phase : s.phase = .scan)
    (cmd : decodeCommand s.latch.cmd = .ok (.compressS kind)) : EngineFits (scanStep s) := by
  have inScan {t : State} (latch : t.latch = s.latch) (same : t.phase = s.phase)
      (bounded : (if t.enc.isOpen then encOpen t else encBetween t) = true) : EngineFits t := by
    refine of_compress (eng := .scalar) (kind := kind) (latch ▸ cmd) ?_ ?_
    · simp [same, phase, encoderPhases]
    · simpa [engineBounded, same, phase] using bounded
  have bounded := fits.bounded
  simp only [engineBounded, phase] at bounded
  by_cases isOpen : s.enc.isOpen = true
  · rw [if_pos isOpen] at bounded
    by_cases goes : OpenGoesOn s
    · rw [scanStep_of_growing isOpen goes]
      obtain ⟨inside, room, -⟩ := goes
      exact inScan rfl rfl ((if_pos isOpen).trans (encOpen_grown bounded (m := 1) room inside))
    · rw [scanStep_of_closing isOpen goes]
      exact inScan rfl rfl (encBetween_closeBlock bounded)
  · rw [if_neg isOpen] at bounded
    have closed := Bool.eq_false_iff.mpr isOpen
    by_cases inside : s.enc.i < s.latch.n.toNat
    · rw [scanStep_of_opening closed inside]
      exact inScan rfl rfl (encOpen_openBlockRegs bounded inside)
    · have atEnd := Nat.le_of_not_lt inside
      obtain ⟨-, -, within, -⟩ := encBetween_iff.mp bounded
      rw [scanStep_of_end closed atEnd]
      refine of_compress (eng := .scalar) (kind := kind) cmd (by simp [encoderPhases]) ?_
      exact Bool.and_eq_true_iff.mpr ⟨bounded, decide_eq_true (within.antisymm atEnd)⟩

theorem vecOpenStep (fits : EngineFits s) (phase : s.phase = .vOpen)
    (cmd : decodeCommand s.latch.cmd = .ok (.compressV kind)) : EngineFits (vecOpenStep s) := by
  have between : encBetween s = true := by simpa [engineBounded, phase] using fits.bounded
  rw [Machine.vecOpenStep]
  dsimp only
  split
  case isTrue inside =>
    exact growPhase (kind := kind) cmd rfl (encOpen_openBlockRegs between inside)
  case isFalse outside =>
    obtain ⟨-, -, within, -⟩ := encBetween_iff.mp between
    refine of_compress (eng := .vector) (kind := kind) cmd (by simp [encoderPhases]) ?_
    exact Bool.and_eq_true_iff.mpr
      ⟨between, decide_eq_true (within.antisymm (Nat.le_of_not_lt outside))⟩

theorem vecEmit (cmd : decodeCommand s.latch.cmd = .ok (.compressV kind))
    (phase : s.phase = .vEmit) (opened : encOpen s = true) : EngineFits s :=
  of_compress (eng := .vector) (kind := kind) cmd (by simp [phase, encoderPhases])
    (by simp [engineBounded, phase, opened])

/-- The elements a lane step commits lie in the input, below MAX_BLOCK (R264). -/
theorem encOpen_committed (opened : encOpen s = true)
    (lanes : Config.lanes ≤ s.latch.n.toNat - (s.enc.s + s.enc.nb)) :
    encOpen { s with enc := { s.enc with nb := s.enc.nb + laneCommit s } } = true := by
  obtain ⟨-, -, -, -, most, inside⟩ := encOpen_iff.mp opened
  generalize hm : laneCommit s = m
  cases m with
  | zero => exact encOpen_grown opened (m := 0) most inside
  | succ k =>
    obtain ⟨within, room, -⟩ := committed_goesOn (maxB := Config.maxBlock) (x := inputElem s)
      (mode := s.enc.mode) (w := s.enc.w) lanes (j := s.enc.nb + k) (Nat.le_add_right _ _)
      (by rw [laneCommit] at hm; omega)
    exact encOpen_grown opened (m := k + 1) room within

theorem vecLaneStep (fits : EngineFits s) (phase : s.phase = .vLane)
    (cmd : decodeCommand s.latch.cmd = .ok (.compressV kind)) : EngineFits (vecLaneStep s) := by
  obtain ⟨⟨opened, -⟩, lanes⟩ : (encOpen s = true ∧ encGrows s = true)
      ∧ Config.lanes ≤ s.latch.n.toNat - (s.enc.s + s.enc.nb) := by
    simpa [engineBounded, phase] using fits.bounded
  have committed := encOpen_committed opened lanes
  rw [Machine.vecLaneStep]
  split
  · exact vecEmit (kind := kind) cmd rfl committed
  · exact growPhase (kind := kind) cmd rfl committed

theorem vecTailStep (fits : EngineFits s) (phase : s.phase = .vTail)
    (cmd : decodeCommand s.latch.cmd = .ok (.compressV kind)) : EngineFits (vecTailStep s) := by
  obtain ⟨opened, -⟩ : encOpen s = true ∧ encGrows s = true := by
    simpa [engineBounded, phase] using fits.bounded
  rw [Machine.vecTailStep]
  split
  case isTrue goes =>
    obtain ⟨inside, room, -⟩ := goes
    have grown := encOpen_grown opened (m := 1) room inside
    split
    case isTrue more =>
      refine of_compress (eng := .vector) (kind := kind) cmd (by simp [encoderPhases]) ?_
      exact Bool.and_eq_true_iff.mpr ⟨grown, encGrows_iff.mpr more⟩
    case isFalse => exact vecEmit (kind := kind) cmd rfl grown
  case isFalse => exact vecEmit (kind := kind) cmd rfl opened

theorem vecEmitStep (fits : EngineFits s) (phase : s.phase = .vEmit)
    (cmd : decodeCommand s.latch.cmd = .ok (.compressV kind)) : EngineFits (vecEmitStep s) := by
  have opened : encOpen s = true := by simpa [engineBounded, phase] using fits.bounded
  exact of_compress (eng := .vector) (kind := kind) cmd
    (by simp [Machine.vecEmitStep, encoderPhases]) (encBetween_closeBlock opened)

end

/-! ## The decoder -/

section
variable {s : State} {eng : EngineSel} {kind : ElemKind}

theorem of_decompress (cmd : decodeCommand s.latch.cmd = .ok (decompressOn eng kind))
    (phase : s.phase ∈ decoderPhases eng) (bounded : engineBounded s = true) : EngineFits s :=
  ⟨phaseFits_of_decompressOn cmd phase, bounded⟩

theorem hdr (cmd : decodeCommand s.latch.cmd = .ok (decompressOn eng kind))
    (phase : s.phase = .hdr) (between : decBetween s = true) : EngineFits s :=
  of_decompress cmd (by cases eng <;> simp [decoderPhases, phase])
    (by simpa [engineBounded, phase] using between)

/-- The open block goes on in a phase whose bounds hold (R237, R276). -/
theorem body (cmd : decodeCommand s.latch.cmd = .ok (decompressOn eng kind))
    (phase : s.phase = bodyPhase (runningEngine s) s.dec) (inside : decInside s = true) :
    EngineFits s := by
  have fits := of_decompress cmd
  have lane (vector : eng = .vector) (phase : s.phase = .dLane) (ready : laneReady s.dec = true) :
      EngineFits s :=
    fits (by simp [vector, phase, decoderPhases]) (by simp [engineBounded, phase, inside, ready])
  have tail (vector : eng = .vector) (phase : s.phase = .dTail) (delta : s.dec.kind ≠ .repeatRun) :
      EngineFits s :=
    fits (by simp [vector, phase, decoderPhases]) (by simp [engineBounded, phase, inside, delta])
  rw [runningEngine_of_decompressOn cmd] at phase
  unfold bodyPhase at phase
  cases eng with
  | scalar =>
    exact fits (by simp [phase, decoderPhases]) (by simpa [engineBounded, phase] using inside)
  | vector =>
    cases block : s.dec.kind with
    | repeatRun =>
      rw [block] at phase
      exact lane rfl phase ((laneReady_iff _).mpr (.inl block))
    | deltaE =>
      simp only [block] at phase
      split at phase
      · exact tail rfl phase (by simp [block])
      case isFalse started =>
        split at phase
        case isTrue lanes =>
          exact lane rfl phase ((laneReady_iff _).mpr (.inr ⟨lanes, fun _ => by omega⟩))
        case isFalse => exact tail rfl phase (by simp [block])
    | deltaI =>
      simp only [block] at phase
      split at phase
      case isTrue lanes =>
        exact lane rfl phase ((laneReady_iff _).mpr (.inr ⟨lanes, by simp [block]⟩))
      case isFalse => exact tail rfl phase (by simp [block])

theorem decompressCheck (fits : EngineFits s) (phase : s.phase = .check)
    (cmd : decodeCommand s.latch.cmd = .ok (decompressOn eng kind)) :
    EngineFits (decompressCheck (decodeBuf (inputBytes s) s.latch.n.toNat) s) := by
  rcases decompressCheck_cases (decodeBuf (inputBytes s) s.latch.n.toNat) s with ⟨-, h⟩ | ⟨-, -, h⟩
    | ⟨-, -, xs, -, h⟩ | ⟨-, -, e, -, h⟩ | ⟨ok, -, -, h⟩ <;> rw [h]
  · exact of_idle rfl
  · exact of_idle rfl
  · exact of_idle rfl
  · exact of_idle rfl
  · obtain ⟨-, -, -, p, k, -⟩ := check_bounds phase fits.bounded
    refine of_decompress (eng := eng) (kind := kind) cmd (by cases eng <;> simp [decoderPhases]) ?_
    change (argsOk .decompress s.latch && decide (s.dec.p = 0) && decide (s.dec.k = 0)) = true
    rw [ok, p, k]
    rfl

theorem shortBuffer (s : State) : EngineFits (shortBuffer s) := by
  rcases shortBuffer_cases s with ⟨-, -, h⟩ | ⟨-, -, h⟩ | ⟨-, h⟩ <;> exact of_idle (h ▸ rfl)

theorem openRegion (fits : EngineFits s) (mark : s.phase = .mark)
    (long : Config.footerBytes ≤ s.latch.srcLen.toNat) : EngineFits
      { s with phase := .hdr, dec := { s.dec with endOff := footerOffset s.latch } } := by
  obtain ⟨eng, kind, cmd⟩ := decompress_of_stream fits.phase (.inl mark)
  obtain ⟨⟨ok, p⟩, k⟩ : (argsOk .decompress s.latch = true ∧ s.dec.p = 0) ∧ s.dec.k = 0 := by
    simpa [engineBounded, mark] using fits.bounded
  refine hdr cmd rfl (decBetween_iff.mpr ⟨ok, long, rfl, ?_, ?_⟩)
  · exact p ▸ Nat.zero_le _
  · exact k ▸ Nat.zero_le _

theorem runBlock (fits : EngineFits s) (phase : s.phase = .hdr) {i : Instr} {rest : List Byte}
    (decoded : decodeBlock (blockBytesAt s) = .ok (i, rest)) (passed : blockError i s = none) :
    EngineFits (runBlock i s) := by
  obtain ⟨eng, kind, cmd⟩ := decompress_of_stream fits.phase (.inr phase)
  have between : decBetween s = true := by simpa [engineBounded, phase] using fits.bounded
  obtain ⟨ok, long, footer, -, wanted⟩ := decBetween_iff.mp between
  obtain ⟨length, -, inside, few⟩ := blockElems_fit decoded passed
  obtain ⟨g, run, -⟩ := runBlock_eq i s
  rw [run]
  refine hdr (eng := eng) (kind := kind) cmd phase
    (decBetween_iff.mpr ⟨ok, long, footer, inside, ?_⟩)
  change s.dec.k + (blockElems s.dec.prev i).length ≤ s.latch.n.toNat
  omega

/-- What the checks of a header that passes say (R230, R231). -/
theorem header_fits {b : BlockHeader} (passed : headerAt s = .ok b) :
    1 ≤ b.nb ∧ s.dec.p + b.h + payLen b.kind b.w b.nb ≤ s.dec.endOff
      ∧ b.nb ≤ s.latch.n.toNat - s.dec.k := by
  unfold headerAt at passed
  dsimp only at passed
  split at passed
  · simp at passed
  · split_ifs at passed <;> obtain rfl := Except.ok.inj passed <;> dsimp only <;> omega

theorem headerStep (fits : EngineFits s) (phase : s.phase = .hdr)
    (cmd : decodeCommand s.latch.cmd = .ok (decompressOn eng kind)) :
    EngineFits (headerStep s) := by
  have between : decBetween s = true := by simpa [engineBounded, phase] using fits.bounded
  obtain ⟨ok, long, footer, within, wanted⟩ := decBetween_iff.mp between
  by_cases done : s.dec.k = s.latch.n.toNat
  · rw [headerStep_of_done done]
    exact of_decompress (eng := eng) (kind := kind) cmd (by cases eng <;> simp [decoderPhases])
      (Bool.and_eq_true_iff.mpr ⟨between, decide_eq_true done⟩)
  by_cases exhausted : s.dec.p = s.dec.endOff
  · rw [headerStep_of_exhausted done exhausted]
    exact of_idle rfl
  cases passed : headerAt s with
  | error e =>
    rw [headerStep_of_error done exhausted passed]
    exact of_idle rfl
  | ok b =>
    rw [headerStep_of_ok done exhausted passed]
    obtain ⟨positive, inside, few⟩ := header_fits passed
    refine body (eng := eng) (kind := kind) cmd rfl
      (decInside_iff.mpr ⟨decBetween_iff.mpr ⟨ok, long, footer, within, wanted⟩, positive, ?_,
        inside, ?_⟩)
    · change s.dec.k + (b.nb - 0) ≤ s.latch.n.toNat
      omega
    · cases kind : b.kind <;> simp [openedBlock, fieldOffset, kind]

/-! ## Elements of the open block -/

theorem fieldOffset_succ (d : DecRegs) :
    fieldOffset { d with j := d.j + 1 } = fieldOffset d + fieldStep d := by
  cases kind : d.kind with
  | repeatRun => simp [fieldOffset, fieldStep, kind]
  | deltaE =>
    cases j : d.j with
    | zero => simp [fieldOffset, fieldStep, kind, j]
    | succ i => simp [fieldOffset, fieldStep, kind, j, Nat.succ_mul, Nat.add_assoc]
  | deltaI => simp [fieldOffset, fieldStep, kind, Nat.succ_mul]

/-- Past its explicit reference a delta block's fields lie one after another (R155, R160). -/
theorem fieldOffset_add (d : DecRegs) (delta : d.kind ≠ .repeatRun)
    (started : d.kind = .deltaE → 1 ≤ d.j) (m : Nat) :
    fieldOffset { d with j := d.j + m } = fieldOffset d + m * bytesOf d.w := by
  cases kind : d.kind with
  | repeatRun => exact absurd kind delta
  | deltaE =>
    obtain ⟨i, j⟩ := Nat.exists_eq_add_of_le (started kind)
    simp only [fieldOffset, kind, j, show 1 + i + m - 1 = i + m by omega, Nat.add_mul]
    simp [Nat.add_assoc]
  | deltaI => simp [fieldOffset, kind, Nat.add_mul]

/-- With more of the block left, elements taken leave the decoder inside it. -/
theorem decInside_takeElems (inside : decInside s = true) {es : List Word}
    (more : s.dec.j + es.length < s.dec.nb) {q : Nat}
    (field : q = s.dec.p + s.dec.h + fieldOffset { s.dec with j := s.dec.j + es.length })
    (g : LaneRegs) : decInside (Sys2Proof.Proofs.takeElems es q g s) = true := by
  obtain ⟨between, -, wanted, region, -⟩ := decInside_iff.mp inside
  obtain ⟨ok, long, footer, within, -⟩ := decBetween_iff.mp between
  rw [takeElems_of_more es q g s more]
  refine decInside_iff.mpr ⟨decBetween_iff.mpr ⟨ok, long, footer, within, ?_⟩, more, ?_, region,
    field⟩
  · change s.dec.k + es.length ≤ s.latch.n.toNat
    omega
  · change s.dec.k + es.length + (s.dec.nb - (s.dec.j + es.length)) ≤ s.latch.n.toNat
    omega

theorem takeElems (cmd : decodeCommand s.latch.cmd = .ok (decompressOn eng kind))
    (inside : decInside s = true) {es : List Word} (few : es.length ≤ s.dec.nb - s.dec.j) {q : Nat}
    (field : q = s.dec.p + s.dec.h + fieldOffset { s.dec with j := s.dec.j + es.length })
    (g : LaneRegs) : EngineFits (takeElems es q g s) := by
  rcases Nat.lt_or_ge (s.dec.j + es.length) s.dec.nb with more | all
  · have inside' := decInside_takeElems inside more field g
    rw [takeElems_of_more es q g s more] at inside' ⊢
    exact body (eng := eng) (kind := kind) cmd rfl inside'
  · obtain ⟨between, -, wanted, region, -⟩ := decInside_iff.mp inside
    obtain ⟨ok, long, footer, -, -⟩ := decBetween_iff.mp between
    rw [takeElems_of_all es q g s all]
    refine hdr (eng := eng) (kind := kind) cmd rfl
      (decBetween_iff.mpr ⟨ok, long, footer, region, ?_⟩)
    change s.dec.k + es.length ≤ s.latch.n.toNat
    omega

theorem elemStep (fits : EngineFits s) (phase : s.phase = elementPhase eng)
    (cmd : decodeCommand s.latch.cmd = .ok (decompressOn eng kind)) : EngineFits (elemStep s) := by
  have bounded := fits.bounded
  have inside : decInside s = true := by
    cases eng <;> simp_all [engineBounded, elementPhase]
  obtain ⟨-, more, -, -, field⟩ := decInside_iff.mp inside
  rw [elemStep_eq]
  refine takeElems cmd inside (by rw [List.length_singleton]; omega) ?_ s.lanes
  rw [List.length_singleton, fieldOffset_succ, field, Nat.add_assoc]

theorem laneStep (fits : EngineFits s) (phase : s.phase = .dLane)
    (cmd : decodeCommand s.latch.cmd = .ok (.decompressV kind)) : EngineFits (laneStep s) := by
  obtain ⟨inside, ready⟩ : decInside s = true ∧ laneReady s.dec = true := by
    simpa [engineBounded, phase] using fits.bounded
  obtain ⟨-, -, -, -, field⟩ := decInside_iff.mp inside
  by_cases copies : s.dec.kind = .repeatRun
  · rw [laneStep_of_repeat copies, repeatLaneStep_eq]
    refine takeElems (eng := .vector) (kind := kind) cmd inside ?_ ?_ _
    · rw [List.length_replicate]
      exact Nat.min_le_right _ _
    · rw [field]
      simp [fieldOffset, copies]
  · obtain ⟨lanes, started⟩ := ((laneReady_iff _).mp ready).resolve_left copies
    rw [laneStep_of_delta copies, deltaLaneStep_eq]
    refine takeElems (eng := .vector) (kind := kind) cmd inside ?_ ?_ _
    · rwa [laneElems_length]
    · rw [laneElems_length, fieldOffset_add _ copies started, field, Nat.add_assoc]

theorem finishStep (s : State) : EngineFits (finishStep s) := by
  rw [Machine.finishStep]
  split <;> exact of_idle rfl

end

/-! ## Every mover -/

theorem of_event {s t : State} (fits : EngineFits s) (h : EngineEvent s t) : EngineFits t := by
  cases h with
  | badCommand => exact of_idle rfl
  | maxsize => exact of_idle rfl
  | compressCheck eng kind phase cmd => exact compressCheck fits phase cmd
  | scan kind phase cmd => exact scanStep fits phase cmd
  | vecOpen kind phase cmd => exact vecOpenStep fits phase cmd
  | vecLane kind phase cmd => exact vecLaneStep fits phase cmd
  | vecTail kind phase cmd => exact vecTailStep fits phase cmd
  | vecEmit kind phase cmd => exact vecEmitStep fits phase cmd
  | closeStream => exact of_idle rfl
  | decompressCheck eng kind phase cmd => exact decompressCheck fits phase cmd
  | shortBuffer => exact shortBuffer s
  | streamError => exact of_idle rfl
  | openRegion phase long => exact openRegion fits phase long
  | block i rest phase decoded passed => exact runBlock fits phase decoded passed
  | header eng kind phase cmd => exact headerStep fits phase cmd
  | element eng kind phase cmd => exact elemStep fits phase cmd
  | lane kind phase cmd => exact laneStep fits phase cmd
  | finish => exact finishStep s

theorem engineStep {s t : State} (fits : EngineFits s) (h : engineStep s = .next t) :
    EngineFits t := by
  by_cases idle : s.phase = .idle
  · rwa [engineStep_idle idle h]
  · exact fits.of_event (engineStep_event idle h)

/-- A command starts with the engine's registers at their start values (R292). -/
theorem start (v : Word) (s : State) : EngineFits (s.start v) := ⟨rfl, rfl⟩

theorem regWrite {off : Nat} {v : Word} {s t : State} (fits : EngineFits s)
    (h : regWrite off v s = .next t) : EngineFits t := by
  obtain ⟨phase, bounded⟩ := fits
  rcases regWrite_cases h with ⟨-, rfl⟩ | ⟨-, rfl⟩ | ⟨-, hw⟩ | ⟨-, rfl⟩ | ⟨-, rfl⟩ | ⟨-, rfl⟩
    | ⟨-, rfl⟩ | ⟨-, rfl⟩ | rfl
  case inr.inr.inl =>
    rcases writeCmd_cases hw with ⟨-, rfl⟩ | ⟨-, rfl⟩
    · exact ⟨phase, bounded⟩
    · exact start v s
  all_goals exact ⟨phase, bounded⟩

theorem act {a : Action} {s t : State} (fits : EngineFits s) (h : act a s = .next t) :
    EngineFits t := by
  rcases act_cases h with ⟨r, rfl⟩ | ⟨off, v, -, hw⟩ | ⟨who, addr, bs, -, rfl⟩ | ⟨-, rfl⟩
    | ⟨d, st, o, rfl⟩
  · exact ⟨fits.phase, fits.bounded⟩
  · exact fits.regWrite hw
  · obtain ⟨d, st, stored⟩ := storeBytes_cases who addr bs s
    exact stored ▸ ⟨fits.phase, fits.bounded⟩
  · exact of_idle rfl
  · exact ⟨fits.phase, fits.bounded⟩

theorem hostStep {s t : State} (fits : EngineFits s) (h : hostStep s = .next t) :
    EngineFits t := by
  rcases hostStep_cases h with ⟨-, rfl⟩ | ⟨a, rest, -, -, rfl⟩ | ⟨a, rest, -, -, h⟩
  · exact fits
  · obtain ⟨r, waits⟩ := whileWaiting_cases a s
    exact waits ▸ ⟨fits.phase, fits.bounded⟩
  · exact act (s := { s with inbox := rest }) ⟨fits.phase, fits.bounded⟩ h

end EngineFits

/-- Settles O42: each mover keeps memory's form and the engine's bounds. -/
theorem stepKeepsSoundness : Obligations.StepKeepsSoundness := by
  intro s t sound h
  obtain ⟨hm, fits⟩ := sound_iff_engineFits.mp sound
  rcases step_cases h with ⟨-, rfl⟩ | ⟨-, u, hu, rfl⟩ | ⟨-, u, hu, rfl⟩
  · exact sound
  · have fits' := fits.hostStep (t := u) hu
    exact sound_iff_engineFits.mpr ⟨hostStep_wf (t := u) hm hu, fits'.phase, fits'.bounded⟩
  · have fits' := fits.engineStep (t := u) hu
    exact sound_iff_engineFits.mpr ⟨engineStep_wf (t := u) hm hu, fits'.phase, fits'.bounded⟩

theorem engineStep_sound {s t : State} (sound : s.sound = true) (h : engineStep s = .next t) :
    t.sound = true := by
  obtain ⟨hm, fits⟩ := sound_iff_engineFits.mp sound
  exact sound_iff_engineFits.mpr ⟨engineStep_wf hm h, fits.engineStep h⟩

end Sys2Proof.Proofs

namespace Sys2Proof.Proofs

open Sys2Proof.Machine Sys2Proof.Laws

/-! A sound state's engine step runs a meaning in a phase of its own, so it answers a next state
(R348). -/

section
variable {s : State}

theorem execFooter_next (mark : s.phase = .mark) : ∃ t, exec .footer s = .next t := by
  rcases Nat.lt_or_ge s.latch.srcLen.toNat Config.footerBytes with short | long
  · exact ⟨_, exec_footer_short mark short⟩
  by_cases known :
      readByte s.mem (s.latch.src.toNat + footerOffset s.latch) = Config.formatMarker
  · exact ⟨_, exec_footer_known mark long known⟩
  · exact ⟨_, exec_footer_unknown mark long known⟩

theorem stepFooter_next (mark : s.phase = .mark) : ∃ t, stepFooter s = .next t := by
  rw [stepFooter]
  split
  · exact ⟨_, rfl⟩
  split
  case h_1 i footer =>
    obtain rfl := decodeFooter_ok footer
    exact execFooter_next mark
  case h_2 => exact ⟨_, rfl⟩

theorem stepBlock_next (hdr : s.phase = .hdr) : ∃ t, stepBlock s = .next t := by
  rw [stepBlock]
  split
  case h_1 i rest decoded =>
    have block := (encode_of_decodeBlock decoded).2.1
    cases checked : blockError i s with
    | some e => exact ⟨_, exec_failing block hdr checked⟩
    | none => exact ⟨_, exec_passing block hdr checked⟩
  case h_2 => exact ⟨_, rfl⟩

/-- In CHECK every command has a meaning. -/
theorem execCheck_next (check : s.phase = .check) {i : Instr}
    (cmd : decodeCommand s.latch.cmd = .ok i) : ∃ t, exec i s = .next t := by
  rcases decodeCommand_spec cmd with ⟨e, k, rfl⟩ | ⟨k, rfl⟩ | ⟨k, rfl⟩
  · exact ⟨_, exec_maxsize_check k check e⟩
  · exact ⟨_, exec_compressOn_check k check _⟩
  · exact ⟨_, exec_decompressOn_check k check _⟩

theorem execCompress_next {eng : EngineSel} (kind : ElemKind)
    (phase : s.phase ∈ encoderPhases eng) : ∃ t, exec (compressOn eng kind) s = .next t := by
  cases eng <;> simp only [encoderPhases, List.mem_cons, List.not_mem_nil, or_false] at phase
  · rcases phase with h | h
    · exact ⟨_, exec_scan kind h⟩
    · exact ⟨_, exec_closeStream kind (eng := .scalar) h⟩
  · rcases phase with h | h | h | h | h
    · exact ⟨_, exec_vecOpen kind h⟩
    · exact ⟨_, exec_vecLane kind h⟩
    · exact ⟨_, exec_vecTail kind h⟩
    · exact ⟨_, exec_vecEmit kind h⟩
    · exact ⟨_, exec_closeStream kind (eng := .vector) h⟩

theorem execDecompress_next {eng : EngineSel} (kind : ElemKind)
    (phase : s.phase ∈ decoderPhases eng) (notMark : s.phase ≠ .mark) :
    ∃ t, exec (decompressOn eng kind) s = .next t := by
  cases eng <;> simp only [decoderPhases, List.mem_cons, List.not_mem_nil, or_false] at phase
  · rcases phase with h | h | h | h
    · exact absurd h notMark
    · exact ⟨_, exec_header kind .scalar h⟩
    · exact ⟨_, exec_element kind (eng := .scalar) h⟩
    · exact ⟨_, exec_finish kind .scalar h⟩
  · rcases phase with h | h | h | h | h
    · exact absurd h notMark
    · exact ⟨_, exec_header kind .vector h⟩
    · exact ⟨_, exec_lane kind h⟩
    · exact ⟨_, exec_element kind (eng := .vector) h⟩
    · exact ⟨_, exec_finish kind .vector h⟩

theorem stepCommand_next (fits : phaseFits s = true) (busy : s.phase ≠ .idle)
    (notMark : s.phase ≠ .mark) : ∃ t, stepCommand s = .next t := by
  rw [stepCommand]
  split
  case h_1 i cmd =>
    by_cases check : s.phase = .check
    · exact execCheck_next check cmd
    rcases command_of_phaseFits fits busy check with ⟨eng, kind, cmd', phase⟩
      | ⟨eng, kind, cmd', phase⟩ <;> obtain rfl := Except.ok.inj (cmd.symm.trans cmd')
    · exact execCompress_next kind phase
    · exact execDecompress_next kind phase notMark
  case h_2 => exact ⟨_, rfl⟩

theorem engineStep_next (fits : phaseFits s = true) : ∃ t, engineStep s = .next t := by
  by_cases idle : s.phase = .idle
  · exact ⟨s, if_pos idle⟩
  by_cases mark : s.phase = .mark
  · obtain ⟨t, h⟩ := stepFooter_next mark
    exact ⟨t, (if_neg idle).trans ((if_pos mark).trans h)⟩
  by_cases block : atBlock s = true
  · obtain ⟨t, h⟩ := stepBlock_next (atBlock_iff.mp block).1
    exact ⟨t, (engineStep_atBlock block).trans h⟩
  · obtain ⟨t, h⟩ := stepCommand_next fits idle mark
    exact ⟨t, (if_neg idle).trans ((if_neg mark).trans ((if_neg block).trans h))⟩

end

/-- Settles O43. -/
theorem engineNeverStops : Obligations.EngineNeverStops :=
  fun _ sound => engineStep_next (sound_iff.mp sound).2.1

end Sys2Proof.Proofs

namespace Sys2Proof.Proofs

open Sys2Proof.Machine Sys2Proof.Laws

/-! The fields of an open delta block (R155, R160, R271): taking them one by one or in a lane step
leaves the same, for the writes of a DECOMPRESS miss its input (R297). -/

section
variable {s : State}

/-- The elements of the `m` fields from q on, the running reference before them. -/
def deltaElems (m : Nat) (s : State) : List Word :=
  reconstructAll s.dec.prev (decodeFields s.dec.w m (streamAt s s.dec.q (m * bytesOf s.dec.w)))

theorem deltaElems_length (m : Nat) (s : State) : (deltaElems m s).length = m := by
  rw [deltaElems, reconstructAll_length, decodeFields_length]

theorem decodeFields_add (w : WidthCode) {m : Nat} (k : Nat) {xs : List Byte} (ys : List Byte)
    (length : xs.length = m * bytesOf w) :
    decodeFields w (m + k) (xs ++ ys) = decodeFields w m xs ++ decodeFields w k ys := by
  induction m generalizing xs with
  | zero =>
    obtain rfl := List.length_eq_zero_iff.mp (length.trans (Nat.zero_mul _))
    rw [Nat.zero_add]
    rfl
  | succ m ih =>
    rw [Nat.succ_mul] at length
    have first : bytesOf w ≤ xs.length := by omega
    rw [Nat.succ_add, decodeFields, decodeFields, List.take_append_of_le_length first,
      List.drop_append_of_le_length first, ih (by rw [List.length_drop]; omega), List.cons_append]

@[simp] theorem streamAt_length (s : State) (q n : Nat) : (streamAt s q n).length = n :=
  readBytes_length _ _ _

theorem streamAt_add (s : State) (q n k : Nat) :
    streamAt s q (n + k) = streamAt s q n ++ streamAt s (q + n) k := by
  rw [streamAt, readBytes_append, Nat.add_assoc]
  rfl

/-- The writes of a DECOMPRESS miss its input. -/
theorem streamAt_portWrite (hm : s.mem.wf = true) (ok : argsOk .decompress s.latch = true)
    {t : State} {k : Nat} {es : List Word} (few : k + es.length ≤ s.latch.n.toNat)
    (latch : t.latch = s.latch) (mem : t.mem
      = portWrite s.platform s.mem (s.latch.dst.toNat + 8 * k) (elemBytes es))
    {q n : Nat} (inside : q + n ≤ s.latch.srcLen.toNat) : streamAt t q n = streamAt s q n := by
  obtain ⟨-, -, -, apart⟩ := argsOk_decompress ok
  have length := elemBytes_length es
  rw [streamAt, latch, mem]
  refine readBytes_congr fun c lo hi => portWrite_outside _ hm ?_
  omega

/-- Elements taken from an open block leave its stream. -/
theorem streamAt_takeElems (hm : s.mem.wf = true) (inside : decInside s = true) {es : List Word}
    (few : es.length ≤ s.dec.nb - s.dec.j) (q' : Nat) (g : LaneRegs) {q n : Nat}
    (within : q + n ≤ s.latch.srcLen.toNat) :
    streamAt (takeElems es q' g s) q n = streamAt s q n := by
  obtain ⟨between, more, wanted, -⟩ := decInside_iff.mp inside
  obtain ⟨ok, -⟩ := decBetween_iff.mp between
  refine streamAt_portWrite hm ok (k := s.dec.k) (es := es) (by omega) ?_
    (takeElems_mem es q' g s) within
  rw [takeElems, settleBlock]
  split <;> rfl

theorem takeElems_dec_of_more {es : List Word} (more : s.dec.j + es.length < s.dec.nb) (q : Nat)
    (g : LaneRegs) : (takeElems es q g s).dec = tookElems es q s := by
  rw [takeElems_of_more es q g s more]

theorem takeElems_lanes (es : List Word) (q : Nat) (g : LaneRegs) (s : State) :
    (takeElems es q g s).lanes = g := by
  rw [takeElems, settleBlock]
  split <;> rfl

theorem takeElems_with_lanes (es : List Word) (q : Nat) (g g' : LaneRegs) (s : State) :
    { takeElems es q g s with lanes := g' } = takeElems es q g' s := by
  rw [takeElems, takeElems, settleBlock, settleBlock]
  split <;> rfl

theorem takeElems_mem_wf (hm : s.mem.wf = true) (es : List Word) (q : Nat) (g : LaneRegs) :
    (takeElems es q g s).mem.wf = true := by
  rw [takeElems_mem]
  exact portWrite_wf _ hm _ _

/-- The fields of a delta block from q on lie in the stream. -/
theorem deltaFields_within (inside : decInside s = true) (delta : s.dec.kind ≠ .repeatRun)
    (started : s.dec.kind = .deltaE → 1 ≤ s.dec.j) :
    s.dec.q + (s.dec.nb - s.dec.j) * bytesOf s.dec.w ≤ s.latch.srcLen.toNat := by
  obtain ⟨between, more, -, region, field⟩ := decInside_iff.mp inside
  obtain ⟨-, -, footer, -⟩ := decBetween_iff.mp between
  have last : fieldOffset { s.dec with j := s.dec.j + (s.dec.nb - s.dec.j) }
      = payLen s.dec.kind s.dec.w s.dec.nb := by
    rw [Nat.add_sub_cancel' more.le]
    cases kind : s.dec.kind with
    | repeatRun => exact absurd kind delta
    | deltaE =>
      have positive : s.dec.nb ≠ 0 := by omega
      simp [fieldOffset, kind, payLen, positive]
    | deltaI => simp [fieldOffset, kind, payLen]
  rw [EngineFits.fieldOffset_add _ delta started] at last
  rw [footerOffset] at footer
  omega

/-- Fields taken together are fields taken in two runs. -/
theorem deltaElems_add (hm : s.mem.wf = true) (inside : decInside s = true)
    (delta : s.dec.kind ≠ .repeatRun) (started : s.dec.kind = .deltaE → 1 ≤ s.dec.j) {m k : Nat}
    (few : m + k ≤ s.dec.nb - s.dec.j) (more : s.dec.j + m < s.dec.nb) (g : LaneRegs) :
    deltaElems (m + k) s = deltaElems m s
      ++ deltaElems k (takeElems (deltaElems m s) (s.dec.q + m * bytesOf s.dec.w) g s) := by
  have length := deltaElems_length m s
  have fits := deltaFields_within inside delta started
  have fewBytes : (m + k) * bytesOf s.dec.w ≤ (s.dec.nb - s.dec.j) * bytesOf s.dec.w :=
    Nat.mul_le_mul_right _ few
  rw [Nat.add_mul] at fewBytes
  have stream : streamAt (takeElems (deltaElems m s) (s.dec.q + m * bytesOf s.dec.w) g s)
      (s.dec.q + m * bytesOf s.dec.w) (k * bytesOf s.dec.w)
      = streamAt s (s.dec.q + m * bytesOf s.dec.w) (k * bytesOf s.dec.w) :=
    streamAt_takeElems hm inside (by omega) _ g (by omega)
  rw [takeElems_of_more _ _ g s (by rwa [length])] at stream ⊢
  conv_lhs => rw [deltaElems, Nat.add_mul, streamAt_add,
    decodeFields_add _ k _ (streamAt_length _ _ _), reconstructAll_append]
  conv_rhs => rw [deltaElems]; arg 2; rw [deltaElems]
  exact congrArg (fun bs => _ ++ reconstructAll _ (decodeFields s.dec.w k bs)) stream.symm

/-- The element of one field. -/
theorem deltaElems_one (delta : s.dec.kind ≠ .repeatRun)
    (started : s.dec.kind = .deltaE → 1 ≤ s.dec.j) :
    deltaElems 1 s = [nextElem s] ∧ fieldStep s.dec = bytesOf s.dec.w := by
  have field : deltaElems 1 s
      = [reconstruct s.dec.prev (rdWord (streamAt s s.dec.q (bytesOf s.dec.w)))] := by
    rw [deltaElems, Nat.one_mul, decodeFields, List.take_of_length_le (streamAt_length _ _ _).le]
    rfl
  rw [field, nextElem, fieldStep]
  cases kind : s.dec.kind with
  | repeatRun => exact absurd kind delta
  | deltaE =>
    have later : s.dec.j ≠ 0 := by have := started kind; omega
    simp [later]
  | deltaI => simp

theorem elemStep_of_field (delta : s.dec.kind ≠ .repeatRun)
    (started : s.dec.kind = .deltaE → 1 ≤ s.dec.j) : elemStep s
      = takeElems (deltaElems 1 s) (s.dec.q + 1 * bytesOf s.dec.w) s.lanes s := by
  obtain ⟨one, step⟩ := deltaElems_one delta started
  rw [elemStep_eq, one, step, Nat.one_mul]

/-- Scalar steps over fields are their elements taken at once. -/
theorem elemStep_iterate (hm : s.mem.wf = true) (inside : decInside s = true)
    (delta : s.dec.kind ≠ .repeatRun) (started : s.dec.kind = .deltaE → 1 ≤ s.dec.j) {m : Nat}
    (few : m + 1 ≤ s.dec.nb - s.dec.j) : elemStep^[m + 1] s
      = takeElems (deltaElems (m + 1) s) (s.dec.q + (m + 1) * bytesOf s.dec.w) s.lanes s := by
  have first := elemStep_of_field delta started
  induction m generalizing s with
  | zero => exact first
  | succ m ih =>
    have length := deltaElems_length 1 s
    have more : s.dec.j + (deltaElems 1 s).length < s.dec.nb := by omega
    have field : s.dec.q + 1 * bytesOf s.dec.w = s.dec.p + s.dec.h
        + fieldOffset { s.dec with j := s.dec.j + (deltaElems 1 s).length } := by
      obtain ⟨-, -, -, -, field⟩ := decInside_iff.mp inside
      rw [length, EngineFits.fieldOffset_add _ delta started, field, Nat.add_assoc]
    have inside' := EngineFits.decInside_takeElems inside more field s.lanes
    have hm' := takeElems_mem_wf hm (deltaElems 1 s) (s.dec.q + 1 * bytesOf s.dec.w) s.lanes
    have lanes := takeElems_lanes (deltaElems 1 s) (s.dec.q + 1 * bytesOf s.dec.w) s.lanes s
    have dec := takeElems_dec_of_more more (s.dec.q + 1 * bytesOf s.dec.w) s.lanes
    rw [Function.iterate_succ_apply, first, Nat.add_comm (m + 1) 1,
      deltaElems_add hm inside delta started (m := 1) (k := m + 1) (by omega) (by omega) s.lanes,
      ← takeElems_takeElems (q := s.dec.q + 1 * bytesOf s.dec.w) (g := s.lanes) _ _ more,
      Nat.add_mul 1, ← Nat.add_assoc]
    generalize takeElems (deltaElems 1 s) (s.dec.q + 1 * bytesOf s.dec.w) s.lanes s = t at *
    have delta' : t.dec.kind ≠ .repeatRun := by rwa [dec]
    have started' : t.dec.kind = .deltaE → 1 ≤ t.dec.j := by
      rw [dec, tookElems, length]
      exact fun _ => Nat.le_add_left 1 _
    have few' : m + 1 ≤ t.dec.nb - t.dec.j := by
      rw [dec, tookElems, length]
      dsimp only
      omega
    rw [ih hm' inside' delta' started' few' (elemStep_of_field delta' started'), lanes, dec]
    rfl

end

/-- Settles O36: LANES fields in one step, or one by one. -/
theorem decoderLaneStepIsLanesScalarSteps : Obligations.DecoderLaneStepIsLanesScalarSteps := by
  intro s sound phase delta _
  obtain ⟨hm, fits⟩ := sound_iff_engineFits.mp sound
  obtain ⟨inside, ready⟩ : decInside s = true ∧ laneReady s.dec = true := by
    simpa [engineBounded, phase] using fits.bounded
  obtain ⟨lanes, started⟩ := ((laneReady_iff _).mp ready).resolve_left delta
  rw [elemStep_iterate hm inside delta started (m := 7) lanes, deltaLaneStep_eq]
  exact takeElems_with_lanes _ _ _ _ s

end Sys2Proof.Proofs

namespace Sys2Proof.Proofs

open Sys2Proof.Machine Sys2Proof.Laws

/-! Runs of the engine by itself. -/

/-- The engine by itself gets from `s` to `t`. -/
def Reaches (s t : State) : Prop := ∃ k, engineRun k s = .next t

namespace Reaches

variable {s t u : State}

theorem refl (s : State) : Reaches s s := ⟨0, rfl⟩

theorem engineRun_idle (idle : s.phase = .idle) (k : Nat) : engineRun k s = .next s := by
  cases k with
  | zero => rfl
  | succ k => exact if_pos idle

theorem engineRun_succ (h : engineStep s = .next t) (k : Nat) :
    engineRun (k + 1) s = engineRun k t := by
  by_cases idle : s.phase = .idle
  · obtain rfl := engineStep_idle idle h
    rw [engineRun_idle idle, engineRun_idle idle]
  · rw [engineRun, if_neg idle, h]

/-- A step, then a run. -/
theorem step (h : engineStep s = .next t) (run : Reaches t u) : Reaches s u := by
  obtain ⟨k, run⟩ := run
  exact ⟨k + 1, (engineRun_succ h k).trans run⟩

theorem of_step (h : engineStep s = .next t) : Reaches s t :=
  step h (refl t)

/-- A run's first step. -/
theorem engineRun_split {k : Nat} (run : engineRun (k + 1) s = .next t) :
    ∃ m, engineStep s = .next m ∧ engineRun k m = .next t := by
  by_cases idle : s.phase = .idle
  · refine ⟨s, if_pos idle, ?_⟩
    rw [engineRun_idle idle] at run ⊢
    exact run
  · rw [engineRun, if_neg idle] at run
    cases h : engineStep s with
    | next m =>
      rw [h] at run
      exact ⟨m, rfl, run⟩
    | fault r => simp [h] at run
    | refused r => simp [h] at run

theorem trans (first : Reaches s t) (second : Reaches t u) : Reaches s u := by
  obtain ⟨k, run⟩ := first
  induction k generalizing s with
  | zero =>
    obtain rfl := Host.Outcome.next.inj run
    exact second
  | succ k ih =>
    obtain ⟨m, h, run⟩ := engineRun_split run
    exact step h (ih run)

theorem sound (run : Reaches s t) (start : s.sound = true) : t.sound = true := by
  obtain ⟨k, run⟩ := run
  induction k generalizing s with
  | zero =>
    obtain rfl := Host.Outcome.next.inj run
    exact start
  | succ k ih =>
    obtain ⟨m, h, run⟩ := engineRun_split run
    exact ih (engineStep_sound start h) run

end Reaches

/-! ## The encoder's engine steps -/

section
variable {s : State} {kind : ElemKind}

theorem engineStep_compress {eng : EngineSel}
    (cmd : decodeCommand s.latch.cmd = .ok (compressOn eng kind))
    (phase : s.phase ∈ encoderPhases eng) : engineStep s = exec (compressOn eng kind) s := by
  have notBlock (other : s.phase ≠ .hdr) : ¬ atBlock s = true :=
    fun block => other (atBlock_iff.mp block).1
  cases eng <;> simp only [encoderPhases, List.mem_cons, List.not_mem_nil, or_false] at phase
  · rcases phase with h | h <;>
      exact engineStep_command (by simp [h]) (by simp [h]) (notBlock (by simp [h])) cmd
  · rcases phase with h | h | h | h | h <;>
      exact engineStep_command (by simp [h]) (by simp [h]) (notBlock (by simp [h])) cmd

theorem engineStep_scan (cmd : decodeCommand s.latch.cmd = .ok (.compressS kind))
    (phase : s.phase = .scan) : engineStep s = .next (scanStep s) :=
  (engineStep_compress (eng := .scalar) cmd (by simp [phase, encoderPhases])).trans
    (exec_scan kind phase)

section
variable (cmd : decodeCommand s.latch.cmd = .ok (.compressV kind))
include cmd

theorem engineStep_vecOpen (phase : s.phase = .vOpen) : engineStep s = .next (vecOpenStep s) :=
  (engineStep_compress (eng := .vector) cmd (by simp [phase, encoderPhases])).trans
    (exec_vecOpen kind phase)

theorem engineStep_vecLane (phase : s.phase = .vLane) : engineStep s = .next (vecLaneStep s) :=
  (engineStep_compress (eng := .vector) cmd (by simp [phase, encoderPhases])).trans
    (exec_vecLane kind phase)

theorem engineStep_vecTail (phase : s.phase = .vTail) : engineStep s = .next (vecTailStep s) :=
  (engineStep_compress (eng := .vector) cmd (by simp [phase, encoderPhases])).trans
    (exec_vecTail kind phase)

theorem engineStep_vecEmit (phase : s.phase = .vEmit) : engineStep s = .next (vecEmitStep s) :=
  (engineStep_compress (eng := .vector) cmd (by simp [phase, encoderPhases])).trans
    (exec_vecEmit kind phase)

end

theorem engineStep_closeStream {eng : EngineSel}
    (cmd : decodeCommand s.latch.cmd = .ok (compressOn eng kind))
    (phase : s.phase = encoderEnd eng) : engineStep s = .next (closeStream s) :=
  (engineStep_compress cmd (by cases eng <;> simp [phase, encoderEnd, encoderPhases])).trans
    (exec_closeStream kind phase)

end

end Sys2Proof.Proofs

namespace Sys2Proof.Proofs

open Sys2Proof.Machine Sys2Proof.Laws

/-! An open block grows to the end of its search and is written, on either engine (R183, R200, R264,
R266, R269). -/

namespace EndsAt

variable {goes : Nat → Prop} {nb mid e : Nat}

/-- The end lies behind every place that goes on, and the search may start after them. -/
theorem later (h : EndsAt goes nb e) (hle : nb ≤ mid) (hgoes : ∀ j, nb ≤ j → j < mid → goes j) :
    EndsAt goes mid e where
  le := Nat.le_of_not_lt fun before => h.stops (hgoes e h.le before)
  before j hlo hhi := h.before j (hle.trans hlo) hhi
  stops := h.stops

theorem later_one (h : EndsAt goes nb e) (hgoes : goes nb) : EndsAt goes (nb + 1) e :=
  h.later (Nat.le_succ nb) fun j hlo hhi => by
    obtain rfl : j = nb := by omega
    exact hgoes

theorem eq_of_stops (h : EndsAt goes nb e) (stops : ¬ goes nb) : e = nb :=
  h.unique (.here stops)

end EndsAt

/-- The search for the size of the open block ends at `e` (R183). -/
abbrev SizeEndsAt (s : State) (e : Nat) : Prop :=
  EndsAt (GoesOn Config.maxBlock (inputElem s) s.latch.n.toNat s.enc.mode s.enc.s s.enc.w)
    s.enc.nb e

/-- What stays while a block grows: where it opened, and what its elements are read from. -/
structure SameBlock (s t : State) : Prop where
  latch : t.latch = s.latch
  platform : t.platform = s.platform
  mem : t.mem = s.mem
  enc : t.enc = { s.enc with nb := t.enc.nb }

/-- From `s` to `t` the open block was written with `e` elements and closed (R187, R200). -/
structure Closes (e : Nat) (s t : State) : Prop where
  latch : t.latch = s.latch
  platform : t.platform = s.platform
  mem : t.mem = portWrite s.platform s.mem (s.latch.dst.toNat + s.enc.o)
    (encode (emitBlock (inputElem s) s.enc.mode s.enc.s e s.enc.w))
  i : t.enc.i = s.enc.s + e
  o : t.enc.o
    = s.enc.o + (encode (emitBlock (inputElem s) s.enc.mode s.enc.s e s.enc.w)).length
  closed : t.enc.isOpen = false

theorem inputElem_congr {s t : State} (latch : t.latch = s.latch) (mem : t.mem = s.mem) :
    inputElem t = inputElem s := by
  funext j
  rw [inputElem, latch, mem]
  rfl

theorem Closes.of_grown {e : Nat} {s m t : State} (closes : Closes e m t) (grown : SameBlock s m) :
    Closes e s t := by
  obtain ⟨latch, platform, mem, enc⟩ := grown
  obtain ⟨latch', platform', mem', i, o, closed⟩ := closes
  rw [inputElem_congr latch mem, enc] at mem' o
  rw [platform, mem, latch] at mem'
  rw [enc] at i
  exact ⟨latch'.trans latch, platform'.trans platform, mem', i, o, closed⟩

section
variable {s : State} {kind : ElemKind}

theorem closeBlock_closes (s : State) : Closes s.enc.nb s (closeBlock s) :=
  ⟨rfl, rfl, rfl, rfl, rfl, rfl⟩

theorem scan_closes (cmd : decodeCommand s.latch.cmd = .ok (.compressS kind))
    (phase : s.phase = .scan) (opened : s.enc.isOpen = true) {e : Nat} (ends : SizeEndsAt s e) :
    ∃ t, Reaches s t ∧ t.phase = .scan ∧ Closes e s t := by
  generalize room : e - s.enc.nb = d
  induction d generalizing s with
  | zero =>
    obtain rfl : e = s.enc.nb := by have := ends.le; omega
    have h := engineStep_scan cmd phase
    rw [scanStep_of_closing opened ends.stops] at h
    exact ⟨_, .of_step h, phase, closeBlock_closes s⟩
  | succ d ih =>
    have goes := ends.before s.enc.nb le_rfl (by omega)
    have h := engineStep_scan cmd phase
    rw [scanStep_of_growing opened goes] at h
    obtain ⟨t, run, phase', closes⟩ := ih (s := { s with enc := { s.enc with nb := s.enc.nb + 1 } })
      cmd phase opened (ends.later_one goes) (by dsimp only; omega)
    exact ⟨t, .step h run, phase', closes.of_grown ⟨rfl, rfl, rfl, rfl⟩⟩

/-- EMIT writes the open block. -/
theorem emit_closes (cmd : decodeCommand s.latch.cmd = .ok (.compressV kind))
    (phase : s.phase = .vEmit) :
    ∃ t, Reaches s t ∧ t.phase = .vOpen ∧ Closes s.enc.nb s t :=
  ⟨_, .of_step (engineStep_vecEmit cmd phase), rfl, ⟨rfl, rfl, rfl, rfl, rfl, rfl⟩⟩

/-- The phases in which the vector engine searches on: in LANE it has LANES elements before it, in
EMIT it has found the end (R269). -/
structure Searching (s : State) : Prop where
  phase : s.phase = .vLane ∨ s.phase = .vTail ∨ s.phase = .vEmit
  lanes : s.phase = .vLane → Config.lanes ≤ s.latch.n.toNat - (s.enc.s + s.enc.nb)
  emits : s.phase = .vEmit → ¬ OpenGoesOn s

theorem searching_growPhase (phase : s.phase = growPhase s.latch.n.toNat s.enc) : Searching s := by
  rw [growPhase] at phase
  split at phase
  · split at phase
    case isTrue lanes => exact ⟨.inl phase, fun _ => lanes, by simp [phase]⟩
    case isFalse => exact ⟨.inr (.inl phase), by simp [phase], by simp [phase]⟩
  case isFalse full =>
    exact ⟨.inr (.inr phase), by simp [phase], fun _ goes => full ⟨goes.1, goes.2.1⟩⟩

theorem vecLaneStep_phase_of_part (part : laneCommit s < Config.lanes) :
    (vecLaneStep s).phase = .vEmit :=
  if_pos part

theorem vecLaneStep_phase_of_all (all : ¬ laneCommit s < Config.lanes) :
    (vecLaneStep s).phase = growPhase s.latch.n.toNat (vecLaneStep s).enc :=
  if_neg all

theorem vecTailStep_of_growing (goes : OpenGoesOn s) : vecTailStep s
    = { s with
        enc := { s.enc with nb := s.enc.nb + 1 }
        phase := if s.enc.s + (s.enc.nb + 1) < s.latch.n.toNat ∧ s.enc.nb + 1 < Config.maxBlock
          then .vTail else .vEmit } :=
  if_pos goes

theorem vecTailStep_of_ending (stops : ¬ OpenGoesOn s) :
    vecTailStep s = { s with phase := .vEmit } :=
  if_neg stops

/-- A scalar step in TAIL leaves TAIL or, at the end of the input or at MAX_BLOCK, EMIT. -/
theorem searching_tail (t : State) (phase : t.phase
      = if t.enc.s + t.enc.nb < t.latch.n.toNat ∧ t.enc.nb < Config.maxBlock then .vTail
        else .vEmit) : Searching t := by
  split at phase
  · exact ⟨.inr (.inl phase), by simp [phase], by simp [phase]⟩
  case isFalse full =>
    exact ⟨.inr (.inr phase), by simp [phase], fun _ goes => full ⟨goes.1, goes.2.1⟩⟩

theorem lanes_pos : 0 < Config.lanes := by decide

theorem search_closes (cmd : decodeCommand s.latch.cmd = .ok (.compressV kind))
    (searching : Searching s) {e : Nat} (ends : SizeEndsAt s e) :
    ∃ t, Reaches s t ∧ t.phase = .vOpen ∧ Closes e s t := by
  generalize room : e - s.enc.nb = d
  induction d using Nat.strong_induction_on generalizing s with
  | _ d ih =>
  obtain ⟨h | h | h, lanes, emits⟩ := searching
  · have step := engineStep_vecLane cmd h
    have grown : SameBlock s (vecLaneStep s) := ⟨rfl, rfl, rfl, rfl⟩
    have ends' : SizeEndsAt (vecLaneStep s) e :=
      ends.later (Nat.le_add_right _ _) fun j hlo hhi => committed_goesOn (lanes h) hlo hhi
    by_cases part : laneCommit s < Config.lanes
    · have stops : ¬ OpenGoesOn (vecLaneStep s) := fun ⟨_, room, continues⟩ =>
        committed_stops part ⟨Nat.add_assoc s.enc.s s.enc.nb _ ▸ continues, room⟩
      obtain ⟨t, run, phase, closes⟩ :=
        emit_closes (s := vecLaneStep s) cmd (vecLaneStep_phase_of_part part)
      rw [← ends'.eq_of_stops stops] at closes
      exact ⟨t, .step step run, phase, closes.of_grown grown⟩
    · have more : s.enc.nb + laneCommit s ≤ e := ends'.le
      have positive := lanes_pos
      obtain ⟨t, run, phase, closes⟩ := ih (e - (s.enc.nb + laneCommit s)) (by omega)
        (s := vecLaneStep s) cmd (searching_growPhase (vecLaneStep_phase_of_all part)) ends' rfl
      exact ⟨t, .step step run, phase, closes.of_grown grown⟩
  · have step := engineStep_vecTail cmd h
    by_cases goes : OpenGoesOn s
    · have tail := vecTailStep_of_growing goes
      have grown : SameBlock s (vecTailStep s) := by rw [tail]; exact ⟨rfl, rfl, rfl, rfl⟩
      have ends' : SizeEndsAt (vecTailStep s) e := by rw [tail]; exact ends.later_one goes
      have searching' : Searching (vecTailStep s) := by rw [tail]; exact searching_tail _ rfl
      have one : (vecTailStep s).enc.nb = s.enc.nb + 1 := by rw [tail]
      have more := ends'.le
      obtain ⟨t, run, phase, closes⟩ := ih (e - (vecTailStep s).enc.nb) (by omega)
        (s := vecTailStep s) (grown.latch ▸ cmd) searching' ends' rfl
      exact ⟨t, .step step run, phase, closes.of_grown grown⟩
    · rw [vecTailStep_of_ending goes] at step
      obtain rfl := ends.eq_of_stops goes
      obtain ⟨t, run, phase, closes⟩ := emit_closes (s := { s with phase := .vEmit }) cmd rfl
      exact ⟨t, .step step run, phase, closes.of_grown ⟨rfl, rfl, rfl, rfl⟩⟩
  · obtain rfl := ends.eq_of_stops (emits h)
    exact emit_closes cmd h

end

end Sys2Proof.Proofs

namespace Sys2Proof.Proofs

open Sys2Proof.Machine Sys2Proof.Laws

/-! The scan's blocks depend on the elements of the sequence alone (R182 to R188). -/

section
variable {x y : Nat → Word} {n : Nat} (same : ∀ j < n, x j = y j)
include same

theorem openMode_congr {i : Nat} (h : i < n) : openMode x n i = openMode y n i := by
  have repeats : (i + 1 < n ∧ x (i + 1) = x i) ↔ (i + 1 < n ∧ y (i + 1) = y i) :=
    and_congr_right fun inside => by rw [same _ inside, same i h]
  simp only [openMode, repeats]

theorem openWidth_congr {i : Nat} (h : i < n) :
    openWidth x (openMode x n i) i = openWidth y (openMode x n i) i := by
  rcases openMode_cases (x := x) h with mode | ⟨mode, first, two⟩ | ⟨mode, later⟩ <;> rw [mode]
  · rfl
  · rw [openWidth, openWidth, same i h, same (i + 1) (by omega)]
  · rw [openWidth, openWidth, same i h, same (i - 1) (by omega)]

theorem goesOn_congr (maxB : Nat) (mode : Mode) (i : Nat) (w : WidthCode) :
    GoesOn maxB x n mode i w = GoesOn maxB y n mode i w := by
  funext j
  refine propext (and_congr_right fun inside => and_congr_right fun _ => ?_)
  cases mode with
  | repeatMode => rw [cont, cont, same i (by omega), same _ inside]
  | deltaE => rw [cont, cont, same _ inside, same (i + j - 1) (by omega)]
  | deltaI => rw [cont, cont, same _ inside, same (i + j - 1) (by omega)]

theorem scanSize_congr {i : Nat} (h : i < n) : scanSize x n i = scanSize y n i := by
  rw [scanSize, scanSize, ← openMode_congr same h, ← openWidth_congr same h]
  refine (extendScalar_endsAt _).unique ?_
  rw [goesOn_congr same]
  exact extendScalar_endsAt _

theorem foldFields_congr {j m : Nat} (h : j + m ≤ n) :
    foldFields x j m = foldFields y j m := by
  induction m generalizing j with
  | zero => rfl
  | succ m ih =>
    rw [foldFields, foldFields, same j (by omega), same (j - 1) (by omega), ih (by omega)]

theorem emitBlock_congr (mode : Mode) {i nb : Nat} (w : WidthCode) (positive : 0 < nb)
    (h : i + nb ≤ n) : emitBlock x mode i nb w = emitBlock y mode i nb w := by
  cases mode with
  | repeatMode => rw [emitBlock, emitBlock, same i (by omega)]
  | deltaE => rw [emitBlock, emitBlock, same i (by omega), foldFields_congr same (by omega)]
  | deltaI => rw [emitBlock, emitBlock, foldFields_congr same h]

theorem scanBlock_congr {i : Nat} (h : i < n) : scanBlock x n i = scanBlock y n i := by
  obtain ⟨positive, ends, -⟩ := scanSize_spec (x := x) h
  rw [scanBlock, emitBlock_congr same _ _ positive ends, scanBlock, openWidth_congr same h,
    scanSize_congr same h, openMode_congr same h]

end

end Sys2Proof.Proofs

namespace Sys2Proof.Proofs

open Sys2Proof.Machine Sys2Proof.Laws

/-! The encoder's run from between two blocks: block after block to the footer, on either engine
(R187, R189, R200, R269). -/

/-- Between two blocks of an encoder (R200, R269). -/
structure BetweenBlocks (eng : EngineSel) (s : State) : Prop where
  phase : s.phase = encoderStart eng
  closed : eng = .scalar → s.enc.isOpen = false

section
variable {s : State} {eng : EngineSel} {kind : ElemKind}

theorem BetweenBlocks.encBetween (between : BetweenBlocks eng s) (sound : s.sound = true) :
    encBetween s = true := by
  have bounded := (sound_iff_engineFits.mp sound).2.bounded
  obtain ⟨phase, closed⟩ := between
  cases eng with
  | scalar => simpa [engineBounded, phase, encoderStart, closed rfl] using bounded
  | vector => simpa [engineBounded, phase, encoderStart] using bounded

/-- From `s` to `t` the scan's next block was written (R187). -/
structure WritesBlock (eng : EngineSel) (s t : State) : Prop where
  between : BetweenBlocks eng t
  latch : t.latch = s.latch
  platform : t.platform = s.platform
  mem : t.mem = portWrite s.platform s.mem (s.latch.dst.toNat + s.enc.o)
    (encode (scanBlock (inputElem s) s.latch.n.toNat s.enc.i))
  i : t.enc.i = s.enc.i + scanSize (inputElem s) s.latch.n.toNat s.enc.i
  o : t.enc.o = s.enc.o + (encode (scanBlock (inputElem s) s.latch.n.toNat s.enc.i)).length

/-- The block that opens at i, on its way to being written. -/
def opened (ph : Phase) (s : State) : State :=
  { s with enc := openBlockRegs (inputElem s) s.latch.n.toNat s.enc, phase := ph }

theorem sizeEndsAt_opened (ph : Phase) (s : State) :
    SizeEndsAt (opened ph s) (scanSize (inputElem s) s.latch.n.toNat s.enc.i) :=
  extendScalar_endsAt _

theorem writesBlock_of_closes {ph : Phase} {t : State} (between : BetweenBlocks eng t)
    (closes : Closes (scanSize (inputElem s) s.latch.n.toNat s.enc.i) (opened ph s) t) :
    WritesBlock eng s t :=
  ⟨between, closes.latch, closes.platform, closes.mem, closes.i, closes.o⟩

theorem writes_block (cmd : decodeCommand s.latch.cmd = .ok (compressOn eng kind))
    (between : BetweenBlocks eng s) (inside : s.enc.i < s.latch.n.toNat) :
    ∃ t, Reaches s t ∧ WritesBlock eng s t := by
  obtain ⟨phase, closed⟩ := between
  cases eng with
  | scalar =>
    have step := engineStep_scan cmd phase
    rw [scanStep_of_opening (closed rfl) inside] at step
    obtain ⟨t, run, phase', closes⟩ := scan_closes (s := opened s.phase s) cmd phase rfl
      (sizeEndsAt_opened s.phase s)
    exact ⟨t, .step step run, writesBlock_of_closes ⟨phase', fun _ => closes.closed⟩ closes⟩
  | vector =>
    have step := engineStep_vecOpen cmd phase
    rw [vecOpenStep, if_pos inside] at step
    let grown := growPhase s.latch.n.toNat (openBlockRegs (inputElem s) s.latch.n.toNat s.enc)
    obtain ⟨t, run, phase', closes⟩ := search_closes (s := opened grown s) cmd
      (searching_growPhase rfl) (sizeEndsAt_opened grown s)
    exact ⟨t, .step step run, writesBlock_of_closes ⟨phase', nofun⟩ closes⟩

/-- A sound encoder's next block lands in the output region, which its input misses (R297). -/
theorem inputElem_of_writesBlock {t : State} (sound : s.sound = true)
    (between : BetweenBlocks eng s) (sound' : t.sound = true) (writes : WritesBlock eng s t)
    {j : Nat} (inside : j < s.latch.n.toNat) : inputElem t j = inputElem s j := by
  obtain ⟨ok, room, -, -⟩ := encBetween_iff.mp (between.encBetween sound)
  obtain ⟨-, -, last, written⟩ := encBetween_iff.mp (writes.between.encBetween sound')
  obtain ⟨-, -, -, apart⟩ := argsOk_compress ok
  have length := writes.o
  rw [writes.latch] at last
  rw [maxCompressedSize] at room
  rw [inputElem, writes.latch, writes.mem, inputElem, readElem, readElem]
  refine congrArg rdWord (readBytes_congr fun c lo hi => portWrite_outside _ ?_ ?_)
  · exact (sound_iff_engineFits.mp sound).1
  · omega

/-- At the end of the input the footer is written and the command completes (R189). -/
theorem writes_footer (cmd : decodeCommand s.latch.cmd = .ok (compressOn eng kind))
    (between : BetweenBlocks eng s) (atEnd : s.latch.n.toNat ≤ s.enc.i) :
    Reaches s (closeStream { s with phase := encoderEnd eng }) := by
  obtain ⟨phase, closed⟩ := between
  have close := engineStep_closeStream (s := { s with phase := encoderEnd eng }) cmd rfl
  refine .step ?_ (.of_step close)
  cases eng with
  | scalar =>
    rw [engineStep_scan cmd phase, scanStep_of_end (closed rfl) atEnd]
    rfl
  | vector =>
    rw [engineStep_vecOpen cmd phase, vecOpenStep, if_neg (Nat.not_lt.mpr atEnd)]
    rfl

/-- The bytes an encoder still writes, for the sequence `x`. -/
def bytesLeft (x : Nat → Word) (s : State) (blocks : Nat) : List Byte :=
  streamBytes (scanFrom x s.latch.n.toNat blocks s.enc.i)

/-- The command completed with `bytes` written from o on (R180, R200). -/
structure Compressed (s t : State) (bytes : List Byte) : Prop where
  idle : t.phase = .idle
  err : t.err = .none
  result : t.result = BitVec.ofNat 64 (s.enc.o + bytes.length)
  mem : t.mem = portWrite s.platform s.mem (s.latch.dst.toNat + s.enc.o) bytes

theorem Compressed.after_block {t u : State} {bytes : List Byte} (writes : WritesBlock eng s t)
    (rest : Compressed t u bytes) : Compressed s u
      (encode (scanBlock (inputElem s) s.latch.n.toNat s.enc.i) ++ bytes) := by
  obtain ⟨idle, err, result, mem⟩ := rest
  refine ⟨idle, err, ?_, ?_⟩
  · rw [result, writes.o, List.length_append, Nat.add_assoc]
  · rw [mem, writes.mem, writes.o, writes.platform, writes.latch, portWrite_append, Nat.add_assoc]

theorem encoder_completes {x : Nat → Word}
    (cmd : decodeCommand s.latch.cmd = .ok (compressOn eng kind)) (sound : s.sound = true)
    (between : BetweenBlocks eng s) {blocks : Nat} (enough : s.latch.n.toNat - s.enc.i ≤ blocks)
    (input : ∀ j < s.latch.n.toNat, inputElem s j = x j) :
    ∃ t, Reaches s t ∧ Compressed s t (bytesLeft x s blocks) := by
  induction blocks generalizing s with
  | zero =>
    refine ⟨_, writes_footer cmd between (by omega), rfl, rfl, rfl, rfl⟩
  | succ blocks ih =>
    by_cases inside : s.enc.i < s.latch.n.toNat
    · obtain ⟨t, run, writes⟩ := writes_block cmd between inside
      have sound' := run.sound sound
      obtain ⟨positive, -⟩ := scanSize_spec (x := inputElem s) inside
      have i := writes.i
      obtain ⟨u, run', rest⟩ := ih (s := t) (writes.latch ▸ cmd) sound' writes.between
        (by rw [writes.latch]; omega) (by
          rw [writes.latch]
          exact fun j h =>
            (inputElem_of_writesBlock sound between sound' writes h).trans (input j h))
      refine ⟨u, run.trans run', ?_⟩
      have bytes := rest.after_block writes
      rw [bytesLeft, writes.latch, i, scanSize_congr input inside, scanBlock_congr input inside]
        at bytes
      rw [bytesLeft, scanFrom_succ blocks inside, streamBytes, List.flatMap_cons, List.append_assoc]
      exact bytes
    · refine ⟨_, writes_footer cmd between (by omega), rfl, rfl, ?_, ?_⟩ <;>
        rw [bytesLeft, scanFrom, blocksFrom, if_neg inside] <;> rfl

end

end Sys2Proof.Proofs

namespace Sys2Proof.Proofs

open Sys2Proof.Machine Sys2Proof.Laws

/-! COMPRESS step by step and at once (R180, R200, R269). -/

/-- `t` is a completion with the report and the memory of `w`. -/
structure EndsLike (t w : State) : Prop where
  idle : t.phase = .idle
  err : t.err = w.err
  result : t.result = w.result
  mem : t.mem = w.mem

/-- The same command with its steps merged (log entry 8). -/
abbrev merged (s : State) : State := { s with grain := .command }

section
variable {s : State}

/-- A command that fails a check or meets a refused byte is one step, whatever its grain. -/
theorem compressCheck_endsLike {bytes : List Byte} (first first' : Phase)
    (atOnce : argsOk .compress s.latch = true →
      maxCompressedSize s.latch.n.toNat ≤ s.latch.cap.toNat →
      accessesAdmitted s (readRegion s.latch) ⟨s.latch.dst.toNat, bytes.length⟩ = false) :
    EndsLike (compressCheck bytes first s) (compressCheck bytes first' (merged s)) := by
  cases ok : argsOk .compress s.latch with
  | false =>
    rw [compressCheck_of_bad ok, compressCheck_of_bad (s := merged s) ok]
    exact ⟨rfl, rfl, rfl, rfl⟩
  | true =>
  rcases Nat.lt_or_ge s.latch.cap.toNat (maxCompressedSize s.latch.n.toNat) with short | room
  · rw [compressCheck_of_short ok short, compressCheck_of_short (s := merged s) ok short]
    exact ⟨rfl, rfl, rfl, rfl⟩
  cases draw : drawsBusError s (readRegion s.latch) ⟨s.latch.dst.toNat, bytes.length⟩ with
  | true =>
    rw [compressCheck_of_draw ok room draw, compressCheck_of_draw (s := merged s) ok room draw]
    exact ⟨rfl, rfl, rfl, rfl⟩
  | false =>
    rw [compressCheck_whole ok room draw (runsAtOnce_of_refused (atOnce ok room)),
      compressCheck_whole (s := merged s) ok room draw (runsAtOnce_of_command rfl)]
    exact ⟨rfl, rfl, rfl, rfl⟩

/-- Where every byte is admitted the memory port writes them all (R13). -/
theorem portWrite_of_accessesAdmitted {r : Region} {m : Memory} {a len : Nat} {bs : List Byte}
    (admitted : accessesAdmitted s r ⟨a, len⟩ = true) (length : bs.length = len) :
    portWrite s.platform m a bs = writeBytes m a bs := by
  have writes := (admitsRegion_iff _ _ _).mp (Bool.and_eq_true_iff.mp admitted).2
  refine portWrite_admitted _ _ _ _ fun c lo hi => writes c ?_
  rw [length] at hi
  exact Bool.and_eq_true_iff.mpr ⟨decide_eq_true lo, decide_eq_true hi⟩

/-- The elements of the input, read by index (R63, R197). -/
theorem inputElem_eq_elemAt {j : Nat} (h : j < s.latch.n.toNat) :
    inputElem s j = elemAt (inputElems s) j := by
  have inside : j < (inputElems s).length := by rwa [inputElems, readElems_length]
  rw [elemAt, List.getD_eq_getElem _ _ inside]
  exact (readElems_getElem _ inside).symm

theorem compress_steps {eng : EngineSel} {kind : ElemKind}
    (cmd : decodeCommand s.latch.cmd = .ok (compressOn eng kind)) (sound : s.sound = true)
    (check : s.phase = .check) (grain : s.grain ≠ .command) : ∃ t, Reaches s t
      ∧ EndsLike t (compressCheck (encodeSeq (inputElems s)) (encoderStart eng) (merged s)) := by
  have step := (engineStep_check_ok check cmd).trans (exec_compressOn_check kind check eng)
  by_cases stepwise : argsOk .compress s.latch = true
      ∧ maxCompressedSize s.latch.n.toNat ≤ s.latch.cap.toNat
      ∧ accessesAdmitted s (readRegion s.latch)
        ⟨s.latch.dst.toNat, (encodeSeq (inputElems s)).length⟩ = true
  case neg =>
    exact ⟨_, .of_step step, compressCheck_endsLike _ _ fun ok room =>
      Bool.eq_false_iff.mpr fun admitted => stepwise ⟨ok, room, admitted⟩⟩
  case pos =>
  obtain ⟨ok, room, admitted⟩ := stepwise
  have draw := drawsBusError_of_admitted admitted
  have steps : compressCheck (encodeSeq (inputElems s)) (encoderStart eng) s
      = { s with phase := encoderStart eng } := by
    simp [compressCheck, ok, Nat.not_lt.mpr room, draw, runsAtOnce, grain, admitted]
  rw [steps] at step
  obtain ⟨i, o, closed, -⟩ := check_bounds check (sound_iff.mp sound).2.2
  obtain ⟨t, run, done⟩ := encoder_completes (x := elemAt (inputElems s))
    (s := { s with phase := encoderStart eng }) (blocks := s.latch.n.toNat) cmd
    (engineStep_sound sound step) ⟨rfl, fun _ => closed⟩ (Nat.sub_le _ _)
    (fun j h => inputElem_eq_elemAt h)
  have bytes : bytesLeft (elemAt (inputElems s)) { s with phase := encoderStart eng }
      s.latch.n.toNat = encodeSeq (inputElems s) := by
    rw [encodeSeq_eq_streamBytes, inputElems, readElems_length, bytesLeft, i]
  rw [bytes] at done
  have result : t.result = BitVec.ofNat 64 (s.enc.o + (encodeSeq (inputElems s)).length) :=
    done.result
  have mem : t.mem = portWrite s.platform s.mem (s.latch.dst.toNat + s.enc.o)
      (encodeSeq (inputElems s)) := done.mem
  rw [o, Nat.zero_add] at result
  rw [o, Nat.add_zero, portWrite_of_accessesAdmitted admitted rfl] at mem
  refine ⟨t, .step step run, ?_⟩
  rw [compressCheck_whole (s := merged s) ok room draw (runsAtOnce_of_command rfl)]
  exact ⟨done.idle, done.err, result, mem⟩

end

/-- Settles O50: the blocks written one by one are those of encodeSeq. -/
theorem stepwiseCompressEqualsWhole : Obligations.StepwiseCompressEqualsWhole := by
  intro i kind s w command sound check grain cmd whole
  obtain ⟨eng, rfl⟩ : ∃ eng, i = compressOn eng kind := by
    rcases command with rfl | rfl
    · exact ⟨.scalar, rfl⟩
    · exact ⟨.vector, rfl⟩
  rw [exec_compressOn_check (s := merged s) kind check eng] at whole
  obtain rfl := Host.Outcome.next.inj whole
  obtain ⟨t, ⟨k, run⟩, idle, err, result, mem⟩ := compress_steps cmd sound check grain
  exact ⟨k, t, run, idle, err, result, mem⟩

end Sys2Proof.Proofs

namespace Sys2Proof.Proofs

open Sys2Proof.Machine Sys2Proof.Laws

/-! The elements left of an open block: every step takes some of them, on either engine, until the
block is done (R237, R271, R272, R276). -/

section
variable {s : State}

/-- The elements left of the open block (R150, R155, R160). -/
def blockRest (s : State) : List Word :=
  match s.dec.kind with
  | .repeatRun => List.replicate (s.dec.nb - s.dec.j) (nextCopy s)
  | .deltaE =>
    if s.dec.j = 0 then
      nextCopy s :: reconstructAll (nextCopy s)
        (decodeFields s.dec.w (s.dec.nb - 1)
          (streamAt s (s.dec.q + 8) ((s.dec.nb - 1) * bytesOf s.dec.w)))
    else deltaElems (s.dec.nb - s.dec.j) s
  | .deltaI => deltaElems (s.dec.nb - s.dec.j) s

theorem blockRest_of_copies (copies : s.dec.kind = .repeatRun) :
    blockRest s = List.replicate (s.dec.nb - s.dec.j) (nextCopy s) := by
  rw [blockRest, copies]

theorem blockRest_of_reference (delta : s.dec.kind = .deltaE) (first : s.dec.j = 0) :
    blockRest s = nextCopy s :: reconstructAll (nextCopy s)
      (decodeFields s.dec.w (s.dec.nb - 1)
        (streamAt s (s.dec.q + 8) ((s.dec.nb - 1) * bytesOf s.dec.w))) := by
  rw [blockRest, delta]
  exact if_pos first

theorem blockRest_of_fields (delta : s.dec.kind ≠ .repeatRun)
    (started : s.dec.kind = .deltaE → 1 ≤ s.dec.j) :
    blockRest s = deltaElems (s.dec.nb - s.dec.j) s := by
  rw [blockRest]
  cases kind : s.dec.kind with
  | repeatRun => exact absurd kind delta
  | deltaE => exact if_neg (Nat.one_le_iff_ne_zero.mp (started kind))
  | deltaI => rfl

/-- Taking `es` and moving to `q` takes the first elements left of the open block. -/
structure TakesNext (s : State) (es : List Word) (q : Nat) : Prop where
  positive : 1 ≤ es.length
  few : es.length ≤ s.dec.nb - s.dec.j
  field : q = s.dec.p + s.dec.h + fieldOffset { s.dec with j := s.dec.j + es.length }
  all : s.dec.j + es.length = s.dec.nb → blockRest s = es
  more : s.dec.j + es.length < s.dec.nb → ∀ g, blockRest s = es ++ blockRest (takeElems es q g s)

section
variable (hm : s.mem.wf = true) (inside : decInside s = true)
include hm inside

theorem takesNext_copies (copies : s.dec.kind = .repeatRun) {m : Nat} (positive : 1 ≤ m)
    (few : m ≤ s.dec.nb - s.dec.j) : TakesNext s (List.replicate m (nextCopy s)) s.dec.q := by
  obtain ⟨between, -, -, region, field⟩ := decInside_iff.mp inside
  obtain ⟨-, -, footer, -⟩ := decBetween_iff.mp between
  have offset : fieldOffset s.dec = 0 := by simp [fieldOffset, copies]
  have length : (List.replicate m (nextCopy s)).length = m := List.length_replicate
  rw [copies, payLen] at region
  rw [footerOffset] at footer
  refine ⟨by omega, by omega, ?_, fun all => ?_, fun more g => ?_⟩
  · rw [field]
    simp [fieldOffset, copies]
  · rw [blockRest_of_copies copies]
    congr 1
    omega
  · have stream : streamAt (takeElems (List.replicate m (nextCopy s)) s.dec.q g s) s.dec.q 8
        = streamAt s s.dec.q 8 := streamAt_takeElems hm inside (by omega) _ g (by omega)
    have dec := takeElems_dec_of_more more s.dec.q g
    have rest : blockRest (takeElems (List.replicate m (nextCopy s)) s.dec.q g s)
        = List.replicate (s.dec.nb - s.dec.j - m) (nextCopy s) := by
      have copy : nextCopy (takeElems (List.replicate m (nextCopy s)) s.dec.q g s)
          = nextCopy s := by
        refine congrArg rdWord (Eq.trans ?_ stream)
        rw [dec]
        rfl
      rw [blockRest_of_copies (by rwa [dec]), copy, dec, tookElems, length, Nat.sub_add_eq]
    rw [rest, blockRest_of_copies copies, List.replicate_append_replicate, Nat.add_sub_cancel' few]

theorem takesNext_fields (delta : s.dec.kind ≠ .repeatRun)
    (started : s.dec.kind = .deltaE → 1 ≤ s.dec.j) {m : Nat} (positive : 1 ≤ m)
    (few : m ≤ s.dec.nb - s.dec.j) :
    TakesNext s (deltaElems m s) (s.dec.q + m * bytesOf s.dec.w) := by
  obtain ⟨-, -, -, -, field⟩ := decInside_iff.mp inside
  have length := deltaElems_length m s
  refine ⟨by omega, by omega, ?_, fun all => ?_, fun more g => ?_⟩
  · rw [length, EngineFits.fieldOffset_add _ delta started, field, Nat.add_assoc]
  · rw [blockRest_of_fields delta started]
    congr 1
    omega
  · have dec := takeElems_dec_of_more more (s.dec.q + m * bytesOf s.dec.w) g
    have rest : blockRest (takeElems (deltaElems m s) (s.dec.q + m * bytesOf s.dec.w) g s)
        = deltaElems (s.dec.nb - s.dec.j - m)
            (takeElems (deltaElems m s) (s.dec.q + m * bytesOf s.dec.w) g s) := by
      rw [blockRest_of_fields (by rwa [dec])]
      · rw [dec, tookElems, length]
        dsimp only
        rw [Nat.sub_add_eq]
      · rw [dec, tookElems, length]
        exact fun _ => positive.trans (Nat.le_add_left _ _)
    rw [rest, blockRest_of_fields delta started,
      ← deltaElems_add hm inside delta started (by omega) (by omega) g, Nat.add_sub_cancel' few]

theorem takesNext_reference (delta : s.dec.kind = .deltaE) (first : s.dec.j = 0) :
    TakesNext s [nextCopy s] (s.dec.q + 8) := by
  obtain ⟨between, some, -, region, field⟩ := decInside_iff.mp inside
  obtain ⟨-, -, footer, -⟩ := decBetween_iff.mp between
  have offset : fieldOffset s.dec = 0 := by simp [fieldOffset, delta, first]
  rw [delta, payLen] at region
  rw [footerOffset] at footer
  refine ⟨le_rfl, by rw [List.length_singleton]; omega, ?_, fun all => ?_, fun more g => ?_⟩
  · rw [field, offset]
    simp [fieldOffset, delta, first]
  · rw [List.length_singleton] at all
    have one : s.dec.nb - 1 = 0 := by omega
    rw [blockRest_of_reference delta first, one]
    rfl
  · have stream : streamAt (takeElems [nextCopy s] (s.dec.q + 8) g s) (s.dec.q + 8)
        ((s.dec.nb - 1) * bytesOf s.dec.w)
        = streamAt s (s.dec.q + 8) ((s.dec.nb - 1) * bytesOf s.dec.w) :=
      streamAt_takeElems hm inside (by rw [List.length_singleton]; omega) _ g (by omega)
    have dec := takeElems_dec_of_more more (s.dec.q + 8) g
    have rest : blockRest (takeElems [nextCopy s] (s.dec.q + 8) g s)
        = deltaElems (s.dec.nb - 1) (takeElems [nextCopy s] (s.dec.q + 8) g s) := by
      rw [blockRest_of_fields]
      · rw [dec, tookElems, first]
        rfl
      · rw [dec, tookElems, delta]
        exact nofun
      · rw [dec, tookElems]
        exact fun _ => Nat.le_add_left _ _
    rw [rest, blockRest_of_reference delta first, deltaElems, dec]
    dsimp only [tookElems]
    rw [stream]
    rfl

/-- One element (R237, R273). -/
theorem takesNext_elem : TakesNext s [nextElem s] (s.dec.q + fieldStep s.dec) := by
  obtain ⟨-, some, -⟩ := decInside_iff.mp inside
  by_cases copies : s.dec.kind = .repeatRun
  · have takes := takesNext_copies hm inside copies (m := 1) le_rfl (by omega)
    rw [nextElem, fieldStep, copies]
    exact takes
  by_cases first : s.dec.kind = .deltaE ∧ s.dec.j = 0
  · obtain ⟨delta, zero⟩ := first
    have takes := takesNext_reference hm inside delta zero
    rw [nextElem, fieldStep, delta]
    dsimp only
    rw [if_pos zero, if_pos zero]
    exact takes
  · have started : s.dec.kind = .deltaE → 1 ≤ s.dec.j := fun delta => by
      have := not_and.mp first delta
      omega
    obtain ⟨one, step⟩ := deltaElems_one copies started
    have takes := takesNext_fields hm inside copies started (m := 1) le_rfl (by omega)
    rwa [one, Nat.one_mul, ← step] at takes

end

/-! ## The body of a block -/

/-- An open block goes on in a phase that takes elements of it (R237, R276). -/
theorem bodyPhase_cases (eng : EngineSel) (d : DecRegs) :
    bodyPhase eng d = elementPhase eng ∨ eng = .vector ∧ bodyPhase eng d = .dLane := by
  unfold bodyPhase
  cases eng with
  | scalar => exact .inl rfl
  | vector =>
    dsimp only
    repeat' split
    all_goals simp [elementPhase]

variable {eng : EngineSel} {kind : ElemKind}

theorem body_bounds (sound : s.sound = true)
    (phase : s.phase = elementPhase eng ∨ eng = .vector ∧ s.phase = .dLane) :
    decInside s = true ∧ (s.phase = .dLane → laneReady s.dec = true) := by
  have bounded := (sound_iff_engineFits.mp sound).2.bounded
  refine ⟨?_, fun lane => ?_⟩
  · rcases phase with h | ⟨-, h⟩
    · cases eng <;> simp_all [engineBounded, elementPhase]
    · simp_all [engineBounded]
  · simp_all [engineBounded]

/-- A step of the body takes the next elements left of the block. -/
theorem body_step (cmd : decodeCommand s.latch.cmd = .ok (decompressOn eng kind))
    (sound : s.sound = true)
    (phase : s.phase = elementPhase eng ∨ eng = .vector ∧ s.phase = .dLane) :
    ∃ es q g, engineStep s = .next (takeElems es q g s) ∧ TakesNext s es q := by
  have hm := (sound_iff_engineFits.mp sound).1
  obtain ⟨inside, lane⟩ := body_bounds sound phase
  have notBlock (other : s.phase ≠ .hdr) : ¬ atBlock s = true :=
    fun block => other (atBlock_iff.mp block).1
  rcases phase with h | ⟨rfl, h⟩
  · have step : engineStep s = .next (elemStep s) := by
      rw [← exec_element kind h]
      refine engineStep_command ?_ ?_ (notBlock ?_) cmd <;> rw [h] <;> cases eng <;> decide
    rw [elemStep_eq] at step
    exact ⟨_, _, _, step, takesNext_elem hm inside⟩
  · have step : engineStep s = .next (laneStep s) := by
      rw [← exec_lane kind h]
      refine engineStep_command ?_ ?_ (notBlock ?_) cmd <;> rw [h] <;> decide
    by_cases copies : s.dec.kind = .repeatRun
    · obtain ⟨-, some, -⟩ := decInside_iff.mp inside
      have positive := lanes_pos
      rw [laneStep_of_repeat copies, repeatLaneStep_eq] at step
      exact ⟨_, _, _, step,
        takesNext_copies hm inside copies (by omega) (Nat.min_le_right _ _)⟩
    · obtain ⟨lanes, started⟩ := ((laneReady_iff _).mp (lane h)).resolve_left copies
      rw [laneStep_of_delta copies, deltaLaneStep_eq] at step
      exact ⟨_, _, _, step, takesNext_fields hm inside copies started lanes_pos lanes⟩

/-- The body runs to the block's end: the elements left of it are taken (R233). -/
theorem body_runs (cmd : decodeCommand s.latch.cmd = .ok (decompressOn eng kind))
    (sound : s.sound = true)
    (phase : s.phase = elementPhase eng ∨ eng = .vector ∧ s.phase = .dLane) :
    ∃ q g, Reaches s (takeElems (blockRest s) q g s)
      ∧ s.dec.nb ≤ s.dec.j + (blockRest s).length := by
  generalize left : s.dec.nb - s.dec.j = d
  induction d using Nat.strong_induction_on generalizing s with
  | _ d ih =>
  obtain ⟨es, q, g, step, takes⟩ := body_step cmd sound phase
  rcases Nat.lt_or_ge (s.dec.j + es.length) s.dec.nb with more | all
  · have rest := takes.more more g
    have dec := takeElems_dec_of_more more q g
    have sound' := engineStep_sound sound step
    have phase' : (takeElems es q g s).phase = bodyPhase eng (tookElems es q s) := by
      rw [takeElems_of_more es q g s more, runningEngine_of_decompressOn cmd]
    have latch : (takeElems es q g s).latch = s.latch := by
      rw [takeElems_of_more es q g s more]
    have positive := takes.positive
    obtain ⟨q', g', run, all⟩ := ih (s.dec.nb - (s.dec.j + es.length)) (by omega)
      (s := takeElems es q g s) (latch ▸ cmd) sound' (phase' ▸ bodyPhase_cases eng _)
      (by rw [dec, tookElems])
    rw [takeElems_takeElems es _ more, ← rest] at run
    refine ⟨q', g', .step step run, ?_⟩
    rw [dec, tookElems] at all
    rw [rest, List.length_append]
    dsimp only at all
    omega
  · have few := takes.few
    have positive := takes.positive
    rw [takes.all (by omega)]
    exact ⟨q, g, .of_step step, all⟩

end

end Sys2Proof.Proofs

namespace Sys2Proof.Proofs

open Sys2Proof.Machine Sys2Proof.Laws

/-! A block read from the stream, and what a DECOMPRESS leaves after it, whether the block runs
whole or by the engine's steps (R226 to R233, R237, R276). -/

/-- The bytes at p are a block of kind `k`, width code `w` and count `cnt`, and `rest` after it. -/
structure ReadsBlock (s : State) (i : Instr) (rest : List Byte) (k : BlockKind) (w : WidthCode)
    (cnt : BlockCount) : Prop where
  instr : i = decodePayload k w cnt
    (streamAt s (s.dec.p + hdrLen cnt) (s.dec.endOff - (s.dec.p + hdrLen cnt)))
  shape : blockShape i = (k, w, hdrLen cnt)
  count : blockCount i = cnt.n
  positive : 1 ≤ cnt.n
  byteLen : i.byteLen = hdrLen cnt + payLen k w cnt.n
  fits : s.dec.p + hdrLen cnt + payLen k w cnt.n ≤ s.dec.endOff
  rest : rest = streamAt s (s.dec.p + i.byteLen) (s.dec.endOff - (s.dec.p + i.byteLen))

section
variable {s : State}

/-- The bytes after a header that decoded. -/
theorem body_of_decodeCount (left : s.dec.p < s.dec.endOff) {k : BlockKind} {c : Nat}
    {cnt : BlockCount} {body : List Byte}
    (count : decodeCount k c (blockTail s) = .ok (cnt, body)) :
    body = streamAt s (s.dec.p + hdrLen cnt) (s.dec.endOff - (s.dec.p + hdrLen cnt)) := by
  rw [decodeCount_blockTail left] at count
  split_ifs at count with long cut zero <;> cases count
  · have drop : (blockTail s).drop 4
        = streamAt s (s.dec.p + 1 + 4) (s.dec.endOff - s.dec.p - 1 - 4) :=
      readBytes_drop _ _ (by omega)
    rw [drop, hdrLen, if_pos rfl]
    rfl
  · rw [hdrLen, if_neg Bool.false_ne_true, blockTail, Nat.sub_sub]

theorem readsBlock_of_decoded (left : s.dec.p < s.dec.endOff) {i : Instr} {rest : List Byte}
    (decoded : decodeBlock (blockBytesAt s) = .ok (i, rest)) :
    ∃ k w cnt, ReadsBlock s i rest k w cnt := by
  obtain ⟨sel, tail, k, w, c, cnt, body, bytes, selector, count, fits, instr, restEq⟩ :=
    decodeBlock_ok decoded
  rw [blockBytesAt_eq left] at bytes
  obtain ⟨rfl, rfl⟩ := List.cons.inj bytes
  obtain ⟨-, small, noWidth⟩ := selectorByte_of_decodeSelector selector
  obtain ⟨countWf, -⟩ := encodeHeader_of_decodeCount small count w
  obtain ⟨positive, -⟩ := (blockCount_wf_iff cnt).mp countWf
  obtain ⟨shape, blockCount⟩ := blockShape_decodePayload cnt body noWidth
  obtain ⟨size, -⟩ := headerAt_of_count left selector count
  have byteLen : i.byteLen = hdrLen cnt + payLen k w cnt.n := by
    rw [instr]
    cases k <;> simp [decodePayload, Instr.byteLen, payLen]
  have stream := body_of_decodeCount left count
  refine ⟨k, w, cnt, stream ▸ instr, instr ▸ shape, instr ▸ blockCount, positive, byteLen,
    by omega, ?_⟩
  rw [restEq, stream, byteLen, streamAt, readBytes_drop _ _ (by omega), streamAt]
  congr 1 <;> omega

end

/-- Only the fields a block has are read of its payload. -/
theorem decodeFields_append (w : WidthCode) {m : Nat} {xs : List Byte} (ys : List Byte)
    (length : xs.length = m * bytesOf w) : decodeFields w m (xs ++ ys) = decodeFields w m xs := by
  have fields := decodeFields_add w 0 ys length
  rwa [decodeFields, List.append_nil] at fields

/-- The header of a block that decoded. -/
def headerOf (i : Instr) : BlockHeader :=
  ⟨(blockShape i).1, (blockShape i).2.1, blockCount i, (blockShape i).2.2⟩

section
variable {s : State} {i : Instr} {rest : List Byte} {k : BlockKind} {w : WidthCode}
  {cnt : BlockCount}

/-- The block a header opens has the elements of its bytes (R150, R155, R160). -/
theorem blockRest_opened (reads : ReadsBlock s i rest k w cnt) (ph : Phase) :
    blockRest { s with dec := openedBlock (headerOf i) s.dec, phase := ph }
      = blockElems s.dec.prev i := by
  obtain ⟨instr, shape, count, positive, -, fits, -⟩ := reads
  rw [headerOf, shape, count]
  generalize size : s.dec.endOff - (s.dec.p + hdrLen cnt) = room at instr
  rw [instr]
  cases k with
  | repeatRun =>
    rw [payLen] at fits
    have value : (streamAt s (s.dec.p + hdrLen cnt) room).take 8
        = streamAt s (s.dec.p + hdrLen cnt) 8 := readBytes_take _ _ (by omega)
    rw [blockRest_of_copies rfl, decodePayload, blockElems, value]
    rfl
  | deltaE =>
    rw [payLen] at fits
    obtain ⟨more, rfl⟩ : ∃ more, room = 8 + (cnt.n - 1) * bytesOf w + more :=
      Nat.exists_eq_add_of_le (by omega)
    rw [blockRest_of_reference rfl rfl, decodePayload, blockElems, Nat.add_assoc 8,
      streamAt_add s _ 8, List.take_left' (streamAt_length _ _ _),
      List.drop_left' (streamAt_length _ _ _), streamAt_add,
      decodeFields_append w _ (streamAt_length _ _ _)]
    rfl
  | deltaI =>
    rw [payLen] at fits
    obtain ⟨more, rfl⟩ : ∃ more, room = cnt.n * bytesOf w + more :=
      Nat.exists_eq_add_of_le (by omega)
    rw [blockRest_of_fields (by exact nofun) (by exact nofun), decodePayload, blockElems,
      streamAt_add, decodeFields_append w _ (streamAt_length _ _ _)]
    rfl

end

/-- From `s` to `t` the block `i` at p was taken (R232, R233). -/
structure TakesBlock (i : Instr) (s t : State) : Prop where
  phase : t.phase = .hdr
  latch : t.latch = s.latch
  platform : t.platform = s.platform
  mem : t.mem = portWrite s.platform s.mem (s.latch.dst.toNat + 8 * s.dec.k)
    (elemBytes (blockElems s.dec.prev i))
  endOff : t.dec.endOff = s.dec.endOff
  p : t.dec.p = s.dec.p + i.byteLen
  k : t.dec.k = s.dec.k + blockCount i
  prev : t.dec.prev = (blockElems s.dec.prev i).getLastD s.dec.prev
  hasPrev : t.dec.hasPrev = true

section
variable {s : State} {eng : EngineSel} {kind : ElemKind} {i : Instr} {rest : List Byte}

theorem blockElems_isEmpty (decoded : decodeBlock (blockBytesAt s) = .ok (i, rest))
    (passed : blockError i s = none) : (blockElems s.dec.prev i).isEmpty = false := by
  obtain ⟨length, positive, -⟩ := blockElems_fit decoded passed
  rw [List.isEmpty_eq_false_iff, ← List.length_pos_iff_ne_nil]
  omega

theorem runBlock_takes (hdr : s.phase = .hdr)
    (decoded : decodeBlock (blockBytesAt s) = .ok (i, rest)) (passed : blockError i s = none) :
    TakesBlock i s (runBlock i s) := by
  obtain ⟨g, run, -⟩ := runBlock_eq i s
  obtain ⟨length, -⟩ := blockElems_fit decoded passed
  rw [run]
  refine ⟨hdr, rfl, rfl, rfl, rfl, rfl, congrArg (s.dec.k + ·) length, rfl, ?_⟩
  change (s.dec.hasPrev || !(blockElems s.dec.prev i).isEmpty) = true
  rw [blockElems_isEmpty decoded passed, Bool.not_false, Bool.or_true]

/-- At a header the command fetches, unless blocks run whole (R237). -/
theorem engineStep_header (cmd : decodeCommand s.latch.cmd = .ok (decompressOn eng kind))
    (hdr : s.phase = .hdr) (notBlock : ¬ atBlock s = true) :
    engineStep s = .next (headerStep s) := by
  rw [← exec_header kind eng hdr]
  exact engineStep_command (by simp [hdr]) (by simp [hdr]) notBlock cmd

variable (cmd : decodeCommand s.latch.cmd = .ok (decompressOn eng kind))
  (hdr : s.phase = .hdr) (wanted : s.dec.k ≠ s.latch.n.toNat) (left : s.dec.p < s.dec.endOff)
include cmd hdr wanted left

theorem takes_block (sound : s.sound = true)
    (decoded : decodeBlock (blockBytesAt s) = .ok (i, rest)) (passed : blockError i s = none) :
    ∃ t, Reaches s t ∧ TakesBlock i s t := by
  have block := (encode_of_decodeBlock decoded).2.1
  by_cases whole : atBlock s = true
  · have step := (engineStep_atBlock whole).trans
      (show stepBlock s = exec i s by rw [stepBlock, decoded])
    rw [exec_passing block hdr passed] at step
    exact ⟨_, .of_step step, runBlock_takes hdr decoded passed⟩
  · have header : headerAt s = .ok (headerOf i) := by
      rw [headerAt_of_decoded left decoded, passed]
      rfl
    have step := engineStep_header cmd hdr whole
    rw [headerStep_of_ok wanted left.ne header] at step
    obtain ⟨k, w, cnt, reads⟩ := readsBlock_of_decoded left decoded
    obtain ⟨length, -⟩ := blockElems_fit decoded passed
    have elems := blockRest_opened reads
      (bodyPhase (runningEngine s) (openedBlock (headerOf i) s.dec))
    obtain ⟨q, g, run, all⟩ := body_runs (eng := eng) (kind := kind) (s := { s with
        dec := openedBlock (headerOf i) s.dec
        phase := bodyPhase (runningEngine s) (openedBlock (headerOf i) s.dec) })
      cmd (engineStep_sound sound step)
      (by rw [runningEngine_of_decompressOn cmd]; exact bodyPhase_cases eng _)
    rw [elems] at run all
    rw [takeElems_of_all _ q g _ all] at run
    refine ⟨_, .step step run, rfl, rfl, rfl, rfl, rfl, ?_, congrArg (s.dec.k + ·) length, rfl, ?_⟩
    · change s.dec.p + (headerOf i).h + payLen (headerOf i).kind (headerOf i).w (headerOf i).nb = _
      rw [headerOf, reads.shape, reads.count, reads.byteLen, Nat.add_assoc]
    · change (s.dec.hasPrev || !(blockElems s.dec.prev i).isEmpty) = true
      rw [blockElems_isEmpty decoded passed, Bool.not_false, Bool.or_true]

/-- A block that fails a check ends the command with that check's code (R229). -/
theorem block_fails {e : ErrCode} (failed : headerAt s = .error e)
    (whole : stepBlock s = .next (s.raiseDirty e)) : engineStep s = .next (s.raiseDirty e) := by
  by_cases block : atBlock s = true
  · exact (engineStep_atBlock block).trans whole
  · rw [engineStep_header cmd hdr block, headerStep_of_error wanted left.ne failed]

theorem refused_fails {r : Reject} (refused : decodeBlock (blockBytesAt s) = .error r) :
    engineStep s = .next (s.raiseDirty (rejectCode s.dec.hasPrev r)) :=
  block_fails cmd hdr wanted left (headerAt_of_refused left refused) (by rw [stepBlock, refused])

theorem checked_fails (decoded : decodeBlock (blockBytesAt s) = .ok (i, rest)) {e : ErrCode}
    (failed : blockError i s = some e) : engineStep s = .next (s.raiseDirty e) := by
  refine block_fails cmd hdr wanted left ?_ ?_
  · rw [headerAt_of_decoded left decoded, failed]
  · rw [stepBlock, decoded]
    exact exec_failing (encode_of_decodeBlock decoded).2.1 hdr failed

end

end Sys2Proof.Proofs

namespace Sys2Proof.Proofs

open Sys2Proof.Machine Sys2Proof.Laws

/-! The decoder's run from between two blocks is the loop of R220 on the bytes left, whatever the
engine and the grain (R18, R237, R276). -/

/-- The running reference, once there is one (R168). -/
def reference (d : DecRegs) : Option Word := if d.hasPrev then some d.prev else none

@[simp] theorem reference_isSome (d : DecRegs) : (reference d).isSome = d.hasPrev := by
  rw [reference]
  cases d.hasPrev <;> rfl

theorem reference_getD (d : DecRegs) (h : d.hasPrev = true) (v : Word) :
    (reference d).getD v = d.prev := by
  rw [reference, if_pos h]
  rfl

/-- The command completed with the elements or the error that `r` says, written from k on (R234,
R235). -/
structure Decompressed (s t : State) (r : Except ErrCode (List Word)) : Prop where
  idle : t.phase = .idle
  ok : ∀ xs, r = .ok xs → t.err = .none ∧ t.result = s.latch.n
    ∧ t.mem = portWrite s.platform s.mem (s.latch.dst.toNat + 8 * s.dec.k) (elemBytes xs)
  error : ∀ e, r = .error e → t.err = e ∧ t.result = 0#64

theorem decompressed_raiseDirty (s : State) (e : ErrCode) :
    Decompressed s (s.raiseDirty e) (.error e) :=
  ⟨rfl, nofun, fun _ h => ⟨Except.error.inj h, rfl⟩⟩

theorem decompressed_complete (s : State) (ph : Phase) :
    Decompressed s (completeDecompress { s with phase := ph }) (.ok []) :=
  ⟨rfl, fun _ h => Except.ok.inj h ▸ ⟨rfl, rfl, rfl⟩, nofun⟩

/-! ## The loop, by what its bytes decode to -/

section
variable {fuel want : Nat} {bs rest : List Byte} {prev : Option Word} {i : Instr}

theorem decodeLoop_done : decodeLoop blockElems (fuel + 1) bs 0 prev
    = if bs.isEmpty then .ok [] else .error .lengthMismatch :=
  if_pos rfl

theorem decodeLoop_exhausted (wanted : want ≠ 0) :
    decodeLoop blockElems (fuel + 1) [] want prev = .error .lengthMismatch := by
  rw [decodeLoop, if_neg wanted]
  rfl

variable (wanted : want ≠ 0) (left : bs.isEmpty = false)
include wanted left

theorem decodeLoop_refused {r : Reject} (refused : decodeBlock bs = .error r) :
    decodeLoop blockElems (fuel + 1) bs want prev = .error (rejectCode prev.isSome r) := by
  rw [decodeLoop, if_neg wanted, left, if_neg Bool.false_ne_true, refused]

theorem decodeLoop_decoded (decoded : decodeBlock bs = .ok (i, rest)) :
    decodeLoop blockElems (fuel + 1) bs want prev
      = if needsReference i && !prev.isSome then .error .unsupportedFormat
        else if want < blockCount i then .error .lengthMismatch
        else
          (decodeLoop blockElems fuel rest (want - blockCount i)
            (blockElems (prev.getD 0#64) i).getLast?).map (blockElems (prev.getD 0#64) i ++ ·) := by
  rw [decodeLoop, if_neg wanted, left, if_neg Bool.false_ne_true, decoded]
  dsimp only
  split_ifs
  · rfl
  · rfl
  · cases decodeLoop blockElems fuel rest (want - blockCount i)
      (blockElems (prev.getD 0#64) i).getLast? <;> rfl

end

/-- A block without a reference has its elements whatever came before it (R150, R155). -/
theorem blockElems_reference {i : Instr} {d : DecRegs}
    (known : needsReference i = true → d.hasPrev = true) :
    blockElems ((reference d).getD 0#64) i = blockElems d.prev i := by
  cases i with
  | deltaI c w zs => rw [reference_getD d (known rfl)]
  | _ => rfl

theorem getLast?_eq_getLastD {es : List Word} (h : es.isEmpty = false) (d : Word) :
    es.getLast? = some (es.getLastD d) := by
  cases es with
  | nil => cases h
  | cons e es => rw [List.getLast?_cons, List.getLastD_cons, List.getLastD_eq_getLast?]

section
variable {s : State} {eng : EngineSel} {kind : ElemKind} {i : Instr} {rest : List Byte}

/-- A block that decoded fails for want of a reference or for its count's excess only (R229). -/
theorem blockError_of_decoded (left : s.dec.p < s.dec.endOff)
    (decoded : decodeBlock (blockBytesAt s) = .ok (i, rest)) : blockError i s
      = if needsReference i && !s.dec.hasPrev then some .unsupportedFormat
        else if s.latch.n.toNat - s.dec.k < blockCount i then some .lengthMismatch else none := by
  obtain ⟨k, w, cnt, reads⟩ := readsBlock_of_decoded left decoded
  have some : blockCount i ≠ 0 := by
    have := reads.positive
    rw [reads.count]
    omega
  have fits : ¬ s.dec.endOff < s.dec.p + i.byteLen := by
    have := reads.fits
    rw [reads.byteLen]
    omega
  rw [blockError, if_neg some, if_neg fits]

theorem byteLen_pos (left : s.dec.p < s.dec.endOff)
    (decoded : decodeBlock (blockBytesAt s) = .ok (i, rest)) : 0 < i.byteLen := by
  obtain ⟨k, w, cnt, reads⟩ := readsBlock_of_decoded left decoded
  have header : 0 < hdrLen cnt := by
    rw [hdrLen]
    split <;> decide
  rw [reads.byteLen]
  omega

/-- The bytes after a block taken are those after it before. -/
theorem blockBytesAt_of_takesBlock {t : State} (hm : s.mem.wf = true)
    (between : decBetween s = true) (left : s.dec.p < s.dec.endOff)
    (decoded : decodeBlock (blockBytesAt s) = .ok (i, rest))
    (passed : blockError i s = none) (takes : TakesBlock i s t) : blockBytesAt t = rest := by
  obtain ⟨k, w, cnt, reads⟩ := readsBlock_of_decoded left decoded
  obtain ⟨ok, -, footer, -, wanted⟩ := decBetween_iff.mp between
  obtain ⟨length, -, fits, few⟩ := blockElems_fit decoded passed
  rw [footerOffset] at footer
  rw [reads.rest, blockBytesAt, takes.p, takes.endOff]
  exact streamAt_portWrite hm ok (by omega) takes.latch takes.mem (by omega)

theorem Decompressed.after_block {t u : State} {r : Except ErrCode (List Word)}
    (takes : TakesBlock i s t) (length : (blockElems s.dec.prev i).length = blockCount i)
    (rest : Decompressed t u r) :
    Decompressed s u (r.map (blockElems s.dec.prev i ++ ·)) := by
  obtain ⟨idle, ok, error⟩ := rest
  refine ⟨idle, fun xs h => ?_, fun e h => ?_⟩
  · cases r with
    | error e => cases h
    | ok ys =>
      obtain ⟨err, result, mem⟩ := ok ys rfl
      obtain rfl := Except.ok.inj h
      refine ⟨err, result.trans (congrArg _ takes.latch), ?_⟩
      rw [mem, takes.mem, takes.platform, takes.latch, takes.k, ← length, portWrite_elems_append]
  · cases r with
    | error e' => exact error e h
    | ok ys => cases h

theorem blockBytesAt_isEmpty (within : s.dec.p ≤ s.dec.endOff) :
    (blockBytesAt s).isEmpty = true ↔ s.dec.p = s.dec.endOff := by
  rw [List.isEmpty_iff, ← List.length_eq_zero_iff, blockBytesAt, streamAt_length]
  omega

/-- The end of the stream: the block region must be used up (R237). -/
theorem decoder_finishes (cmd : decodeCommand s.latch.cmd = .ok (decompressOn eng kind))
    (between : decBetween s = true) (hdr : s.phase = .hdr) (done : s.dec.k = s.latch.n.toNat)
    {fuel : Nat} {prev : Option Word} : ∃ t, Reaches s t
      ∧ Decompressed s t (decodeLoop blockElems (fuel + 1) (blockBytesAt s) 0 prev) := by
  have notBlock : ¬ atBlock s = true := fun block => (atBlock_iff.mp block).2.2.1 done
  have step := engineStep_header cmd hdr notBlock
  rw [headerStep_of_done done] at step
  have finish : engineStep { s with phase := .fin }
      = .next (finishStep { s with phase := .fin }) := by
    rw [← exec_finish kind eng rfl]
    exact engineStep_command (by exact nofun) (by exact nofun) (by simp [atBlock]) cmd
  refine ⟨_, .step step (.of_step finish), ?_⟩
  obtain ⟨-, -, -, within, -⟩ := decBetween_iff.mp between
  rw [decodeLoop_done, finishStep]
  by_cases atEnd : s.dec.p = s.dec.endOff
  · rw [if_pos atEnd, if_pos ((blockBytesAt_isEmpty within).mpr atEnd)]
    exact decompressed_complete s .fin
  · rw [if_neg atEnd, if_neg (atEnd ∘ (blockBytesAt_isEmpty within).mp)]
    exact decompressed_raiseDirty s .lengthMismatch

theorem decoder_completes (cmd : decodeCommand s.latch.cmd = .ok (decompressOn eng kind))
    (sound : s.sound = true) (hdr : s.phase = .hdr) {fuel : Nat}
    (enough : s.dec.endOff - s.dec.p < fuel) : ∃ t, Reaches s t ∧ Decompressed s t
      (decodeLoop blockElems fuel (blockBytesAt s) (s.latch.n.toNat - s.dec.k)
        (reference s.dec)) := by
  induction fuel generalizing s with
  | zero => exact absurd enough (Nat.not_lt_zero _)
  | succ fuel ih =>
  obtain ⟨hm, fits⟩ := sound_iff_engineFits.mp sound
  have between : decBetween s = true := by simpa [engineBounded, hdr] using fits.bounded
  obtain ⟨-, -, -, within, few⟩ := decBetween_iff.mp between
  by_cases done : s.dec.k = s.latch.n.toNat
  · rw [done, Nat.sub_self]
    exact decoder_finishes cmd between hdr done
  have wanted : s.latch.n.toNat - s.dec.k ≠ 0 := by omega
  by_cases exhausted : s.dec.p = s.dec.endOff
  · have step := engineStep_header cmd hdr fun block => (atBlock_iff.mp block).2.2.2 exhausted
    rw [headerStep_of_exhausted done exhausted] at step
    have noBytes := List.isEmpty_iff.mp ((blockBytesAt_isEmpty within).mpr exhausted)
    rw [noBytes, decodeLoop_exhausted wanted]
    exact ⟨_, .of_step step, decompressed_raiseDirty s _⟩
  have left : s.dec.p < s.dec.endOff := by omega
  have someBytes := Bool.eq_false_iff.mpr (exhausted ∘ (blockBytesAt_isEmpty within).mp)
  cases decoded : decodeBlock (blockBytesAt s) with
  | error r =>
    rw [decodeLoop_refused wanted someBytes decoded, reference_isSome]
    exact ⟨_, .of_step (refused_fails cmd hdr done left decoded), decompressed_raiseDirty s _⟩
  | ok found =>
    obtain ⟨i, rest⟩ := found
    have checks := blockError_of_decoded left decoded
    rw [decodeLoop_decoded wanted someBytes decoded, reference_isSome]
    cases checked : blockError i s with
    | some e =>
      have step := checked_fails cmd hdr done left decoded checked
      rw [checked] at checks
      split_ifs at checks with missing excess <;> obtain rfl := Option.some.inj checks
      · rw [if_pos missing]
        exact ⟨_, .of_step step, decompressed_raiseDirty s _⟩
      · rw [if_neg missing, if_pos excess]
        exact ⟨_, .of_step step, decompressed_raiseDirty s _⟩
    | none =>
      obtain ⟨t, run, takes⟩ := takes_block cmd hdr done left sound decoded checked
      obtain ⟨length, -, inside, -⟩ := blockElems_fit decoded checked
      rw [checked] at checks
      split_ifs at checks with missing excess
      have known : needsReference i = true → s.dec.hasPrev = true := by
        simpa using missing
      have positive := byteLen_pos left decoded
      obtain ⟨u, run', done⟩ := ih (takes.latch ▸ cmd) (run.sound sound) takes.phase
        (by rw [takes.endOff, takes.p]; omega)
      refine ⟨u, run.trans run', ?_⟩
      have after := done.after_block takes length
      have next : reference t.dec = (blockElems s.dec.prev i).getLast? := by
        rw [getLast?_eq_getLastD (blockElems_isEmpty decoded checked) s.dec.prev, reference,
          if_pos takes.hasPrev, takes.prev]
      rw [blockBytesAt_of_takesBlock hm between left decoded checked takes, next, takes.latch,
        takes.k, Nat.sub_add_eq] at after
      rw [if_neg missing, if_neg excess, blockElems_reference known]
      exact after

end

end Sys2Proof.Proofs

namespace Sys2Proof.Proofs

open Sys2Proof.Machine Sys2Proof.Laws

/-! The footer of a stream (R222, R223), and DECOMPRESS step by step and at once (R237, R276). -/

section
variable {s : State} {eng : EngineSel} {kind : ElemKind}

/-- The byte at the footer's place (R91). -/
def markerAt (s : State) : Byte := readByte s.mem (s.latch.src.toNat + footerOffset s.latch)

theorem decodeFooter_footerBytesAt (s : State) : decodeFooter (footerBytesAt s)
    = if markerAt s = Config.formatMarker then .ok .footer
      else .error (.unknownMarker (markerAt s)) := by
  have bytes : footerBytesAt s
      = markerAt s :: streamAt s (footerOffset s.latch + 1) (Config.footerBytes - 1) := rfl
  unfold decodeFooter
  rw [bytes]
  dsimp only
  rw [streamAt_length, if_neg (lt_irrefl _)]
  simp only [contains_recognizedMarkers]

theorem engineStep_short (mark : s.phase = .mark)
    (short : s.latch.srcLen.toNat < Config.footerBytes) :
    engineStep s = .next (shortBuffer s) := by
  rw [engineStep, if_neg (by simp [mark]), if_pos mark, stepFooter, if_pos short]

/-- The block region open (R91). -/
def regionOpened (s : State) : State :=
  { s with phase := .hdr, dec := { s.dec with endOff := footerOffset s.latch } }

theorem engineStep_known (mark : s.phase = .mark)
    (long : Config.footerBytes ≤ s.latch.srcLen.toNat) (known : markerAt s = Config.formatMarker) :
    engineStep s = .next (regionOpened s) := by
  rw [engineStep_mark mark long (by rw [decodeFooter_footerBytesAt, if_pos known])]
  exact exec_footer_known mark long known

theorem engineStep_unknown (mark : s.phase = .mark)
    (long : Config.footerBytes ≤ s.latch.srcLen.toNat)
    (unknown : markerAt s ≠ Config.formatMarker) :
    engineStep s = .next (s.raiseDirty .unsupportedFormat) := by
  rw [engineStep, if_neg (by simp [mark]), if_pos mark, stepFooter,
    if_neg (Nat.not_lt.mpr long), decodeFooter_footerBytesAt, if_neg unknown]
  rfl

/-- The buffer's byte at the footer's place. -/
theorem inputBytes_marker (long : Config.footerBytes ≤ s.latch.srcLen.toNat) :
    (inputBytes s).getD ((inputBytes s).length - Config.footerBytes) 0#8 = markerAt s := by
  have length : (inputBytes s).length = s.latch.srcLen.toNat := readBytes_length _ _ _
  have positive : 0 < Config.footerBytes := by decide
  have inside : s.latch.srcLen.toNat - Config.footerBytes < (inputBytes s).length := by omega
  rw [length, List.getD_eq_getElem _ _ inside]
  exact readBytes_getElem _ inside

theorem decodeBufWith_of_marker {elems : Word → Instr → List Word} {bs : List Byte} {cnt : Nat}
    (long : Config.footerBytes ≤ bs.length)
    (known : bs.getD (bs.length - Config.footerBytes) 0#8 = Config.formatMarker) :
    decodeBufWith elems bs cnt
      = decodeLoop elems (bs.length + 1) (bs.take (bs.length - Config.footerBytes)) cnt none := by
  have notEmpty : bs.length ≠ 0 := Nat.ne_zero_of_lt long
  rw [decodeBufWith, if_neg notEmpty, if_neg (Nat.not_lt.mpr long),
    contains_recognizedMarkers.mpr known]
  rfl

/-- The decoder's run from MARK ends as `decodeBuf` says, where no element has been produced. -/
theorem decoder_opens (cmd : decodeCommand s.latch.cmd = .ok (decompressOn eng kind))
    (sound : s.sound = true) (mark : s.phase = .mark) : ∃ t r, Reaches s t ∧ Decompressed s t r
      ∧ (s.dec.hasPrev = false → r = decodeBuf (inputBytes s) s.latch.n.toNat) := by
  obtain ⟨⟨-, p⟩, k⟩ : (argsOk .decompress s.latch = true ∧ s.dec.p = 0) ∧ s.dec.k = 0 := by
    simpa [engineBounded, mark] using (sound_iff_engineFits.mp sound).2.bounded
  have length : (inputBytes s).length = s.latch.srcLen.toNat := readBytes_length _ _ _
  rcases Nat.lt_or_ge s.latch.srcLen.toNat Config.footerBytes with short | long
  · have step := engineStep_short mark short
    rcases shortBuffer_cases s with ⟨empty, zero, h⟩ | ⟨empty, some, h⟩ | ⟨nonempty, h⟩ <;>
      rw [h] at step
    · refine ⟨_, .ok [], .of_step step,
        ⟨rfl, fun _ h => Except.ok.inj h ▸ ⟨rfl, zero.symm, rfl⟩, nofun⟩, fun _ => ?_⟩
      rw [decodeBuf, decodeBufWith_of_length_zero (by rw [length, empty]; rfl), zero]
      rfl
    · refine ⟨_, _, .of_step step, decompressed_raiseDirty s _, fun _ => ?_⟩
      rw [decodeBuf, decodeBufWith_of_length_zero (by rw [length, empty]; rfl), if_neg]
      exact fun h => some (BitVec.eq_of_toNat_eq h)
    · refine ⟨_, _, .of_step step, decompressed_raiseDirty s _, fun _ => ?_⟩
      rw [decodeBuf, decodeBufWith_of_short (length ▸ fun h => nonempty (BitVec.eq_of_toNat_eq h))
        (length ▸ short)]
  by_cases known : markerAt s = Config.formatMarker
  · have step := engineStep_known mark long known
    obtain ⟨t, run, done⟩ := decoder_completes (fuel := s.latch.srcLen.toNat + 1) cmd
      (s := regionOpened s) (engineStep_sound sound step) rfl (by
        change footerOffset s.latch - s.dec.p < _
        rw [footerOffset]
        omega)
    refine ⟨t, _, .step step run, ⟨done.idle, done.ok, done.error⟩, fun fresh => ?_⟩
    rw [decodeBuf, decodeBufWith_of_marker (length ▸ long) ((inputBytes_marker long).trans known),
      length]
    have noReference : reference (regionOpened s).dec = none := by
      rw [reference, if_neg]
      exact fun h => Bool.false_ne_true (fresh.symm.trans h)
    have bytes : blockBytesAt (regionOpened s)
        = (inputBytes s).take (s.latch.srcLen.toNat - Config.footerBytes) := by
      rw [inputBytes, readBytes_take _ _ (Nat.sub_le _ _)]
      change streamAt s s.dec.p (footerOffset s.latch - s.dec.p) = _
      rw [p, streamAt, footerOffset]
      rfl
    have want : (regionOpened s).latch.n.toNat - (regionOpened s).dec.k = s.latch.n.toNat := by
      change s.latch.n.toNat - s.dec.k = _
      rw [k, Nat.sub_zero]
    rw [noReference, bytes, want]
  · refine ⟨_, _, .of_step (engineStep_unknown mark long known), decompressed_raiseDirty s _,
      fun _ => ?_⟩
    rw [decodeBuf, decodeBufWith_of_wrong_marker (length ▸ long)
      ((inputBytes_marker long).trans_ne known)]

end

end Sys2Proof.Proofs

namespace Sys2Proof.Proofs

open Sys2Proof.Machine Sys2Proof.Laws

/-! DECOMPRESS step by step and at once (R221, R237, R276). -/

/-! ## The decoder's errors -/

theorem decodeLoop_error_ne_none {elems : Word → Instr → List Word} {fuel : Nat} {bs : List Byte}
    {want : Nat} {prev : Option Word} {e : ErrCode}
    (h : decodeLoop elems fuel bs want prev = .error e) : e ≠ .none := by
  induction fuel generalizing bs want prev with
  | zero =>
    obtain rfl := Except.error.inj h
    decide
  | succ fuel ih =>
    rw [decodeLoop] at h
    split at h
    · split at h
      · cases h
      · cases h; decide
    split at h
    · cases h; decide
    split at h
    case h_1 r _ =>
      obtain rfl := Except.error.inj h
      exact rejectCode_ne_none _ r
    case h_2 =>
      split at h
      · cases h; decide
      split at h
      · cases h; decide
      dsimp only at h
      split at h
      case h_1 e' failed =>
        obtain rfl := Except.error.inj h
        exact ih failed
      case h_2 => cases h

theorem decodeBuf_error_ne_none {bs : List Byte} {cnt : Nat} {e : ErrCode}
    (h : decodeBuf bs cnt = .error e) : e ≠ .none := by
  rw [decodeBuf, decodeBufWith] at h
  split at h
  · split at h
    · cases h
    · cases h; decide
  split at h
  · cases h; decide
  split at h
  · cases h; decide
  · exact decodeLoop_error_ne_none h

section
variable {s : State}

/-- A command that fails its check or meets a refused byte is one step, whatever its grain. -/
theorem decompressCheck_endsLike (result : Except ErrCode (List Word))
    (atOnce : argsOk .decompress s.latch = true →
      accessesAdmitted s (readRegion s.latch) (errorRegion s.latch) = false) :
    EndsLike (decompressCheck result s) (decompressCheck result (merged s)) := by
  cases ok : argsOk .decompress s.latch with
  | false =>
    rw [decompressCheck_of_bad ok, decompressCheck_of_bad (s := merged s) ok]
    exact ⟨rfl, rfl, rfl, rfl⟩
  | true =>
  cases draw : drawsBusError s (readRegion s.latch) (errorRegion s.latch) with
  | true =>
    rw [decompressCheck_of_draw ok draw, decompressCheck_of_draw (s := merged s) ok draw]
    exact ⟨rfl, rfl, rfl, rfl⟩
  | false =>
  have once := runsAtOnce_of_refused (atOnce ok)
  cases result with
  | ok xs =>
    rw [decompressCheck_whole_ok ok draw once,
      decompressCheck_whole_ok (s := merged s) ok draw (runsAtOnce_of_command rfl)]
    exact ⟨rfl, rfl, rfl, rfl⟩
  | error e =>
    rw [decompressCheck_whole_error ok draw once,
      decompressCheck_whole_error (s := merged s) ok draw (runsAtOnce_of_command rfl)]
    exact ⟨rfl, rfl, rfl, rfl⟩

/-- `t` is a completion with the report of `w`, and on success with its memory. -/
structure ReportsLike (t w : State) : Prop where
  idle : t.phase = .idle
  err : t.err = w.err
  result : t.result = w.result
  mem : w.err = .none → t.mem = w.mem

theorem EndsLike.reportsLike {t w : State} (h : EndsLike t w) : ReportsLike t w :=
  ⟨h.idle, h.err, h.result, fun _ => h.mem⟩

theorem decompress_steps {eng : EngineSel} {kind : ElemKind}
    (cmd : decodeCommand s.latch.cmd = .ok (decompressOn eng kind)) (sound : s.sound = true)
    (check : s.phase = .check) (grain : s.grain ≠ .command) : ∃ t, Reaches s t
      ∧ ReportsLike t
        (decompressCheck (decodeBuf (inputBytes s) s.latch.n.toNat) (merged s)) := by
  have step := (engineStep_check_ok check cmd).trans (exec_decompressOn_check kind check eng)
  by_cases stepwise : argsOk .decompress s.latch = true
      ∧ accessesAdmitted s (readRegion s.latch) (errorRegion s.latch) = true
  case neg =>
    exact ⟨_, .of_step step, (decompressCheck_endsLike _ fun ok =>
      Bool.eq_false_iff.mpr fun admitted => stepwise ⟨ok, admitted⟩).reportsLike⟩
  case pos =>
  obtain ⟨ok, admitted⟩ := stepwise
  have draw := drawsBusError_of_admitted admitted
  have steps (r) : decompressCheck r s = { s with phase := .mark } := by
    simp [decompressCheck, ok, draw, runsAtOnce, grain, admitted]
  rw [steps] at step
  obtain ⟨-, -, -, -, k, fresh⟩ := check_bounds check (sound_iff.mp sound).2.2
  obtain ⟨t, r, run, ⟨idle, onOk, onError⟩, decoded⟩ :=
    decoder_opens (s := { s with phase := .mark }) cmd (engineStep_sound sound step) rfl
  have same : r = decodeBuf (inputBytes s) s.latch.n.toNat := decoded fresh
  rw [← same]
  refine ⟨t, .step step run, ?_⟩
  cases r with
  | error e =>
    obtain ⟨err, result⟩ := onError e rfl
    rw [decompressCheck_whole_error (s := merged s) ok draw (runsAtOnce_of_command rfl)]
    exact ⟨idle, err, result, fun none => absurd none (decodeBuf_error_ne_none same.symm)⟩
  | ok xs =>
    obtain ⟨err, result, mem⟩ := onOk xs rfl
    have op := (latchedOp_of_decode cmd).trans (opOf_decompressOn eng kind)
    have length : (elemBytes xs).length = 8 * s.latch.n.toNat := by
      rw [elemBytes_length, decodeBuf_length same.symm]
    rw [errorRegion_decompress op ok] at admitted
    have mem' : t.mem = portWrite s.platform s.mem (s.latch.dst.toNat + 8 * s.dec.k)
        (elemBytes xs) := mem
    rw [k, Nat.mul_zero, Nat.add_zero, portWrite_of_accessesAdmitted admitted length] at mem'
    rw [decompressCheck_whole_ok (s := merged s) ok draw (runsAtOnce_of_command rfl)]
    exact ⟨idle, err, result, fun _ => mem'⟩

end

/-- Settles O51: the blocks taken one by one, or element by element, are those of `decodeBuf`. -/
theorem stepwiseDecompressEqualsWhole : Obligations.StepwiseDecompressEqualsWhole := by
  intro i kind s w command sound check grain cmd whole
  obtain ⟨eng, rfl⟩ : ∃ eng, i = decompressOn eng kind := by
    rcases command with rfl | rfl
    · exact ⟨.scalar, rfl⟩
    · exact ⟨.vector, rfl⟩
  rw [exec_decompressOn_check (s := merged s) kind check eng] at whole
  obtain rfl := Host.Outcome.next.inj whole
  obtain ⟨t, ⟨k, run⟩, idle, err, result, mem⟩ := decompress_steps cmd sound check grain
  exact ⟨k, t, run, idle, err, result, mem⟩

end Sys2Proof.Proofs

namespace Sys2Proof.Proofs

open Sys2Proof.Machine Sys2Proof.Laws

/-! Every command completes (R306): the runs above, from every phase. -/

/-- The engine by itself reaches IDLE. -/
def Completes (s : State) : Prop := ∃ t, Reaches s t ∧ t.phase = .idle

theorem Reaches.completes {s t : State} (run : Reaches s t) (rest : Completes t) :
    Completes s := by
  obtain ⟨u, run', idle⟩ := rest
  exact ⟨u, run.trans run', idle⟩

section
variable {s : State} {eng : EngineSel} {kind : ElemKind}

theorem between_completes (cmd : decodeCommand s.latch.cmd = .ok (compressOn eng kind))
    (sound : s.sound = true) (between : BetweenBlocks eng s) : Completes s := by
  obtain ⟨t, run, done⟩ := encoder_completes (x := inputElem s) cmd sound between le_rfl
    fun _ _ => rfl
  exact ⟨t, run, done.idle⟩

/-- The end of the open block's search. -/
theorem exists_sizeEndsAt (s : State) : ∃ e, SizeEndsAt s e :=
  ⟨_, extendScalar_endsAt _⟩

theorem footer_completes (cmd : decodeCommand s.latch.cmd = .ok (compressOn eng kind))
    (phase : s.phase = encoderEnd eng) : Completes s :=
  ⟨_, .of_step (engineStep_closeStream cmd phase), rfl⟩

theorem compress_completes (cmd : decodeCommand s.latch.cmd = .ok (compressOn eng kind))
    (sound : s.sound = true) (phase : s.phase ∈ encoderPhases eng) : Completes s := by
  obtain ⟨e, ends⟩ := exists_sizeEndsAt s
  cases eng <;> simp only [encoderPhases, List.mem_cons, List.not_mem_nil, or_false] at phase
  case scalar =>
    rcases phase with h | h
    · cases isOpen : s.enc.isOpen with
      | false => exact between_completes cmd sound ⟨h, fun _ => isOpen⟩
      | true =>
        obtain ⟨t, run, phase, closes⟩ := scan_closes cmd h isOpen ends
        exact run.completes (between_completes (eng := .scalar) (closes.latch ▸ cmd)
          (run.sound sound) ⟨phase, fun _ => closes.closed⟩)
    · exact footer_completes cmd h
  case vector =>
    have emitted {t : State} {e : Nat} (run : Reaches s t) (phase : t.phase = .vOpen)
        (closes : Closes e s t) : Completes s :=
      run.completes (between_completes (eng := .vector) (closes.latch ▸ cmd) (run.sound sound)
        ⟨phase, nofun⟩)
    rcases phase with h | h | h | h | h
    · exact between_completes cmd sound ⟨h, nofun⟩
    · have lanes : Config.lanes ≤ s.latch.n.toNat - (s.enc.s + s.enc.nb) := by
        have bounded := (sound_iff_engineFits.mp sound).2.bounded
        simp_all [engineBounded]
      obtain ⟨t, run, phase, closes⟩ :=
        search_closes cmd ⟨.inl h, fun _ => lanes, by simp [h]⟩ ends
      exact emitted run phase closes
    · obtain ⟨t, run, phase, closes⟩ :=
        search_closes cmd ⟨.inr (.inl h), by simp [h], by simp [h]⟩ ends
      exact emitted run phase closes
    · obtain ⟨t, run, phase, closes⟩ := emit_closes cmd h
      exact emitted run phase closes
    · exact footer_completes cmd h

theorem header_completes (cmd : decodeCommand s.latch.cmd = .ok (decompressOn eng kind))
    (sound : s.sound = true) (hdr : s.phase = .hdr) : Completes s := by
  obtain ⟨t, run, done⟩ := decoder_completes cmd sound hdr (Nat.lt_succ_self _)
  exact ⟨t, run, done.idle⟩

theorem body_completes (cmd : decodeCommand s.latch.cmd = .ok (decompressOn eng kind))
    (sound : s.sound = true)
    (phase : s.phase = elementPhase eng ∨ eng = .vector ∧ s.phase = .dLane) : Completes s := by
  obtain ⟨q, g, run, all⟩ := body_runs cmd sound phase
  have sound' := run.sound sound
  rw [takeElems_of_all _ q g s all] at run sound'
  exact run.completes (header_completes (eng := eng) (kind := kind) cmd sound' rfl)

theorem decompress_completes (cmd : decodeCommand s.latch.cmd = .ok (decompressOn eng kind))
    (sound : s.sound = true) (phase : s.phase ∈ decoderPhases eng) : Completes s := by
  have opens (mark : s.phase = .mark) : Completes s := by
    obtain ⟨t, r, run, done, -⟩ := decoder_opens cmd sound mark
    exact ⟨t, run, done.idle⟩
  have finishes (fin : s.phase = .fin) : Completes s := by
    have step : engineStep s = .next (finishStep s) := by
      rw [← exec_finish kind eng fin]
      exact engineStep_command (by simp [fin]) (by simp [fin]) (by simp [atBlock, fin]) cmd
    refine ⟨_, .of_step step, ?_⟩
    rw [finishStep]
    split <;> rfl
  cases eng <;> simp only [decoderPhases, List.mem_cons, List.not_mem_nil, or_false] at phase
  · rcases phase with h | h | h | h
    · exact opens h
    · exact header_completes cmd sound h
    · exact body_completes cmd sound (.inl h)
    · exact finishes h
  · rcases phase with h | h | h | h | h
    · exact opens h
    · exact header_completes cmd sound h
    · exact body_completes cmd sound (.inr ⟨rfl, h⟩)
    · exact body_completes cmd sound (.inl h)
    · exact finishes h

theorem started_completes (sound : s.sound = true) (started : s.phase ≠ .check) :
    Completes s := by
  by_cases idle : s.phase = .idle
  · exact ⟨s, .refl s, idle⟩
  have fits := (sound_iff_engineFits.mp sound).2.phase
  rcases command_of_phaseFits fits idle started with ⟨eng, kind, cmd, phase⟩
    | ⟨eng, kind, cmd, phase⟩
  · exact compress_completes cmd sound phase
  · exact decompress_completes cmd sound phase

/-- A step from CHECK leaves CHECK. -/
theorem check_leaves {t : State} (check : s.phase = .check) (h : engineStep s = .next t) :
    t.phase ≠ .check := by
  have idle : Phase.idle ≠ .check := nofun
  cases cmd : decodeCommand s.latch.cmd with
  | error r =>
    rw [engineStep_check check, stepCommand_refused cmd] at h
    exact Host.Outcome.next.inj h ▸ idle
  | ok i =>
    rw [engineStep_check_ok check cmd] at h
    rcases decodeCommand_spec cmd with ⟨e, k, rfl⟩ | ⟨k, rfl⟩ | ⟨k, rfl⟩
    · obtain ⟨-, ⟨-, rfl⟩ | ⟨-, rfl⟩⟩ := execMaxsize_cases (e := e) (k := k) h <;> exact idle
    · rw [exec_compressOn_check k check] at h
      obtain rfl := Host.Outcome.next.inj h
      generalize decodeEngine s.latch.cmd = eng
      rcases compressCheck_cases (encodeSeq (inputElems s)) (encoderStart eng) s with ⟨-, h⟩
        | ⟨-, -, h⟩ | ⟨-, -, -, h⟩ | ⟨-, -, -, h⟩ | ⟨-, -, -, -, h⟩ <;> rw [h]
      iterate 4 exact idle
      cases eng <;> exact nofun
    · rw [exec_decompressOn_check k check] at h
      obtain rfl := Host.Outcome.next.inj h
      rcases decompressCheck_cases (decodeBuf (inputBytes s) s.latch.n.toNat) s with ⟨-, h⟩
        | ⟨-, -, h⟩ | ⟨-, -, xs, -, h⟩ | ⟨-, -, e, -, h⟩ | ⟨-, -, -, h⟩ <;> rw [h]
      iterate 4 exact idle
      exact nofun

end

/-- Settles O49: a step from CHECK, then a run from the phase it leads to. -/
theorem everyCommandCompletes : Obligations.EveryCommandCompletes := by
  intro s sound
  obtain ⟨t, step⟩ := engineNeverStops s sound
  have sound' := engineStep_sound sound step
  have completes : Completes s := by
    by_cases check : s.phase = .check
    · exact (Reaches.of_step step).completes (started_completes sound' (check_leaves check step))
    · exact started_completes sound check
  obtain ⟨u, ⟨k, run⟩, idle⟩ := completes
  exact ⟨k, u, run, idle⟩

end Sys2Proof.Proofs
